-- ==== Sys2Proof/Word.lean ====
section
/-! DEFINITION. The word types of LCDSEQ (00_scope.md R16: a byte is 8 bits, a pixel is 16 bits; all
quantities are unsigned). -/

namespace Sys2Proof

/-- One byte on the bus, one opcode, one request code. -/
abbrev Byte := BitVec 8

/-- One pixel: a 16-bit value, opaque to the block (20_memory.md R41, R44). -/
abbrev Pixel := BitVec 16

/-- One inclusive window bound, or one register of the controller's window (R46, R55). -/
abbrev Bound := BitVec 16

end Sys2Proof
end

