-- ==== Sys2Proof/Config.lean ====
section
/-! DEFINITION. What an instantiation fixes (00_scope.md section 3: the record `Cfg`), the reference
instantiation, and the free values the spec leaves open. -/

namespace Sys2Proof

/-- A line level, R14: "a level in {High, Low}". -/
inductive Level where
  | high
  | low
  deriving DecidableEq, Repr

/-- The type of transport error values at which the machine is run (R15). Every definition of the machine
takes the error type `E` as a parameter, opaque to it (D32); this is the default for `E`. DESIGN CHOICE
(safe, entry 3): a token over Nat, so that states can be compared. -/
structure BusError where
  token : Nat
  deriving DecidableEq, Repr

/-- An entry of the initialization table or of the tuning list (30_encoding.md R76): an opcode, its
parameter bytes, and a post-delay in milliseconds, 0 meaning none. -/
structure Entry where
  op        : Byte
  params    : List Byte
  postDelay : Nat
  deriving DecidableEq, Repr

/-- The configuration of one instantiation (00_scope.md R7 to R14). It is constant: no operation
changes it. -/
structure Cfg where
  /-- R7: logical width and height, visible pixels. -/
  w : Nat
  h : Nat
  /-- R7: row offset ROFF and column offset COFF of the logical buffer in the pixel memory. -/
  rOff : Nat
  cOff : Nat
  /-- R10: the eight opcodes. -/
  opSwreset : Byte
  opSlpout  : Byte
  opColmod  : Byte
  opMadctl  : Byte
  opDispon  : Byte
  opCaset   : Byte
  opRaset   : Byte
  opRamwr   : Byte
  /-- R11: the parameter bytes of COLMOD and MADCTL. -/
  colmodParam : Byte
  madctlParam : Byte
  /-- R12: the tuning table. -/
  tuning : List Entry
  /-- R13: the five delays, in milliseconds. -/
  tRstPre    : Nat
  tRstActive : Nat
  tRstPost   : Nat
  tSwreset   : Nat
  tSlpout    : Nat
  /-- R14: the three polarities. The opposite levels are their complements. -/
  csAssert  : Level
  dcCmd     : Level
  rstActive : Level
  deriving DecidableEq, Repr

/-- R7: the controller's native columns, fixed by the source. -/
def Cfg.pw : Nat := 240

/-- R7: the controller's native rows, fixed by the source. -/
def Cfg.ph : Nat := 320

/-- The reference instantiation REF (R9, R12) with the default opcodes (R70), parameter bytes (R71) and
polarities (R72). The five delays have no default in the spec: DESIGN CHOICE (unsafe, entry 2). -/
def Cfg.ref : Cfg where
  w := 240
  h := 280
  rOff := 40
  cOff := 0
  opSwreset := 0x01
  opSlpout := 0x11
  opColmod := 0x3A
  opMadctl := 0x36
  opDispon := 0x29
  opCaset := 0x2A
  opRaset := 0x2B
  opRamwr := 0x2C
  colmodParam := 0x55
  madctlParam := 0x00
  tuning := []
  tRstPre := 1
  tRstActive := 10
  tRstPost := 120
  tSwreset := 150
  tSlpout := 120
  csAssert := .low
  dcCmd := .low
  rstActive := .low

/-- Which command the controller is receiving data for (20_memory.md R55, R56). `several` is an opcode byte
that is two or all of OP_CASET, OP_RASET, OP_RAMWR, as D2 allows: which of them is what it carries. -/
inductive SinkMode where
  | idle
  | column
  | row
  | pixels
  | other
  | several (column row pixels : Bool)
  deriving DecidableEq, Repr, Inhabited

/-- FREE VALUE (safe, entry 11). What a window register or the write pointer of the controller holds
where the source gives none: before a successful INIT, during one and after it, and after an aborted
command (K13, K14, R153), and after an opcode byte that is several commands (entry 12). No body: every claim
holds whatever it is. -/
opaque Config.freeBound : Nat → Bound

/-- FREE VALUE (safe, entry 11). Which command the controller is in the middle of, in the same cases (K13). -/
opaque Config.freeMode : Nat → SinkMode

/-- FREE VALUE (safe, entry 11). Which data bytes of it the controller holds, in the same cases (K13). -/
opaque Config.freeBytes : Nat → List Byte

/-- FREE VALUE (safe, entry 14). The pixel read at an index the host's sequence does not have, when the
host hands over a length that is not the sequence's own. -/
opaque Config.freePixel : Nat → Pixel

end Sys2Proof
end

