-- ==== Sys2Proof/Machine/MicroOp.lean ====
section
/-! DEFINITION. The eight micro-operations (40_command_protocol.md R90 to R97), the answers of the
outside (R98) and the events they leave (10_state.md R30). Types only, and what one micro-operation asks
of the outside. -/

namespace Sys2Proof.Machine

variable {E : Type}

/-- The three discrete outputs (R19, R177). -/
inductive Line where
  | cs
  | dc
  | rst
  deriving DecidableEq, Repr

/-- One outward call (R90 to R97). -/
inductive MicroOp where
  | csA
  | csR
  | dcC
  | dcD
  | rstA
  | rstR
  | wr (bytes : List Byte)
  | wait (ms : Nat)
  deriving DecidableEq, Repr

/-- The answer of a `SigSet` or a `BusWrite` (R17, R98), over an error type `E` (R15). -/
inductive Answer (E : Type) where
  | ok
  | err (e : E)
  deriving DecidableEq, Repr

/-- A completed call with its answer (R30). -/
inductive Event (E : Type) where
  | set (line : Line) (level : Level) (ans : Answer E)
  | write (bytes : List Byte) (ans : Answer E)
  | delay (ms : Nat)
  deriving DecidableEq, Repr

/-- R14: the opposite level, the logical complement. -/
def invert : Level → Level
  | .high => .low
  | .low => .high

/-- The outward call of a micro-operation, R17: `SigSet(line, level)`, `BusWrite(bytes)` or `Delay(ms)`. -/
inductive Call where
  | sigSet (line : Line) (level : Level)
  | busWrite (bytes : List Byte)
  | delay (ms : Nat)
  deriving DecidableEq, Repr

/-- R90 to R97: which call each micro-operation is, under the configuration's polarities. -/
def callOf (c : Cfg) : MicroOp → Call
  | .csA => .sigSet .cs c.csAssert
  | .csR => .sigSet .cs (invert c.csAssert)
  | .dcC => .sigSet .dc c.dcCmd
  | .dcD => .sigSet .dc (invert c.dcCmd)
  | .rstA => .sigSet .rst c.rstActive
  | .rstR => .sigSet .rst (invert c.rstActive)
  | .wr bytes => .busWrite bytes
  | .wait ms => .delay ms

/-- R109: the micro-operations that can fail, the six line sets and `WR`. -/
def fallible : MicroOp → Bool
  | .wait _ => false
  | .csA | .csR | .dcC | .dcD | .rstA | .rstR | .wr _ => true

/-- R96: the micro-operations that write to the bus. -/
def isWrite : MicroOp → Bool
  | .wr _ => true
  | .csA | .csR | .dcC | .dcD | .rstA | .rstR | .wait _ => false

/-- The event of a micro-operation answered `Ok`, or `done` for a delay (R90 to R97). -/
def okEvent (c : Cfg) (m : MicroOp) : Event E :=
  match callOf c m with
  | .sigSet line level => .set line level .ok
  | .busWrite bytes => .write bytes .ok
  | .delay ms => .delay ms

/-- The event of a fallible micro-operation answered `Err(e)`; a delay has no such answer (R97, R178)
and keeps its one event. -/
def errEvent (c : Cfg) (e : E) (m : MicroOp) : Event E :=
  match callOf c m with
  | .sigSet line level => .set line level (.err e)
  | .busWrite bytes => .write bytes (.err e)
  | .delay ms => .delay ms

end Sys2Proof.Machine
end

