-- ==== Sys2Proof/Syntax.lean ====
section
/-! DEFINITION. The instructions of LCDSEQ: one constructor per row of spec/opcode_table.json
(30_encoding.md R83): two host requests and nine wire commands. -/

namespace Sys2Proof

/-- The encoded things of LCDSEQ. Operands are those the encoding carries: a fixed parameter byte, a
fixed opcode or a fixed delay is the configuration's and no operand (R125 to R128, R130: "Operands: none
at run time"). -/
inductive Instr where
  /-- INIT, host request 0x01 (R135). -/
  | init
  /-- DRAW, host request 0x02, with the framebuffer and its length (R144, R75). -/
  | draw (fb : List Pixel) (len : Nat)
  /-- SWRESET, software reset, format C0 (R125). -/
  | swreset
  /-- SLPOUT, sleep-out, format C0 (R126). -/
  | slpout
  /-- COLMOD, pixel-format-set, format C1 (R127). -/
  | colmod
  /-- MADCTL, memory-access-control, format C1 (R128). -/
  | madctl
  /-- DISPON, display-on, format C0 (R130). -/
  | dispon
  /-- CASET, column-address-set, format C4, physical inclusive columns (R112). -/
  | caset (xs xe : Bound)
  /-- RASET, row-address-set, format C4, physical inclusive rows (R113). -/
  | raset (ys ye : Bound)
  /-- RAMWR, memory-write, the opcode of format PIX (R114). -/
  | ramwr
  /-- TUNING, one entry of the tuning list, format CN (R129). -/
  | tuning (op : Byte) (params : List Byte) (postDelay : Nat)
  deriving DecidableEq, Repr

end Sys2Proof
end

