-- ==== Sys2Proof/WellFormed.lean ====
section
/-! DEFINITION. Which configurations are configurations of LCDSEQ (R7, R8, R186) and which instructions
are well formed under a configuration. -/

namespace Sys2Proof

/-- R7, R8, R186: the invariant a configuration must meet for a block to be constructed. -/
def Cfg.valid (c : Cfg) : Bool :=
  decide (1 ≤ c.w) && decide (1 ≤ c.h) && decide (c.w ≤ Cfg.pw) && decide (c.h ≤ Cfg.ph) &&
    decide (c.rOff + c.h ≤ Cfg.ph) && decide (c.cOff + c.w ≤ Cfg.pw)

/-- R112: physical start and end column, `0 ≤ xs ≤ xe ≤ PW-1`. -/
def columnsOk (xs xe : Bound) : Bool := decide (xs.toNat ≤ xe.toNat) && decide (xe.toNat < Cfg.pw)

/-- R113: physical start and end row, `0 ≤ ys ≤ ye ≤ PH-1`. -/
def rowsOk (ys ye : Bound) : Bool := decide (ys.toNat ≤ ye.toNat) && decide (ye.toNat < Cfg.ph)

/-- The opcode is one of the eight structural ones of the configuration (R79 speaks of a tuning entry
that carries one). -/
def Cfg.structural (c : Cfg) (op : Byte) : Bool :=
  [c.opSwreset, c.opSlpout, c.opColmod, c.opMadctl, c.opDispon, c.opCaset, c.opRaset, c.opRamwr].contains op

/-- The eight structural opcodes are pairwise distinct. D2 does not require it; without it a wire word
does not tell which of two commands it is. -/
def Cfg.distinctOps (c : Cfg) : Bool :=
  decide [c.opSwreset, c.opSlpout, c.opColmod, c.opMadctl, c.opDispon, c.opCaset, c.opRaset, c.opRamwr].Nodup

/-- An instruction whose operands are in the range the spec gives them: the framebuffer comes with its
own length (R41, R75), window bounds are in range (R112, R113). Everything else is always well formed;
a tuning entry is opaque (R129). -/
def Instr.wf : Instr → Bool
  | .draw fb len => decide (fb.length = len)
  | .caset xs xe => columnsOk xs xe
  | .raset ys ye => rowsOk ys ye
  | .init | .swreset | .slpout | .colmod | .madctl | .dispon | .ramwr | .tuning _ _ _ => true

/-- The word of the instruction names it alone: a tuning entry whose opcode is a structural one reads
back as that command or is told apart from it by nothing on the wire (R79). -/
def Instr.unambiguous (c : Cfg) : Instr → Bool
  | .tuning op _ _ => !c.structural op
  | .init | .draw _ _ | .swreset | .slpout | .colmod | .madctl | .dispon | .caset _ _ | .raset _ _ | .ramwr => true

end Sys2Proof
end

