-- ==== Sys2Proof/Machine/Operands.lean ====
section
/-! DEFINITION. Operand forms: splitting 16-bit values into bytes (R16, R45, R46), the pixel's fields
(R44), the framebuffer's indexing and reading (R42, R43), the mapping into the pixel memory (R52), the
parameter bytes of the wire formats (R65 to R69). -/

namespace Sys2Proof.Machine

/-- R16: `be16(v) = [v[15:8], v[7:0]]`, high byte first. -/
def be16 (v : BitVec 16) : List Byte := [v.extractLsb' 8 8, v.extractLsb' 0 8]

/-- R55, R56: a 16-bit value from its high and its low byte, `b0*256 + b1`. -/
def ofBytes (hi lo : Byte) : BitVec 16 := hi ++ lo

/-- R44: red is bits 15 to 11 of a pixel. -/
def pixelRed (p : Pixel) : BitVec 5 := p.extractLsb' 11 5

/-- R44: green is bits 10 to 5 of a pixel. -/
def pixelGreen (p : Pixel) : BitVec 6 := p.extractLsb' 5 6

/-- R44: blue is bits 4 to 0 of a pixel. -/
def pixelBlue (p : Pixel) : BitVec 5 := p.extractLsb' 0 5

/-- R42: the index of the pixel at logical column `x`, row `y`. -/
def fbIndex (c : Cfg) (x y : Nat) : Nat := y * c.w + x

/-- R42: the logical column of the pixel at index `i`. -/
def fbColumn (c : Cfg) (i : Nat) : Nat := i % c.w

/-- R42: the logical row of the pixel at index `i`. -/
def fbRow (c : Cfg) (i : Nat) : Nat := i / c.w

/-- R52: the physical column logical column `x` belongs at; also the offset addition of R111. -/
def physColumn (c : Cfg) (x : Nat) : Nat := x + c.cOff

/-- R52: the physical row logical row `y` belongs at; also the offset addition of R111. -/
def physRow (c : Cfg) (y : Nat) : Nat := y + c.rOff

/-- R43: `FbRead(i)`. An index the host's sequence does not have reads a free value (entry 14); it is
only ever read at an index below `W*H`. -/
def fbRead (fb : List Pixel) (i : Nat) : Pixel :=
  match fb[i]? with
  | some p => p
  | none => Config.freePixel i

/-- R146: the pixel payload, `concat [be16(FbRead(i)) | i in 0 .. W*H-1]`. -/
def pixBytes (c : Cfg) (fb : List Pixel) : List Byte :=
  (List.range (c.w * c.h)).flatMap fun i => be16 (fbRead fb i)

/-- R67: the four data bytes of format C4. -/
def boundBytes (start stop : Bound) : List Byte := be16 start ++ be16 stop

/-- R115, D25: a bound computed in natural numbers; it fits 16 bits under the configuration's invariant. -/
def toBound (n : Nat) : Bound := BitVec.ofNat 16 n

end Sys2Proof.Machine
end

