-- ==== Sys2Proof/Machine/Procedures.lean ====
section
/-! DEFINITION. The framing procedures and the programs as lists of micro-operations: SEND_COMMAND,
SEND_DATA, GROUP (R102 to R104), HWRESET (R124), SET_WINDOW (R111), TAB, INIT_PROG (R133, R134) and
DRAW_PROG (R147). -/

namespace Sys2Proof.Machine

/-- R102: `SEND_COMMAND(op) = [CS_A, DC_C, WR([op])]`; it leaves chip-select asserted. -/
def sendCommand (op : Byte) : List MicroOp := [.csA, .dcC, .wr [op]]

/-- R103: `SEND_DATA(bytes) = [DC_D, WR(bytes)]`; one write for all the bytes (R107). -/
def sendData (bytes : List Byte) : List MicroOp := [.dcD, .wr bytes]

/-- R108: a delay of 0 produces no `WAIT`. -/
def settle (ms : Nat) : List MicroOp := if ms = 0 then [] else [.wait ms]

/-- R108: an empty parameter list produces no `SEND_DATA`. -/
def sendParams (params : List Byte) : List MicroOp := if params = [] then [] else sendData params

/-- R104: one complete group: the opcode, its parameters, the release of chip-select, then the delay. -/
def group (op : Byte) (params : List Byte) (d : Nat) : List MicroOp :=
  sendCommand op ++ sendParams params ++ [.csR] ++ settle d

/-- R76: an entry means `GROUP(op, params, post_delay)`. -/
def entryOps (e : Entry) : List MicroOp := group e.op e.params e.postDelay

/-- R124: the hardware reset of the controller, a delay after each of the three sets. -/
def hwReset (c : Cfg) : List MicroOp :=
  [.rstR] ++ settle c.tRstPre ++ [.rstA] ++ settle c.tRstActive ++ [.rstR] ++ settle c.tRstPost

/-- R125. -/
def swresetOps (c : Cfg) : List MicroOp := group c.opSwreset [] c.tSwreset

/-- R126. -/
def slpoutOps (c : Cfg) : List MicroOp := group c.opSlpout [] c.tSlpout

/-- R127. -/
def colmodOps (c : Cfg) : List MicroOp := group c.opColmod [c.colmodParam] 0

/-- R128. -/
def madctlOps (c : Cfg) : List MicroOp := group c.opMadctl [c.madctlParam] 0

/-- R130. -/
def disponOps (c : Cfg) : List MicroOp := group c.opDispon [] 0

/-- R112. -/
def casetOps (c : Cfg) (xs xe : Bound) : List MicroOp := group c.opCaset (boundBytes xs xe) 0

/-- R113. -/
def rasetOps (c : Cfg) (ys ye : Bound) : List MicroOp := group c.opRaset (boundBytes ys ye) 0

/-- R114: the opcode alone; the group stays open for the payload. -/
def ramwrOps (c : Cfg) : List MicroOp := sendCommand c.opRamwr

/-- R129: one tuning entry. -/
def tuningOps (op : Byte) (params : List Byte) (d : Nat) : List MicroOp := group op params d

/-- R133: the initialization table. -/
def tab (c : Cfg) : List Entry :=
  [⟨c.opSwreset, [], c.tSwreset⟩, ⟨c.opSlpout, [], c.tSlpout⟩, ⟨c.opColmod, [c.colmodParam], 0⟩,
    ⟨c.opMadctl, [c.madctlParam], 0⟩] ++ c.tuning ++ [⟨c.opDispon, [], 0⟩]

/-- R134: the program of INIT. Its fixed part has 7 writes, as R133 with R104 and the rows of vector T20 give
it; R137 and the summary line of T20 count 8, 6 opcodes where the table has 5 (DEDUCED, unsafe, entry 29). -/
def initProg (c : Cfg) : List MicroOp := hwReset c ++ (tab c).flatMap entryOps

/-- R111: SET_WINDOW in logical coordinates, the one place the offsets are added. -/
def setWindow (c : Cfg) (colStart colEnd rowStart rowEnd : Nat) : List MicroOp :=
  casetOps c (toBound (physColumn c colStart)) (toBound (physColumn c colEnd)) ++
    rasetOps c (toBound (physRow c rowStart)) (toBound (physRow c rowEnd)) ++ ramwrOps c

/-- R116: the precondition of SET_WINDOW. -/
def windowArgsOk (c : Cfg) (colStart colEnd rowStart rowEnd : Nat) : Bool :=
  decide (colStart ≤ colEnd) && decide (colEnd < c.w) && decide (rowStart ≤ rowEnd) && decide (rowEnd < c.h)

/-- R116, K18: SET_WINDOW exposed on its own refuses arguments outside its precondition. -/
def setWindowChecked (c : Cfg) (colStart colEnd rowStart rowEnd : Nat) : Option (List MicroOp) :=
  if windowArgsOk c colStart colEnd rowStart rowEnd then some (setWindow c colStart colEnd rowStart rowEnd)
  else none

/-- R117, R145: the full window that every DRAW sends. -/
def fullWindow (c : Cfg) : List MicroOp := setWindow c 0 (c.w - 1) 0 (c.h - 1)

/-- R146, R147, R149: the payload in one write, then the release of chip-select. -/
def payloadOps (c : Cfg) (fb : List Pixel) : List MicroOp := sendData (pixBytes c fb) ++ [.csR]

/-- R147: the program of DRAW, 18 calls. -/
def drawProg (c : Cfg) (fb : List Pixel) : List MicroOp := fullWindow c ++ payloadOps c fb

/-- R24, R147: the index of the last `CS_R` of DRAW_PROG, the clean-up of a failed DRAW. -/
def cleanupIndex : Nat := 17

/-- R147: the index of the payload write of DRAW_PROG. -/
def payloadIndex : Nat := 16

/-- R109: how many calls of a list can fail. -/
def fallibleCount (ops : List MicroOp) : Nat := ops.countP fallible

/-- How many calls of a list are delays. -/
def waitCount (ops : List MicroOp) : Nat := ops.countP fun m => !fallible m

/-- How many calls of a list are writes (R137). -/
def writeCount (ops : List MicroOp) : Nat := ops.countP isWrite

end Sys2Proof.Machine
end

