-- ==== Sys2Proof/Decode.lean ====
section
/-! DEFINITION. Encodings (30_encoding.md): the request code at the host port (R73, R75, R78), the tagged
bytes on the wire (R63, R65 to R69), the decoders of both, total and rejecting by name, the encoder, and
the table's words. LCDSEQ itself only encodes; the wire decoder is the reader of what it sends. -/

namespace Sys2Proof

/-- The tag of a byte on the wire, R63: `C` while the selector is at the command level, `D` while it is
at the data level. -/
inductive Tag where
  | c
  | d
  deriving DecidableEq, Repr

/-- One byte as the controller sees it (R63). -/
structure TaggedByte where
  tag  : Tag
  byte : Byte
  deriving DecidableEq, Repr

/-- What the host puts on the request port: the code of R73 and the operand of DRAW, R75 (the
framebuffer and its length). -/
structure HostRequest where
  code : Byte
  fb   : List Pixel
  len  : Nat
  deriving DecidableEq, Repr

/-- Why a decoder refuses. -/
inductive DecodeError where
  /-- R78: a request code other than 0x01 and 0x02. -/
  | illegalRequest (code : Byte)
  /-- No byte to read. -/
  | noByte
  /-- R65 to R69: a command starts with a byte of tag `C`; this one starts with a data byte. -/
  | dataWithoutCommand (byte : Byte)
  deriving DecidableEq, Repr

/-- An encoded instruction: at the host port or on the wire. -/
inductive Encoded where
  | request (r : HostRequest)
  | wire (bytes : List TaggedByte)
  deriving DecidableEq, Repr

/-- R73, R78: the request the host's code stands for. -/
def decodeRequest (r : HostRequest) : Except DecodeError Instr :=
  if r.code = 0x01 then .ok .init
  else if r.code = 0x02 then .ok (.draw r.fb r.len)
  else .error (.illegalRequest r.code)

/-- The command of an opcode and its data bytes (R65 to R68, R70). What is none of the named commands
with their own operands is a tuning command: opaque, any opcode, any bytes (R68, R79). The post-delay is
not on the wire. -/
def commandOf (c : Cfg) (op : Byte) (params : List Byte) : Instr :=
  if op = c.opSwreset ∧ params = [] then .swreset
  else if op = c.opSlpout ∧ params = [] then .slpout
  else if op = c.opColmod ∧ params = [c.colmodParam] then .colmod
  else if op = c.opMadctl ∧ params = [c.madctlParam] then .madctl
  else if op = c.opDispon ∧ params = [] then .dispon
  else match params with
    | [b0, b1, b2, b3] =>
      if op = c.opCaset then .caset (Machine.ofBytes b0 b1) (Machine.ofBytes b2 b3)
      else if op = c.opRaset then .raset (Machine.ofBytes b0 b1) (Machine.ofBytes b2 b3)
      else .tuning op params 0
    | _ => .tuning op params 0

/-- The data bytes up to the next byte of tag `C`. -/
def dataPrefix : List TaggedByte → List Byte
  | ⟨.d, b⟩ :: rest => b :: dataPrefix rest
  | _ => []

/-- What follows those data bytes. -/
def afterData : List TaggedByte → List TaggedByte
  | ⟨.d, _⟩ :: rest => afterData rest
  | bytes => bytes

/-- One command from the wire and the bytes after it (R65 to R69, R77). The pixel payload after RAMWR is
left in the rest: it is DRAW's (R69, R114). -/
def decodeWire (c : Cfg) : List TaggedByte → Except DecodeError (Instr × List TaggedByte)
  | [] => .error .noByte
  | ⟨.d, b⟩ :: _ => .error (.dataWithoutCommand b)
  | ⟨.c, op⟩ :: rest =>
    if op = c.opRamwr then .ok (.ramwr, rest)
    else .ok (commandOf c op (dataPrefix rest), afterData rest)

/-- The decoder of either space. -/
def decode (c : Cfg) : Encoded → Except DecodeError (Instr × List TaggedByte)
  | .request r => (decodeRequest r).map fun i => (i, [])
  | .wire bytes => decodeWire c bytes

/-- R65 to R68: an opcode byte of tag `C` and the parameter bytes of tag `D`. -/
def wireCommand (op : Byte) (params : List Byte) : List TaggedByte :=
  ⟨.c, op⟩ :: params.map fun b => ⟨.d, b⟩

/-- The encoder: the words of an instruction (R65 to R70, R73). -/
def encode (c : Cfg) : Instr → Encoded
  | .init => .request ⟨0x01, [], 0⟩
  | .draw fb len => .request ⟨0x02, fb, len⟩
  | .swreset => .wire (wireCommand c.opSwreset [])
  | .slpout => .wire (wireCommand c.opSlpout [])
  | .colmod => .wire (wireCommand c.opColmod [c.colmodParam])
  | .madctl => .wire (wireCommand c.opMadctl [c.madctlParam])
  | .dispon => .wire (wireCommand c.opDispon [])
  | .caset xs xe => .wire (wireCommand c.opCaset (Machine.boundBytes xs xe))
  | .raset ys ye => .wire (wireCommand c.opRaset (Machine.boundBytes ys ye))
  | .ramwr => .wire (wireCommand c.opRamwr [])
  | .tuning op params _ => .wire (wireCommand op params)

/-- The instruction as its word carries it: the post-delay of a tuning entry is not on the wire (R68, R76). -/
def Instr.onWire : Instr → Instr
  | .tuning op params _ => .tuning op params 0
  | i => i

/-- The bytes of the command an opcode byte starts, every operand zero: the parameter byte of COLMOD and
of MADCTL is the configuration's, no operand (R127, R128). -/
def tableBytes (c : Cfg) (op : Byte) : List TaggedByte :=
  if op = c.opColmod then wireCommand op [c.colmodParam]
  else if op = c.opMadctl then wireCommand op [c.madctlParam]
  else if op = c.opCaset ∨ op = c.opRaset then wireCommand op [0, 0, 0, 0]
  else wireCommand op []

/-- The instruction of a row's word in spec/opcode_table.json. Every row is one byte; the two host
requests and the wire commands are two spaces of codes, and a byte that is a request code is read as the
request (entry 17): 0x01 is INIT here, not SWRESET. The wire opcodes are the defaults of R70. -/
def decodeTableWord (nbits w : Nat) : Option Instr :=
  if nbits = 8 ∧ w < 256 then
    match decodeRequest ⟨BitVec.ofNat 8 w, [], 0⟩ with
    | .ok i => some i
    | .error _ =>
      match decodeWire Cfg.ref (tableBytes Cfg.ref (BitVec.ofNat 8 w)) with
      | .ok (i, _) => some i
      | .error _ => none
  else none

end Sys2Proof
end

