-- ==== Sys2Proof/Machine/State.lean ====
section
/-! DEFINITION. The state of LCDSEQ (10_state.md), its value at construction (R37), and the reasons a
step can stop. -/

namespace Sys2Proof.Machine

/-- A line latch, 10_state.md section 2: `u` means the spec gives the line no level. -/
inductive Latch where
  | high
  | low
  | u
  deriving DecidableEq, Repr

/-- The operation in progress (R25). -/
inductive Op where
  | init
  | draw
  deriving DecidableEq, Repr

/-- The spec's view of the controller's configuration (R31). -/
inductive Ctrl where
  | unknown
  | ready
  | indeterminate
  deriving DecidableEq, Repr

/-- The result of an operation (R74), over an error type `E` (R15). -/
inductive Result (E : Type) where
  | ok
  | initErr (e : E)
  | drawErr (e : E)
  | lenErr
  deriving DecidableEq, Repr

/-- R30: the records of requests and results. `events` is how many events the trace held then. -/
inductive HostEvent (E : Type) where
  | req (op : Op) (events : Nat)
  | res (r : Result E) (events : Nat)
  deriving DecidableEq, Repr

/-- INPUT. What the transport does about an outstanding call (R98). `silent`: no answer in this step.
`err`: the call failed; `sent` is how many bytes of a failed write had reached the controller, which the
block is not told (R39). -/
inductive Reply (E : Type) where
  | silent
  | ok
  | err (e : E) (sent : Nat)
  deriving DecidableEq, Repr

/-- INPUT. What the timing source does about an outstanding delay (R98, R178): it has no error. -/
inductive Tick where
  | silent
  | done
  deriving DecidableEq, Repr

/-- Ghost: the controller as a sink (20_memory.md R55, R56). `pm` lists the cells of the pixel memory
whose value is known, by key `row*240 + column`, keys strictly rising; a cell that is not listed has no
value the spec gives. -/
structure Controller where
  xs   : Bound
  xe   : Bound
  ys   : Bound
  ye   : Bound
  col  : Bound
  row  : Bound
  mode : SinkMode
  args : List Byte
  pm   : List (Nat × Pixel)
  deriving DecidableEq, Repr

/-- The state of the machine: the block's registers, its constant configuration, the framebuffer lent to
it, the ghost state of the spec, and the inputs of the outside. `E` is the type of transport errors, a
parameter (R15, D32): no definition looks into a value of it. -/
structure State.Over (E : Type) where
  /-- The constants given at construction (R37); no operation changes them. -/
  cfg : Cfg
  /-- R21, R22, R23: the line latches. -/
  cs  : Latch
  dc  : Latch
  rst : Latch
  /-- R25. -/
  busy : Bool
  op   : Op
  /-- R24: the sequencer position. -/
  upc : Nat
  /-- R26: the call issued and not yet answered. -/
  pending : Option MicroOp
  /-- R35: the first error of a failing DRAW. -/
  ferr : Option E
  /-- R36: the index of the next pixel to be read. -/
  pix : Nat
  /-- R40, R41: the framebuffer lent for the running DRAW; empty while nothing is lent (R20, R205). -/
  fb : List Pixel
  /-- R30, ghost: the events so far, oldest first. -/
  trace : List (Event E)
  /-- R31, ghost. -/
  ctrl : Ctrl
  /-- R32, ghost: the controller. -/
  ctl : Controller
  /-- R30, ghost: requests and results so far, oldest first. -/
  hostLog : List (HostEvent E)
  /-- INPUT: the requests the host will make, next first. -/
  host : List HostRequest
  /-- INPUT: the replies the transport will give, next first; none left means it never answers. -/
  transport : List (Reply E)
  /-- INPUT: the replies the timing source will give, next first; none left means it never answers. -/
  timing : List Tick
  /-- How many free values were drawn so far (the model's own). -/
  fresh : Nat
  deriving DecidableEq, Repr

/-- The state at the error type the machine is run with (entry 3). -/
abbrev State := State.Over BusError

/-- No step of LCDSEQ stops the machine with a fault: its one fault, `BusFault(e)`, ends the operation
with a result and the block goes on (R158, R161, R166, R169). So there is no constructor. -/
inductive Fault where
  deriving DecidableEq, Repr

/-- Why a request, a command or a construction is refused. -/
inductive Refusal where
  /-- Raised by an arm of exec whose instruction has no meaning yet; safe. -/
  | notModelled (mnemonic : String)
  /-- Raised by INIT and DRAW while an operation runs: the host port has no move then (R73, D20); safe. -/
  | requestWhileBusy
  /-- Raised by the step on a request code other than 0x01 and 0x02 (R78, K19): refused by name, no call,
  no state change; safe. -/
  | illegalRequest (code : Byte)
  /-- Raised by a wire command when no operation is running: LCDSEQ sends commands only inside INIT and
  DRAW, and the host has no request for one (R73, R75, R114); safe. -/
  | noOperation
  /-- Raised by a wire command while a call is outstanding: no later micro-operation is issued then
  (R26); safe. -/
  | callOutstanding
  /-- Raised by CASET and RASET with bounds outside the range of R112, R113 (R116, K18: refused, never
  computed with); safe. -/
  | windowOutOfRange
  /-- Raised by construction with a configuration that breaks R7 or R8 (R186, K17): no block exists; safe. -/
  | badConfiguration
  deriving DecidableEq, Repr

/-- The controller at construction: "unspecified" (R37). The registers are zero: DESIGN CHOICE (unsafe,
entry 8); no cell of the pixel memory has a value. -/
def Controller.atConstruction : Controller where
  xs := 0
  xe := 0
  ys := 0
  ye := 0
  col := 0
  row := 0
  mode := .idle
  args := []
  pm := []

/-- R37: the state at construction with a configuration. Construction issues no call (R184). `op`, `upc`
and `pix` have no meaning while idle: DESIGN CHOICE (unsafe, entry 7). -/
def State.constructed {E : Type} (c : Cfg) : State.Over E where
  cfg := c
  cs := .u
  dc := .u
  rst := .u
  busy := false
  op := .init
  upc := 0
  pending := none
  ferr := none
  pix := 0
  fb := []
  trace := []
  ctrl := .unknown
  ctl := Controller.atConstruction
  hostLog := []
  host := []
  transport := []
  timing := []
  fresh := 0

/-- The machine right after reset: construction of the reference instantiation (R9, R37). -/
def State.reset : State := State.constructed Cfg.ref

end Sys2Proof.Machine
end

