-- ==== Sys2Proof/Machine/Flags.lean ====
section
/-! DEFINITION. LCDSEQ has no condition flags (R29). What it has in their place: the value a latch takes
when its line is set (R21 to R23), the tag a byte gets from the latches (R63), and the codes of the
results (R74). -/

namespace Sys2Proof.Machine

variable {E : Type}

/-- The latch value of a known level. -/
def ofLevel : Level → Latch
  | .high => .high
  | .low => .low

/-- R21: after a set answered `Ok` the latch is the level set, after `Err` it is `U` (D17). -/
def latchAfter (level : Level) : Answer E → Latch
  | .ok => ofLevel level
  | .err _ => .u

/-- R63: the tag of a byte sent with these latches: none unless chip-select is asserted and the selector
is at a known level. -/
def tagOf (c : Cfg) (cs dc : Latch) : Option Tag :=
  if cs = ofLevel c.csAssert then
    if dc = ofLevel c.dcCmd then some .c
    else if dc = ofLevel (invert c.dcCmd) then some .d
    else none
  else none

/-- R74: the numeric code of a result. -/
def resultCode : Result E → Nat
  | .ok => 0
  | .initErr _ => 1
  | .drawErr _ => 2
  | .lenErr => 3

/-- R74: the payload of a result, the failing call's error unchanged. -/
def resultPayload : Result E → Option E
  | .ok => none
  | .initErr e => some e
  | .drawErr e => some e
  | .lenErr => none

end Sys2Proof.Machine
end

