-- ==== Sys2Proof/Machine/Sink.lean ====
section
/-! DEFINITION. Ghost: the controller as a sink (20_memory.md R51 to R57): its pixel memory, its window
registers, its write pointer. The mechanics are from general knowledge, as the spec says (R55, R56, K7;
PRESUMED, entry 8). -/

namespace Sys2Proof.Machine

/-- The key of a cell of PM: row-major over the native area of 240 columns (R51). -/
def pmKey (col row : Nat) : Nat := row * Cfg.pw + col

/-- Canonical form of the pixel memory: keys strictly rising and inside the native area (R51). -/
def pmWf : List (Nat × Pixel) → Bool
  | [] => true
  | [(a, _)] => decide (a < Cfg.pw * Cfg.ph)
  | (a, _) :: (b, p) :: rest => decide (a < b) && pmWf ((b, p) :: rest)

/-- What a cell holds: none where the spec gives it no value (R37, R57). -/
def pmRead : List (Nat × Pixel) → Nat → Option Pixel
  | [], _ => none
  | (a, p) :: rest, k => if a = k then some p else pmRead rest k

/-- Store a pixel in a cell, keeping the canonical form. -/
def pmWrite : List (Nat × Pixel) → Nat → Pixel → List (Nat × Pixel)
  | [], k, p => [(k, p)]
  | (a, q) :: rest, k, p =>
    if k < a then (k, p) :: (a, q) :: rest
    else if k = a then (k, p) :: rest
    else (a, q) :: pmWrite rest k p

/-- R57: the cell at a key lies in the window every DRAW sends. -/
def inWindow (c : Cfg) (k : Nat) : Bool :=
  decide (c.cOff ≤ k % Cfg.pw) && decide (k % Cfg.pw < c.cOff + c.w) &&
    decide (c.rOff ≤ k / Cfg.pw) && decide (k / Cfg.pw < c.rOff + c.h)

/-- R56: the spec gives the sink model only for the default scan order. -/
def scanGiven (c : Cfg) : Bool := decide (c.madctlParam = 0x00)

/-- The configurations for which the contents of PM are claimed: the sink model is given (R56), and the three
window opcodes differ, since D2 lets them be equal and the spec does not say which pixels are stored then
(entry 12). -/
def sinkGiven (c : Cfg) : Bool :=
  scanGiven c && decide (c.opCaset ≠ c.opRaset) && decide (c.opCaset ≠ c.opRamwr) &&
    decide (c.opRaset ≠ c.opRamwr)

/-- No cell has a value where PM is not claimed (entry 12). -/
def claimedPm (c : Cfg) (k : Controller) : Controller := if sinkGiven c then k else { k with pm := [] }

/-- R57, K10: after a failed DRAW no cell of the window has a value the spec gives. -/
def forgetWindow (c : Cfg) (k : Controller) : Controller :=
  { k with pm := k.pm.filter fun cell => !inWindow c cell.1 }

/-- R56: the pointer after a pixel: the next column, and after column XE back to XS of the next row. -/
def advancePointer (k : Controller) : Controller :=
  if k.col = k.xe then { k with col := k.xs, row := k.row + 1 } else { k with col := k.col + 1 }

/-- R56: store one pixel at the pointer and advance it. A pointer outside the native area stores nothing
(DESIGN CHOICE, entry 26). -/
def storePixel (p : Pixel) (k : Controller) : Controller :=
  if k.col.toNat < Cfg.pw ∧ k.row.toNat < Cfg.ph then
    advancePointer { k with pm := pmWrite k.pm (pmKey k.col.toNat k.row.toNat) p }
  else advancePointer k

/-- What a byte of a command that is several of the three may have changed: the columns if it may be CASET,
the rows if RASET, the pointer if RAMWR, each then a free value, numbered from `n`; the other registers stay
(DESIGN CHOICE, safe, entry 12). -/
def unsettle (column row pixels : Bool) (n : Nat) (k : Controller) : Controller :=
  { k with
    xs := if column then Config.freeBound n else k.xs
    xe := if column then Config.freeBound (n + 1) else k.xe
    ys := if row then Config.freeBound (n + 2) else k.ys
    ye := if row then Config.freeBound (n + 3) else k.ye
    col := if pixels then Config.freeBound (n + 4) else k.col
    row := if pixels then Config.freeBound (n + 5) else k.row }

/-- R55, R56: a command byte. It starts a new command, whatever was being received (K26, PRESUMED, entry
13). RAMWR sets the write pointer to (XS, YS). A byte that is several of the three opcodes (D2) is none of
them in particular (entry 12). -/
def sinkCommand (c : Cfg) (n : Nat) (op : Byte) (k : Controller) : Controller :=
  match decide (op = c.opCaset), decide (op = c.opRaset), decide (op = c.opRamwr) with
  | true, false, false => { k with mode := .column, args := [] }
  | false, true, false => { k with mode := .row, args := [] }
  | false, false, true => { k with mode := .pixels, args := [], col := k.xs, row := k.ys }
  | false, false, false => { k with mode := .other, args := [] }
  | column, row, pixels =>
    { unsettle column row pixels n k with mode := .several column row pixels, args := [] }

/-- R55, R56: a data byte: the fourth after CASET or RASET sets the window registers, every second after
RAMWR stores a pixel. DESIGN CHOICE (safe, entry 28): up to the fourth byte the registers hold the old
window, but a list cut short by an aborted operation leaves them at free values (K13, `commandCut`). -/
def sinkData (n : Nat) (b : Byte) (k : Controller) : Controller :=
  match k.mode, k.args with
  | .column, [b0, b1, b2] =>
    { k with xs := ofBytes b0 b1, xe := ofBytes b2 b, mode := .other, args := [] }
  | .column, args => { k with args := args ++ [b] }
  | .row, [b0, b1, b2] =>
    { k with ys := ofBytes b0 b1, ye := ofBytes b2 b, mode := .other, args := [] }
  | .row, args => { k with args := args ++ [b] }
  | .pixels, [] => { k with args := [b] }
  | .pixels, hi :: _ => storePixel (ofBytes hi b) { k with args := [] }
  | .idle, _ => k
  | .other, _ => k
  | .several column row pixels, _ => unsettle column row pixels n k

/-- One byte with its tag, at the controller; `n` numbers the free values of its write. -/
def sinkByte (c : Cfg) (n : Nat) (t : Tag) (k : Controller) (b : Byte) : Controller :=
  match t with
  | .c => sinkCommand c n b k
  | .d => sinkData n b k

/-- R58: the bytes of one write reach the controller in list order. -/
def sinkBytes (c : Cfg) (n : Nat) (t : Tag) (bytes : List Byte) (k : Controller) : Controller :=
  bytes.foldl (sinkByte c n t) k

/-- K13, K14: a controller of which the source gives nothing. Its registers, its pointer, the command it
is in the middle of and the bytes of it that it holds are free values, numbered from `n`; no cell of its
memory has a value (entry 11). -/
def scrambled (n : Nat) : Controller where
  xs := Config.freeBound n
  xe := Config.freeBound (n + 1)
  ys := Config.freeBound (n + 2)
  ye := Config.freeBound (n + 3)
  col := Config.freeBound (n + 4)
  row := Config.freeBound (n + 5)
  mode := Config.freeMode n
  args := Config.freeBytes n
  pm := []

/-- The first `upc` calls of a DRAW as the controller has taken them: the window's columns after CASET's
bounds, its rows after RASET's, the pointer at its first cell when the pixels are to come (R55, R56, R117). -/
abbrev windowSent (c : Cfg) (upc : Nat) (k : Controller) : Prop :=
  (3 ≤ upc ∧ upc ≤ 4 → k.mode = .column ∧ k.args = []) ∧
  (5 ≤ upc → k.xs.toNat = c.cOff ∧ k.xe.toNat = c.cOff + c.w - 1) ∧
  (9 ≤ upc ∧ upc ≤ 10 → k.mode = .row ∧ k.args = []) ∧
  (11 ≤ upc → k.ys.toNat = c.rOff ∧ k.ye.toNat = c.rOff + c.h - 1) ∧
  (15 ≤ upc ∧ upc ≤ 16 → k.mode = .pixels ∧ k.args = [] ∧ k.col = k.xs ∧ k.row = k.ys)

end Sys2Proof.Machine
end

