-- ==== Sys2Proof/Machine/Ops.lean ====
section
/-! DEFINITION. The named operations over the state: setting a latch, the effects of an answered call
(R90 to R97), the end of an operation (R206), taking a `BusFault` (R163 to R166) and its clean-up (R150),
acceptance of a request (R73), and the three parts of the executor, ISSUE, ANSWER and FINISH (R99). -/

namespace Sys2Proof.Machine

variable {E : Type}

/-- R21 to R23: the latch of a line. -/
def readLine (s : State.Over E) : Line → Latch
  | .cs => s.cs
  | .dc => s.dc
  | .rst => s.rst

/-- R21 to R23: write the latch of a line. -/
def writeLine (s : State.Over E) (v : Latch) : Line → State.Over E
  | .cs => { s with cs := v }
  | .dc => { s with dc := v }
  | .rst => { s with rst := v }

/-- R99: append the event of an answered call to the trace. -/
def appendEvent (ev : Event E) (s : State.Over E) : State.Over E := { s with trace := s.trace ++ [ev] }

/-- R56, R153, K13, K14: the spec gives the sink model only for a DRAW, with the controller READY, in the
default scan order. -/
def sinkRuns (s : State.Over E) : Bool :=
  decide (s.ctrl = .ready) && decide (s.op = .draw) && scanGiven s.cfg

/-- R57: and PM is claimed of it where the three window opcodes differ (D2, entry 12). -/
def controllerKnown (s : State.Over E) : Bool :=
  decide (s.ctrl = .ready) && decide (s.op = .draw) && sinkGiven s.cfg

/-- K13, K14: the controller at any value, nothing of its memory known (entry 11). -/
def controllerUnknown (s : State.Over E) : State.Over E := { s with ctl := scrambled s.fresh, fresh := s.fresh + 6 }

/-- R57, K10: a DRAW went wrong: no cell of the window has a value the spec gives; every cell outside it,
the window registers and the write pointer are as they were. -/
def windowLost (s : State.Over E) : State.Over E := { s with ctl := forgetWindow s.cfg s.ctl }

/-- K13: a controller left in the middle of a command or parameter list: its registers, its pointer and what
it is receiving at any value; its memory as it was (K10; entry 28). -/
def commandCut (s : State.Over E) : State.Over E :=
  { s with ctl := { scrambled s.fresh with pm := s.ctl.pm }, fresh := s.fresh + 6 }

/-- What a set that was answered does to the controller: nothing where the spec gives the sink model, and
anything elsewhere, the hardware reset and the commands of INIT among it (K13, K14, K24; entry 11). -/
def controllerReacts (s : State.Over E) : State.Over E := if sinkRuns s then s else controllerUnknown s

/-- R39, R55, R56: the bytes that reached the controller, at the latches the lines hold. Where the spec
does not give what the controller does with them (R153, K13, K24), or the latches have no level, it is
left at any value (entry 11). Free values are drawn for a byte that is several opcodes (entry 12). -/
def deliver (bytes : List Byte) (s : State.Over E) : State.Over E :=
  if sinkRuns s then
    match tagOf s.cfg s.cs s.dc with
    | some t =>
      { s with ctl := claimedPm s.cfg (sinkBytes s.cfg s.fresh t bytes s.ctl),
               fresh := if sinkGiven s.cfg then s.fresh else s.fresh + 6 }
    | none => controllerUnknown s
  else controllerUnknown s

/-- R146, R147: the pixel payload of DRAW is the write at index 16. -/
def isPayload (s : State.Over E) : Bool := decide (s.op = .draw) && decide (s.upc = payloadIndex)

/-- R47: when the payload write answers `Ok` every pixel has been read. -/
def allRead (s : State.Over E) : State.Over E := if isPayload s then { s with pix := s.cfg.w * s.cfg.h } else s

/-- R47, R148: while the payload write is unanswered the next pixel is read. -/
def readAhead (s : State.Over E) : State.Over E :=
  if isPayload s ∧ s.pix < s.cfg.w * s.cfg.h then { s with pix := s.pix + 1 } else s

/-- R47: a payload write that fails has read at least the pixels whose bytes were delivered. -/
def readDelivered (sent : Nat) (s : State.Over E) : State.Over E :=
  if isPayload s then { s with pix := max s.pix ((min sent (2 * (s.cfg.w * s.cfg.h)) + 1) / 2) } else s

/-- R90 to R95: a line set answered. -/
def lineAnswered (line : Line) (level : Level) (ans : Answer E) (s : State.Over E) : State.Over E :=
  writeLine (appendEvent (.set line level ans) (controllerReacts s)) (latchAfter level ans) line

/-- R96: a write answered `Ok`: all its bytes have reached the controller. -/
def writeDone (bytes : List Byte) (s : State.Over E) : State.Over E :=
  allRead (deliver bytes (appendEvent (.write bytes .ok) s))

/-- R96, R39: a write answered `Err(e)`: the first `sent` bytes have reached the controller. -/
def writeFailed (bytes : List Byte) (e : E) (sent : Nat) (s : State.Over E) : State.Over E :=
  readDelivered sent (deliver (bytes.take sent) (appendEvent (.write bytes (.err e)) s))

/-- The effects of a micro-operation answered `Ok` or `done` (R90 to R97), `pending` cleared (R99). -/
def effectOk (m : MicroOp) (s : State.Over E) : State.Over E :=
  match callOf s.cfg m with
  | .sigSet line level => lineAnswered line level .ok { s with pending := none }
  | .busWrite bytes => writeDone bytes { s with pending := none }
  | .delay ms => appendEvent (.delay ms) { s with pending := none }

/-- R147: the calls of DRAW_PROG that write the opcodes of CASET, RASET and RAMWR; the set of the selector
after each and then the write of its data follow. -/
def opcodeCalls : List Nat := [2, 8, 14]

/-- K13: a call of DRAW that fails leaves the controller in the middle of a command: its opcode was
delivered, and not all of its data (R39, R112 to R114, R147). -/
def cutsShort (m : MicroOp) (sent : Nat) (s : State.Over E) : Bool :=
  match callOf s.cfg m with
  | .sigSet _ _ => decide (s.upc ∈ opcodeCalls.map (· + 1))
  | .busWrite bytes => if s.upc ∈ opcodeCalls then decide (0 < sent) else decide (sent < bytes.length)
  | .delay _ => false

/-- K13: after the failed call `m`, the controller at any value if it is left in the middle of a command, and
as R55 and R56 say if not. -/
def abandon (m : MicroOp) (sent : Nat) (s : State.Over E) : State.Over E :=
  if sinkRuns s && cutsShort m sent s then commandCut s else s

/-- The effects of a fallible micro-operation answered `Err(e)` (R90 to R96), `pending` cleared (R163). -/
def effectErr (m : MicroOp) (e : E) (sent : Nat) (s : State.Over E) : State.Over E :=
  abandon m sent
    (match callOf s.cfg m with
    | .sigSet line level => lineAnswered line level (.err e) { s with pending := none }
    | .busWrite bytes => writeFailed bytes e sent { s with pending := none }
    | .delay ms => appendEvent (.delay ms) { s with pending := none })

/-- What the outside did about an outstanding call: nothing yet, `Ok` or `done`, or `Err(e)` (R98). -/
inductive Answered (E : Type) where
  | waiting (s : State.Over E)
  | ok (s : State.Over E)
  | err (e : E) (s : State.Over E)
  deriving DecidableEq, Repr

/-- ANSWER of a delay, R97: only the timing source answers, and only `done`. -/
def answerDelay (m : MicroOp) (s : State.Over E) : Answered E :=
  match s.timing with
  | [] => .waiting s
  | .silent :: ts => .waiting { s with timing := ts }
  | .done :: ts => .ok (effectOk m { s with timing := ts })

/-- ANSWER of a line set or a write, R98: the transport answers, freely. -/
def answerTransport (m : MicroOp) (s : State.Over E) : Answered E :=
  match s.transport with
  | [] => .waiting s
  | .silent :: rs => .waiting (readAhead { s with transport := rs })
  | .ok :: rs => .ok (effectOk m { s with transport := rs })
  | .err e sent :: rs => .err e (effectErr m e sent { s with transport := rs })

/-- ANSWER, R99: the event appended, the latch updated, `pending` cleared. With no answer the call stays
outstanding, for ever if none comes (R26, R170). -/
def answer (m : MicroOp) (s : State.Over E) : Answered E :=
  if fallible m then answerTransport m s else answerDelay m s

/-- ISSUE, R99: the call goes out. -/
def issue (m : MicroOp) (s : State.Over E) : State.Over E := { s with pending := some m }

/-- R99: after `Ok` or `done` the sequencer moves on by one. -/
def advance (s : State.Over E) : State.Over E := { s with upc := s.upc + 1 }

/-- R206, R74: deliver the result and return to idle; the block keeps nothing of the operation (R20,
R166), and the framebuffer goes back to the host (R205). -/
def respond (r : Result E) (s : State.Over E) : State.Over E :=
  { s with busy := false, pending := none, ferr := none, fb := [],
           hostLog := s.hostLog ++ [.res r s.trace.length] }

/-- R73, R135, R144: acceptance of a request. `pix` starts at 0 for a DRAW (R36, R47); an INIT is about
to reset the controller (entry 11). -/
def accept (op : Op) (fb : List Pixel) (s : State.Over E) : State.Over E :=
  let s' := { s with busy := true, op := op, upc := 0, ferr := none, fb := fb,
                     hostLog := s.hostLog ++ [.req op s.trace.length] }
  match op with
  | .init => controllerUnknown s'
  | .draw => { s' with pix := 0 }

/-- R99, R135, R144, FINISH: every call answered `Ok` or `done`. INIT leaves the controller READY (R31). -/
def finish (s : State.Over E) : State.Over E :=
  match s.op with
  | .init => respond .ok (controllerUnknown { s with ctrl := .ready })
  | .draw => respond .ok s

/-- R143, R159: the length check failed: the result, and nothing else. -/
def rejectLength (s : State.Over E) : State.Over E :=
  { s with hostLog := s.hostLog ++ [.req .draw s.trace.length, .res .lenErr s.trace.length] }

/-- TAKING THE FAULT `BusFault(e)` (R163): during INIT the sequence ends (R164); during DRAW the first
error is latched and the sequencer jumps to the clean-up, unless the failing call was the last release
itself (R165). -/
def takeBusFault (e : E) (s : State.Over E) : State.Over E :=
  match s.op with
  | .init => respond (.initErr e) (controllerUnknown { s with ctrl := .indeterminate })
  | .draw =>
    if s.upc < cleanupIndex then { windowLost s with ferr := some e, upc := cleanupIndex }
    else respond (.drawErr e) (windowLost s)

/-- RETURN FROM THE FAULT of a DRAW, R150, R165: the clean-up `CS_R` was answered, whatever the answer;
the first error is the result. The window of PM is unspecified (R57). -/
def endCleanup (first : E) (s : State.Over E) : State.Over E :=
  respond (.drawErr first) (windowLost s)

end Sys2Proof.Machine
end

