-- ==== Sys2Proof/Machine/Executor.lean ====
section
/-! DEFINITION. The executor (40_command_protocol.md R18, R99): running a list of micro-operations, each
completed before the next is issued, up to the first failure or to a call that is not answered. -/

namespace Sys2Proof.Machine

variable {E : Type}

/-- What running a list came to: every element completed and the operation goes on, or it stopped,
waiting for an answer or ended by a fault. -/
inductive Progress (E : Type) where
  | going (s : State.Over E)
  | stopped (s : State.Over E)
  deriving DecidableEq, Repr

/-- The state a run came to. -/
def Progress.state : Progress E → State.Over E
  | .going s => s
  | .stopped s => s

/-- R165: the operation is a DRAW in its clean-up, with this first error. -/
def cleaning (s : State.Over E) : Option E :=
  match s.op with
  | .init => none
  | .draw => s.ferr

/-- The answer to the clean-up `CS_R`: any answer ends the operation with the first error (R150, R165). -/
def completeCleanup (first : E) (m : MicroOp) (s : State.Over E) : State.Over E :=
  match answer m s with
  | .waiting s' => s'
  | .ok s' => endCleanup first s'
  | .err _ s' => endCleanup first s'

/-- After a fault was taken: in a DRAW that is to clean up, exactly one `CS_R` is issued (R150). -/
def afterFault (s : State.Over E) : State.Over E :=
  match s.busy, cleaning s with
  | true, some first => completeCleanup first .csR (issue .csR s)
  | true, none => s
  | false, _ => s

/-- R99: the answer to the outstanding call `m` and what follows from it. -/
def complete (m : MicroOp) (s : State.Over E) : Progress E :=
  match cleaning s with
  | some first => .stopped (completeCleanup first m s)
  | none =>
    match answer m s with
    | .waiting s' => .stopped s'
    | .ok s' => .going (advance s')
    | .err e s' => .stopped (afterFault (takeBusFault e s'))

/-- One call: ISSUE, then ANSWER (R99). -/
def call (m : MicroOp) (s : State.Over E) : Progress E := complete m (issue m s)

/-- R18, R99: run a list, stop at the first failure. -/
def runOps : List MicroOp → State.Over E → Progress E
  | [], s => .going s
  | m :: ms, s =>
    match call m s with
    | .going s' => runOps ms s'
    | .stopped s' => .stopped s'

/-- FINISH once every element has completed (R99). -/
def finishRun : Progress E → State.Over E
  | .going s => finish s
  | .stopped s => s

/-- R25: the program of the running operation. -/
def prog (s : State.Over E) : List MicroOp :=
  match s.op with
  | .init => initProg s.cfg
  | .draw => drawProg s.cfg s.fb

/-- R99: go on with the running operation from where it is: the outstanding call first, then the rest of
its program, then the end. -/
def continueOp (s : State.Over E) : State.Over E :=
  match s.pending with
  | none => finishRun (runOps ((prog s).drop s.upc) s)
  | some m =>
    match complete m s with
    | .stopped s' => s'
    | .going s' => finishRun (runOps ((prog s').drop s'.upc) s')

/-- R99 as the spec writes it: ONE step of the executor, ISSUE, ANSWER or FINISH. `stopped` is: no such
step is enabled now (idle, or the answer has not come). -/
def executorStep (s : State.Over E) : Progress E :=
  if s.busy then
    match s.pending with
    | none =>
      match (prog s)[s.upc]? with
      | some m => .going (issue m s)
      | none => .going (finish s)
    | some m =>
      match answer m s with
      | .waiting s' => .stopped s'
      | .ok s' =>
        match cleaning s with
        | some first => .going (endCleanup first s')
        | none => .going (advance s')
      | .err e s' =>
        match cleaning s with
        | some first => .going (endCleanup first s')
        | none => .going (takeBusFault e s')
  else .stopped s

/-- Steps of the executor, until none is enabled or the fuel is used up. -/
def executorRun : Nat → State.Over E → State.Over E
  | 0, s => s
  | n + 1, s =>
    match executorStep s with
    | .going s' => executorRun n s'
    | .stopped s' => s'

/-- A wire command run by the operation in progress: its list, on the executor. Outside an operation
LCDSEQ sends no command (R73), and with a call outstanding it issues none (R26). -/
def runCommand (ops : List MicroOp) (s : State.Over E) : Host.Outcome (State.Over E) Fault Refusal :=
  if s.busy then
    match s.pending with
    | none => .next (runOps ops s).state
    | some _ => .refused .callOutstanding
  else .refused .noOperation

end Sys2Proof.Machine
end

