-- ==== Sys2Proof/Machine/Commands.lean ====
section
/-! DEFINITION. The wire commands of INIT (R125 to R130) and of SET_WINDOW (R112 to R114), each run by
the operation in progress. -/

namespace Sys2Proof.Machine

variable {E : Type}

/-- SWRESET, R125: `GROUP(OP_SWRESET, [], T_SWRESET)`. -/
def execSwreset (s : State.Over E) : Host.Outcome (State.Over E) Fault Refusal := runCommand (swresetOps s.cfg) s

/-- SLPOUT, R126: `GROUP(OP_SLPOUT, [], T_SLPOUT)`. -/
def execSlpout (s : State.Over E) : Host.Outcome (State.Over E) Fault Refusal := runCommand (slpoutOps s.cfg) s

/-- COLMOD, R127: `GROUP(OP_COLMOD, [COLMOD_PARAM], 0)`. -/
def execColmod (s : State.Over E) : Host.Outcome (State.Over E) Fault Refusal := runCommand (colmodOps s.cfg) s

/-- MADCTL, R128: `GROUP(OP_MADCTL, [MADCTL_PARAM], 0)`. -/
def execMadctl (s : State.Over E) : Host.Outcome (State.Over E) Fault Refusal := runCommand (madctlOps s.cfg) s

/-- DISPON, R130: `GROUP(OP_DISPON, [], 0)`. -/
def execDispon (s : State.Over E) : Host.Outcome (State.Over E) Fault Refusal := runCommand (disponOps s.cfg) s

/-- TUNING, R129: `GROUP(op, params, post_delay)` of one entry. -/
def execTuning (op : Byte) (params : List Byte) (postDelay : Nat) (s : State.Over E) :
    Host.Outcome (State.Over E) Fault Refusal :=
  runCommand (tuningOps op params postDelay) s

/-- CASET, R112: `GROUP(OP_CASET, be16(xs) ++ be16(xe), 0)`, bounds in range (R116, K18). -/
def execCaset (xs xe : Bound) (s : State.Over E) : Host.Outcome (State.Over E) Fault Refusal :=
  if columnsOk xs xe then runCommand (casetOps s.cfg xs xe) s else .refused .windowOutOfRange

/-- RASET, R113: `GROUP(OP_RASET, be16(ys) ++ be16(ye), 0)`, bounds in range (R116, K18). -/
def execRaset (ys ye : Bound) (s : State.Over E) : Host.Outcome (State.Over E) Fault Refusal :=
  if rowsOk ys ye then runCommand (rasetOps s.cfg ys ye) s else .refused .windowOutOfRange

/-- RAMWR, R114: `SEND_COMMAND(OP_RAMWR)`, the group left open for the payload. -/
def execRamwr (s : State.Over E) : Host.Outcome (State.Over E) Fault Refusal := runCommand (ramwrOps s.cfg) s

end Sys2Proof.Machine
end

