-- ==== Sys2Proof/Machine/Requests.lean ====
section
/-! DEFINITION. The two host operations (42_init_sequencer.md R135, 43_frame_transfer.md R144) and
construction (R184, R186). -/

namespace Sys2Proof.Machine

variable {E : Type}

/-- R186: construction; a configuration that breaks its invariant makes no block. -/
def construct (c : Cfg) : Host.Outcome (State.Over E) Fault Refusal :=
  if c.valid then .next (State.constructed c) else .refused .badConfiguration

/-- INIT, R135: accepted when idle; INIT_PROG by the executor; OK or the first error. -/
def execInit (s : State.Over E) : Host.Outcome (State.Over E) Fault Refusal :=
  if s.busy then .refused .requestWhileBusy
  else .next (finishRun (runOps (initProg s.cfg) (accept .init [] s)))

/-- DRAW, R144: the length check first (R143, R162); then DRAW_PROG by the executor. -/
def execDraw (fb : List Pixel) (len : Nat) (s : State.Over E) : Host.Outcome (State.Over E) Fault Refusal :=
  if s.busy then .refused .requestWhileBusy
  else if len ≠ s.cfg.w * s.cfg.h then .next (rejectLength s)
  else .next (finishRun (runOps (drawProg s.cfg fb) (accept .draw fb s)))

end Sys2Proof.Machine
end

