-- ==== Sys2Proof/Machine/Dispatch.lean ====
section
/-! DEFINITION. The dispatch: one arm per row of spec/opcode_table.json. -/

namespace Sys2Proof.Machine

def exec (i : Instr) (s : State) : Host.Outcome State Fault Refusal :=
  match i with
  -- host requests
  | .init => Sys2Proof.Machine.execInit s
  | .draw fb len => Sys2Proof.Machine.execDraw fb len s
  -- commands of INIT
  | .swreset => Sys2Proof.Machine.execSwreset s
  | .slpout => Sys2Proof.Machine.execSlpout s
  | .colmod => Sys2Proof.Machine.execColmod s
  | .madctl => Sys2Proof.Machine.execMadctl s
  | .dispon => Sys2Proof.Machine.execDispon s
  -- commands of DRAW
  | .caset xs xe => Sys2Proof.Machine.execCaset xs xe s
  | .raset ys ye => Sys2Proof.Machine.execRaset ys ye s
  | .ramwr => Sys2Proof.Machine.execRamwr s
  -- tuning entries
  | .tuning op params postDelay => Sys2Proof.Machine.execTuning op params postDelay s

end Sys2Proof.Machine
end

