-- ==== Sys2Proof/Machine/Fetch.lean ====
section
/-! DEFINITION. Which instruction the next step runs: the host's next request while the block is idle
(R73, R206), or the wire command the running operation has come to (R134, R147); and placing an
instruction there. -/

namespace Sys2Proof.Machine

variable {E : Type}

/-- The wire commands of INIT, in the order of TAB (R133). -/
def initCommands (c : Cfg) : List Instr :=
  [.swreset, .slpout, .colmod, .madctl] ++ c.tuning.map (fun e => .tuning e.op e.params e.postDelay) ++
    [.dispon]

/-- The wire commands of DRAW (R111, R117): CASET, RASET, RAMWR of the full window. -/
def drawCommands (c : Cfg) : List Instr :=
  [.caset (toBound (physColumn c 0)) (toBound (physColumn c (c.w - 1))),
    .raset (toBound (physRow c 0)) (toBound (physRow c (c.h - 1))), .ramwr]

/-- The list of a wire command; a host request has none of its own. -/
def commandOps (c : Cfg) : Instr → List MicroOp
  | .init => []
  | .draw _ _ => []
  | .swreset => swresetOps c
  | .slpout => slpoutOps c
  | .colmod => colmodOps c
  | .madctl => madctlOps c
  | .dispon => disponOps c
  | .caset xs xe => casetOps c xs xe
  | .raset ys ye => rasetOps c ys ye
  | .ramwr => ramwrOps c
  | .tuning op params d => tuningOps op params d

/-- The command that begins `n` micro-operations into a sequence of commands, if one begins there. -/
def commandAt (c : Cfg) : List Instr → Nat → Option Instr
  | [], _ => none
  | i :: rest, n =>
    if n = 0 then some i
    else if n < (commandOps c i).length then none
    else commandAt c rest (n - (commandOps c i).length)

/-- How many micro-operations a sequence of commands takes up to the command `i`. -/
def startOf (c : Cfg) (i : Instr) : List Instr → Nat
  | [] => 0
  | j :: rest => if j = i then 0 else (commandOps c j).length + startOf c i rest

/-- Where the commands of INIT start: after the hardware reset (R134). -/
def initCommandsStart (c : Cfg) : Nat := (hwReset c).length

/-- The wire command that begins at the sequencer's position. -/
def currentCommand (s : State.Over E) : Option Instr :=
  match s.op with
  | .init =>
    if s.upc < initCommandsStart s.cfg then none
    else commandAt s.cfg (initCommands s.cfg) (s.upc - initCommandsStart s.cfg)
  | .draw => commandAt s.cfg (drawCommands s.cfg) s.upc

/-- What the next step does. -/
inductive Fetched where
  /-- Idle, and the host asks for nothing (R37). -/
  | nothing
  /-- Idle, and the host's request is this instruction; the requests after it follow. -/
  | request (i : Instr) (rest : List HostRequest)
  /-- Idle, and the host's request code is illegal (R78). -/
  | illegal (code : Byte)
  /-- Busy, at the start of this wire command. -/
  | command (i : Instr)
  /-- Busy elsewhere: inside a command, with a call outstanding, in HWRESET, the payload or the clean-up. -/
  | resume
  deriving DecidableEq, Repr

/-- R73, R99: what the next step does. -/
def fetch (s : State.Over E) : Fetched :=
  if s.busy then
    match s.pending, s.ferr, currentCommand s with
    | none, none, some i => .command i
    | none, none, none => .resume
    | none, some _, _ => .resume
    | some _, _, _ => .resume
  else
    match s.host with
    | [] => .nothing
    | r :: rest =>
      match decodeRequest r with
      | .ok i => .request i rest
      | .error _ => .illegal r.code

/-- The state in which the sequencer is about to run a command of INIT. -/
def atInitCommand (i : Instr) (s : State.Over E) : State.Over E :=
  { s with busy := true, op := .init, pending := none, ferr := none,
           upc := initCommandsStart s.cfg + startOf s.cfg i (initCommands s.cfg) }

/-- The state in which the sequencer is about to run a command of DRAW. -/
def atDrawCommand (i : Instr) (s : State.Over E) : State.Over E :=
  { s with busy := true, op := .draw, pending := none, ferr := none,
           upc := startOf s.cfg i (drawCommands s.cfg) }


/-- Put an instruction where the next step fetches (entry 18): a request at the idle host port; a command
of INIT or DRAW at the sequencer's position, with the configuration that makes it the one there. -/
def place (i : Instr) (s : State.Over E) : State.Over E :=
  match i with
  | .init => { s with busy := false, pending := none, ferr := none, host := ⟨0x01, [], 0⟩ :: s.host }
  | .draw fb len => { s with busy := false, pending := none, ferr := none, host := ⟨0x02, fb, len⟩ :: s.host }
  | .swreset => atInitCommand .swreset s
  | .slpout => atInitCommand .slpout s
  | .colmod => atInitCommand .colmod s
  | .madctl => atInitCommand .madctl s
  | .dispon => atInitCommand .dispon s
  | .tuning op params d =>
    atInitCommand (.tuning op params d) { s with cfg := { s.cfg with tuning := [⟨op, params, d⟩] } }
  | .caset xs xe =>
    atDrawCommand (.caset xs xe) { s with cfg := { s.cfg with w := xe.toNat - xs.toNat + 1, cOff := xs.toNat } }
  | .raset ys ye =>
    atDrawCommand (.raset ys ye) { s with cfg := { s.cfg with h := ye.toNat - ys.toNat + 1, rOff := ys.toNat } }
  | .ramwr => atDrawCommand .ramwr s

end Sys2Proof.Machine
end

