-- ==== Sys2Proof/Machine/Step.lean ====
section
/-! DEFINITION. One step of the machine: the instruction fetched, run. -/

namespace Sys2Proof.Machine

/-- One step (entry 6): while idle, the host's next request, taken off the port and run, or nothing while
the host asks for nothing; while busy, the wire command the sequencer has come to, or the running
operation gone on with. A step ends when its instruction is over or a call is not answered; a call that
is never answered leaves the state as it is for ever (R170). -/
def step (s : State) : Host.Outcome State Fault Refusal :=
  match fetch s with
  | .nothing => .next s
  | .request i rest => exec i { s with host := rest }
  | .illegal code => .refused (.illegalRequest code)
  | .command i => exec i s
  | .resume => .next (continueOp s)

/-- The state with a table row's word placed where the next step fetches (entry 18). -/
def State.withFetchWord (s : State) (nbits w : Nat) : State :=
  match decodeTableWord nbits w with
  | some i => place i s
  | none => s

end Sys2Proof.Machine
end

