-- ==== Sys2Proof/Machine/Wire.lean ====
section
/-! DEFINITION. The wire view of a trace (30_encoding.md R64): the trace reduced to tagged bytes and
group ends; and the latch a trace leaves (R21 to R23, R58). -/

namespace Sys2Proof.Machine

variable {E : Type}

/-- One item of a wire view. `prefixOf` is a failed write: an unknown prefix of these bytes, from none to
all (R39, K12). `undefinedWrite` is a write with no wire view (R64). -/
inductive WireItem where
  | byte (b : TaggedByte)
  | groupEnd
  | prefixOf (tag : Tag) (bytes : List Byte)
  | undefinedWrite
  deriving DecidableEq, Repr

/-- R81: the item of a command byte. -/
def commandItem (op : Byte) : WireItem := .byte ⟨.c, op⟩

/-- R81: the items of a list of data bytes. -/
def dataItems (bytes : List Byte) : List WireItem := bytes.map fun b => .byte ⟨.d, b⟩

/-- R64: what one write contributes, at the latches the lines hold. -/
def wireWrite (c : Cfg) (cs dc : Latch) (bytes : List Byte) (ans : Answer E) : List WireItem :=
  match tagOf c cs dc, ans with
  | some t, .ok => bytes.map fun b => .byte ⟨t, b⟩
  | some t, .err _ => [.prefixOf t bytes]
  | none, _ => [.undefinedWrite]

/-- R64: the marker of a release of chip-select that took effect. -/
def wireRelease (c : Cfg) (level : Level) : Answer E → List WireItem
  | .ok => if level = invert c.csAssert then [.groupEnd] else []
  | .err _ => []

/-- R64: walk the events, tracking the two latches. Delays and sets of the reset line contribute
nothing. -/
def wireFrom (c : Cfg) : Latch → Latch → List (Event E) → List WireItem
  | _, _, [] => []
  | _, dc, .set .cs level ans :: rest =>
    wireRelease c level ans ++ wireFrom c (latchAfter level ans) dc rest
  | cs, _, .set .dc level ans :: rest => wireFrom c cs (latchAfter level ans) rest
  | cs, dc, .set .rst _ _ :: rest => wireFrom c cs dc rest
  | cs, dc, .write bytes ans :: rest => wireWrite c cs dc bytes ans ++ wireFrom c cs dc rest
  | cs, dc, .delay _ :: rest => wireFrom c cs dc rest

/-- R64: the wire view of a whole trace; the latches are `U` at construction (R37). -/
def wire (c : Cfg) (events : List (Event E)) : List WireItem := wireFrom c .u .u events

/-- R21 to R23, R177: a line holds the last level set, `U` after a set that failed. -/
def latchOf (line : Line) : Latch → List (Event E) → Latch
  | v, [] => v
  | v, .set l level ans :: rest => latchOf line (if l = line then latchAfter level ans else v) rest
  | v, .write _ _ :: rest => latchOf line v rest
  | v, .delay _ :: rest => latchOf line v rest

/-- R39, K12, T57: the byte lists a failed write may have delivered. -/
def deliveredPrefixes (bytes : List Byte) : List (List Byte) := bytes.inits

end Sys2Proof.Machine
end

