-- ==== Sys2Proof/Machine/Listing.lean ====
section
/-! DEFINITION. The spec's textual forms (30_encoding.md R80, R81), as lists of characters: the
micro-operation listing and the wire-view listing. -/

namespace Sys2Proof.Machine

/-- One hexadecimal digit. -/
def hexDigit (n : Nat) : Char := (['0', '1', '2', '3', '4', '5', '6', '7', '8', '9', 'A', 'B', 'C', 'D', 'E', 'F'][n]?).getD '0'

/-- R80: a byte as two hexadecimal digits, without prefix. -/
def hexByte (b : Byte) : List Char := [hexDigit (b.toNat / 16), hexDigit (b.toNat % 16)]

/-- R80: one micro-operation. -/
def listingOf : MicroOp → List Char
  | .csA => ['C', 'S', '_', 'A']
  | .csR => ['C', 'S', '_', 'R']
  | .dcC => ['D', 'C', '_', 'C']
  | .dcD => ['D', 'C', '_', 'D']
  | .rstA => ['R', 'S', 'T', '_', 'A']
  | .rstR => ['R', 'S', 'T', '_', 'R']
  | .wr bytes => ['W', 'R'] ++ bytes.flatMap fun b => ' ' :: hexByte b
  | .wait ms => ['W', 'A', 'I', 'T', ' '] ++ Nat.toDigits 10 ms

/-- R80: a program, items separated by a semicolon. -/
def listing : List MicroOp → List Char
  | [] => []
  | [m] => listingOf m
  | m :: rest => listingOf m ++ [';', ' '] ++ listing rest

/-- R81: one item of a wire view; an unknown prefix has no listing of its own in the spec and is shown in
brackets. -/
def wireItemListing : WireItem → List Char
  | .byte ⟨.c, b⟩ => ['C', ':'] ++ hexByte b
  | .byte ⟨.d, b⟩ => ['D', ':'] ++ hexByte b
  | .groupEnd => ['|']
  | .prefixOf _ bytes => ['['] ++ bytes.flatMap hexByte ++ [']']
  | .undefinedWrite => ['?']

/-- R81: a wire view, items separated by a space. -/
def wireListing : List WireItem → List Char
  | [] => []
  | [i] => wireItemListing i
  | i :: rest => wireItemListing i ++ [' '] ++ wireListing rest

end Sys2Proof.Machine
end

