-- ==== Sys2Proof/Safety.lean ====
section
/-! DEFINITION. What claims speak of: the outside answering every call of a list, the framing discipline
of a program (40_command_protocol.md R106), and the invariant of the machine (10_state.md R38, and what
the executor adds to it). -/

namespace Sys2Proof.Machine

variable {E : Type}

/-- The outside answers `Ok` or `done` to every call of the list (the premise of R135, R144: "every call
answered Ok or done"). -/
abbrev AllAnswered (ops : List MicroOp) (s : State.Over E) : Prop :=
  s.transport.take (fallibleCount ops) = List.replicate (fallibleCount ops) .ok ∧
    s.timing.take (waitCount ops) = List.replicate (waitCount ops) .done

/-- The answer a reply of the transport gives, if it gives one (R98). -/
def replyAnswer : Reply E → Option (Answer E)
  | .silent => none
  | .ok => some .ok
  | .err e _ => some (.err e)

/-- Where a group stands: chip-select released; asserted and nothing written; asserted and the opcode
written. -/
inductive Phase where
  | closed
  | opened
  | named
  deriving DecidableEq, Repr

/-- R106 (a), (b), (d), (e) of a program: every write lies between a `CS_A` and the next `CS_R`; the first
is the opcode, with the selector at the command level, every other is data; no write is empty and no wait
is 0. `sel` is what the last set of the selector was. -/
def framing (ph : Phase) (sel : Option Tag) : List MicroOp → Bool
  | [] => decide (ph = .closed)
  | .csA :: rest => decide (ph = .closed) && framing .opened sel rest
  | .csR :: rest => decide (ph = .named) && framing .closed sel rest
  | .dcC :: rest => framing ph (some .c) rest
  | .dcD :: rest => framing ph (some .d) rest
  | .rstA :: rest => framing ph sel rest
  | .rstR :: rest => framing ph sel rest
  | .wait ms :: rest => decide (0 < ms) && framing ph sel rest
  | .wr bytes :: rest =>
    !bytes.isEmpty &&
      match ph with
      | .closed => false
      | .opened => decide (sel = some .c) && framing .named sel rest
      | .named => decide (sel = some .d) && framing .named sel rest

/-- R106 (c), (e) of what is left of a program, from latches `cs` and `dc`: every write will be issued
with chip-select asserted and the selector at a known level. -/
def writesMet (c : Cfg) (cs dc : Latch) : List MicroOp → Bool
  | [] => true
  | m :: rest =>
    match callOf c m with
    | .sigSet .cs level => writesMet c (ofLevel level) dc rest
    | .sigSet .dc level => writesMet c cs (ofLevel level) rest
    | .sigSet .rst _ => writesMet c cs dc rest
    | .busWrite bytes => !bytes.isEmpty && (tagOf c cs dc).isSome && writesMet c cs dc rest
    | .delay ms => decide (0 < ms) && writesMet c cs dc rest

/-- How many requests the host made so far. -/
def requestCount (log : List (HostEvent E)) : Nat :=
  log.countP fun | .req _ _ => true | .res _ _ => false

/-- How many results the host got so far. -/
def resultCount (log : List (HostEvent E)) : Nat :=
  log.countP fun | .req _ _ => false | .res _ _ => true

/-- R169: no fault so far: every result was OK. -/
def allOkSoFar (log : List (HostEvent E)) : Bool :=
  log.all fun
    | .req _ _ => true
    | .res .ok _ => true
    | .res (.initErr _) _ => false
    | .res (.drawErr _) _ => false
    | .res .lenErr _ => false

/-- The invariant of the machine: a configuration of LCDSEQ (R7, R8, R186), R38, the meaning of `upc` and
`pending` (R24, R26), the one place of the clean-up (R24, R165), the calls before `upc` as the last events,
each answered `Ok` or `done` (R18, R99), the latches as the trace leaves them (R21 to R23), R106 (c) of
what is left to run and of every write so far, the canonical form of the pixel memory, no value in it where
the spec claims nothing of it (R57), the window and the pointer of the sink as far as a running DRAW has
sent them (R117), one result per request (R206). `window` rests on the sink model (entries 8, 12, 13,
PRESUMED), `unclaimed` on entry 11, `memory` on entry 9, `idle` on entry 15, `results` on
entry 16. -/
structure Inv (s : State.Over E) : Prop where
  config : s.cfg.valid = true
  idle : s.busy = false → s.pending = none ∧ s.ferr = none ∧ s.fb = []
  initNoError : s.busy = true → s.op = .init → s.ferr = none
  cleanup : s.busy = true → s.ferr ≠ none → s.upc = cleanupIndex
  position : s.busy = true → s.upc ≤ (prog s).length
  outstanding : ∀ m, s.pending = some m → (prog s)[s.upc]? = some m
  answered : s.busy = true → s.ferr = none → ((prog s).take s.upc).map (okEvent s.cfg) <:+ s.trace
  framed : s.busy = true → s.ferr = none → writesMet s.cfg s.cs s.dc ((prog s).drop s.upc) = true
  latchCs : s.cs = latchOf .cs .u s.trace
  latchDc : s.dc = latchOf .dc .u s.trace
  latchRst : s.rst = latchOf .rst .u s.trace
  wireDefined : WireItem.undefinedWrite ∉ wire s.cfg s.trace
  memory : pmWf s.ctl.pm = true
  unclaimed : (s.ctrl ≠ .ready ∨ sinkGiven s.cfg = false ∨ s.busy = true ∧ s.op = .init) → s.ctl.pm = []
  window : s.busy = true → controllerKnown s = true → s.ferr = none → windowSent s.cfg s.upc s.ctl
  results : requestCount s.hostLog = resultCount s.hostLog + s.busy.toNat

end Sys2Proof.Machine
end

