-- ==== Sys2Proof/Certificates/Slice0/Obligations.lean ====
section
/-! DEFINITION. The statements for the provers, each from numbered rules of spec/. A docstring names the
rules, and the assumption-log entry where a clause is the model's own choice. -/

open Sys2Proof Sys2Proof.Machine

/-! ### Construction and reset -/

/-- R186: construction is refused exactly when the configuration breaks one of the six bounds; otherwise
it gives the constructed state; whatever the error type (R15). -/
def Obligations.ConstructionChecksGeometry : Prop :=
  ∀ (E : Type) (c : Cfg),
    (c.w ≤ 240 ∧ c.h ≤ 320 ∧ c.rOff + c.h ≤ 320 ∧ c.cOff + c.w ≤ 240 ∧ 1 ≤ c.w ∧ 1 ≤ c.h →
      construct (E := E) c = .next (State.constructed c)) ∧
    (¬(c.w ≤ 240 ∧ c.h ≤ 320 ∧ c.rOff + c.h ≤ 320 ∧ c.cOff + c.w ≤ 240 ∧ 1 ≤ c.w ∧ 1 ≤ c.h) →
      construct (E := E) c = .refused .badConfiguration)

/-- R37: the state at construction, every value the table gives; no call was issued, no event appended;
the configuration was checked. That no cell of the controller's memory has a value is the model's form of
"unspecified" (entry 9). -/
def Obligations.ConstructedStateIsIdle : Prop :=
  ∀ (c : Cfg) (t : State), construct c = .next t →
    t.cs = .u ∧ t.dc = .u ∧ t.rst = .u ∧ t.busy = false ∧ t.pending = none ∧ t.ferr = none ∧
      t.trace = [] ∧ t.ctrl = .unknown ∧ t.cfg = c ∧ c.valid = true ∧ ∀ k, pmRead t.ctl.pm k = none

/-- The state after reset is the constructed state of REF (R9: W=240, H=280, ROFF=40, COFF=0) and meets
the invariant. The reset configuration's delays are the model's choice (entry 2); nothing here rests on
them. That no cell has a value is entry 9, that no framebuffer is lent entry 15. -/
def Obligations.ResetMeetsInvariant : Prop :=
  construct Cfg.ref = .next State.reset ∧ State.reset.cfg.w = 240 ∧ State.reset.cfg.h = 280 ∧
    State.reset.cfg.rOff = 40 ∧ State.reset.cfg.cOff = 0 ∧ Inv State.reset

/-! ### The step and the executor -/

/-- A step runs the decoded instruction. Idle, it runs the host's next request, taken off the port; idle
with no request it waits; an illegal code is refused (R73, R78). Busy, it runs the wire command the
sequencer has come to; anywhere else in an operation it goes on with the operation (entry 6). -/
def Obligations.StepRunsDecodedInstruction : Prop :=
  ∀ s : State,
    (s.busy = false → s.host = [] → step s = .next s) ∧
    (∀ r rest i, s.busy = false → s.host = r :: rest → decodeRequest r = .ok i →
      step s = exec i { s with host := rest }) ∧
    (∀ r rest err, s.busy = false → s.host = r :: rest → decodeRequest r = .error err →
      step s = .refused (.illegalRequest r.code)) ∧
    (∀ i, s.busy = true → s.pending = none → s.ferr = none → currentCommand s = some i →
      step s = exec i s) ∧
    (s.busy = true → (s.pending ≠ none ∨ s.ferr ≠ none ∨ currentCommand s = none) →
      step s = .next (continueOp s))

/-- R78: every request code other than 0x01 and 0x02 is refused by name. A refusal has no next state: no
call, no change. -/
def Obligations.IllegalRequestRefused : Prop :=
  ∀ (s : State) (r : HostRequest) (rest : List HostRequest),
    s.busy = false → s.host = r :: rest → r.code ≠ 0x01 → r.code ≠ 0x02 →
      step s = .refused (.illegalRequest r.code)

/-- R73, D20: while busy neither request is accepted. That it is a refusal by name is the model's form of
"the host port has no move" (entry 5). -/
def Obligations.NoRequestAcceptedWhileBusy : Prop :=
  ∀ (s : State) (fb : List Pixel) (len : Nat), s.busy = true →
    exec .init s = .refused .requestWhileBusy ∧ exec (.draw fb len) s = .refused .requestWhileBusy

/-- R99: ISSUE, ANSWER (`Ok`, `done`, `Err`) and FINISH, one step each, outside the clean-up of a failed
DRAW; the result that FINISH and the fault deliver is in the statements about INIT and DRAW. And R150,
R165: in the clean-up, whatever the answer to the outstanding `CS_R` and however late it comes, its event is
appended, the latch is the release level or `U`, and the DRAW ends with its first error, in a step of the
machine as in one of the executor (the place of the record in the log is entry 16). -/
def Obligations.ExecutorIssuesAnswersFinishes : Prop :=
  ∀ s : State, s.busy = true →
    ((s.op = .draw → s.ferr = none) →
      (∀ m, s.pending = none → (prog s)[s.upc]? = some m →
        executorStep s = .going { s with pending := some m }) ∧
      (∀ m rs, s.pending = some m → fallible m = true → s.transport = .ok :: rs →
        ∃ t, executorStep s = .going t ∧ t.trace = s.trace ++ [okEvent s.cfg m] ∧ t.pending = none ∧
          t.upc = s.upc + 1 ∧ t.busy = true ∧
          (∀ l, readLine t l = latchOf l (readLine s l) [(okEvent s.cfg m : Event BusError)])) ∧
      (∀ ms ts, s.pending = some (.wait ms) → s.timing = .done :: ts →
        executorStep s = .going { s with trace := s.trace ++ [.delay ms], pending := none,
                                         upc := s.upc + 1, timing := ts }) ∧
      (∀ m e n rs, s.pending = some m → fallible m = true → s.transport = .err e n :: rs →
        ∃ t, executorStep s = .going (takeBusFault e t) ∧ t.trace = s.trace ++ [errEvent s.cfg e m] ∧
          t.pending = none ∧ t.upc = s.upc ∧
          (∀ l, readLine t l = latchOf l (readLine s l) [errEvent s.cfg e m])) ∧
      (s.pending = none → s.upc = (prog s).length →
        executorStep s = .going (finish s) ∧ (finish s).busy = false)) ∧
    (∀ e r rs a, s.op = .draw → s.ferr = some e → s.upc = 17 → s.pending = some .csR →
      s.transport = r :: rs → replyAnswer r = some a →
      ∃ t, executorStep s = .going t ∧ step s = .next t ∧
        t.trace = s.trace ++ [.set .cs (invert s.cfg.csAssert) a] ∧
        t.cs = latchAfter (invert s.cfg.csAssert) a ∧ t.dc = s.dc ∧ t.transport = rs ∧ t.busy = false ∧
        t.pending = none ∧ t.ferr = none ∧
        t.hostLog = s.hostLog ++ [.res (.drawErr e) (s.trace.length + 1)])

/-- R21, R22, R23, R90 to R95: what a set of each line leaves in its latch, and that it touches no other:
the level set after `Ok`, `U` after `Err`. -/
def Obligations.LineSetWritesItsLatch : Prop :=
  ∀ (s : State) (m : MicroOp) (line : Line) (level : Level) (e : BusError) (n : Nat),
    ((m = .csA ∧ line = .cs ∧ level = s.cfg.csAssert) ∨ (m = .csR ∧ line = .cs ∧ level ≠ s.cfg.csAssert) ∨
      (m = .dcC ∧ line = .dc ∧ level = s.cfg.dcCmd) ∨ (m = .dcD ∧ line = .dc ∧ level ≠ s.cfg.dcCmd) ∨
      (m = .rstA ∧ line = .rst ∧ level = s.cfg.rstActive) ∨
      (m = .rstR ∧ line = .rst ∧ level ≠ s.cfg.rstActive)) →
    readLine (effectOk m s) line = ofLevel level ∧ readLine (effectErr m e n s) line = .u ∧
      (effectOk m s).trace = s.trace ++ [.set line level .ok] ∧
      (effectErr m e n s).trace = s.trace ++ [.set line level (.err e)] ∧
      (∀ l, l ≠ line → readLine (effectOk m s) l = readLine s l ∧
        readLine (effectErr m e n s) l = readLine s l)

/-- R26, R170: with a call outstanding and no answer coming, the machine stays exactly as it is, for
ever; it is no fault. -/
def Obligations.UnansweredCallHangs : Prop :=
  ∀ (s : State) (m : MicroOp), s.busy = true → s.pending = some m →
    (fallible m = true → s.transport = []) → (fallible m = false → s.timing = []) →
    step s = .next s

/-- Entry 6: what a step does is a run of the executor's own steps (R99), after the acceptance of the
request when it starts an operation. -/
def Obligations.StepIsExecutorSteps : Prop :=
  ∀ s t : State, Inv s → step s = .next t →
    (s.busy = true → ∃ n, t = executorRun n s) ∧
    (s.busy = false → s.host ≠ [] →
      ∃ (r : HostRequest) (rest : List HostRequest), s.host = r :: rest ∧
        ((r.code = 0x01 ∧ ∃ n, t = executorRun n (accept .init [] { s with host := rest })) ∨
          (r.code = 0x02 ∧ r.len = s.cfg.w * s.cfg.h ∧
            ∃ n, t = executorRun n (accept .draw r.fb { s with host := rest })) ∨
          (r.code = 0x02 ∧ r.len ≠ s.cfg.w * s.cfg.h ∧ t = rejectLength { s with host := rest })))

/-- R38, R24, R26, R21 to R23, R64, R106 (c), R206, R55 to R57, R117: every step keeps the invariant. Its
clause `window` rests on the sink model (entry 8, PRESUMED) and on a command byte starting a new command
(entry 13, PRESUMED), where entry 12 says that the model is given; `unclaimed` is the model's form of K13 and
K14 (entry 11), `memory` is the canonical form of the model's own list of cells (entry 9), and the empty
framebuffer while idle and the host log in `results` are the model's (entries 15, 16), and so are the item for
an undefined write in `wireDefined` (entry 27) and a controller that waits for a write's answer (entry 23). -/
def Obligations.StepKeepsInvariant : Prop :=
  ∀ s t : State, Inv s → step s = .next t → Inv t

/-- The same of every single step of the executor, the states between calls included: R99 beside those rules.
It rests on the same entries: `window` on 8 and 13 (PRESUMED) and 12, `unclaimed` on 11, `memory` on 9,
`idle` on 15, `results` on 16, `wireDefined` on 27, and on entry 23. -/
def Obligations.ExecutorStepKeepsInvariant : Prop :=
  ∀ s t : State, Inv s → (executorStep s = .going t ∨ executorStep s = .stopped t) → Inv t

/-- 00_scope.md section 3: no step changes the configuration (a field of State by entry 1); R30, R187: no
step removes an event. -/
def Obligations.StepKeepsConfigurationAndTrace : Prop :=
  ∀ s t : State, step s = .next t → t.cfg = s.cfg ∧ s.trace <+: t.trace

/-- R31: `ctrl` changes only where an INIT ends, one that was running or the host's next request: to READY
with the result OK, to INDETERMINATE with INIT_ERR(e). -/
def Obligations.ControllerStatusMovesOnlyAtInitEnd : Prop :=
  ∀ s t : State, step s = .next t → t.ctrl ≠ s.ctrl →
    ((s.busy = true ∧ s.op = .init) ∨
      (s.busy = false ∧ ∃ r rest, s.host = r :: rest ∧ r.code = 0x01)) ∧ t.busy = false ∧
      ((t.ctrl = .ready ∧ t.hostLog.getLast? = some (.res .ok t.trace.length)) ∨
        (t.ctrl = .indeterminate ∧ ∃ e, t.hostLog.getLast? = some (.res (.initErr e) t.trace.length)))

/-- R36, R47: the pixel index stays between 0 and W*H and never falls while an operation runs. What
it is while idle is the model's (entry 7). -/
def Obligations.PixelIndexCountsUp : Prop :=
  ∀ s t : State, step s = .next t → s.pix ≤ s.cfg.w * s.cfg.h →
    t.pix ≤ t.cfg.w * t.cfg.h ∧ (s.busy = true → s.pix ≤ t.pix)

/-! ### INIT and its commands -/

/-- R125: SWRESET is one group with no parameter and the delay T_SWRESET after the release. What the
controller makes of it is the free values of entry 11. -/
def Obligations.SwresetCompletes : Prop :=
  ∀ s : State, s.busy = true → s.op = .init → s.pending = none →
    s.transport.take 4 = List.replicate 4 .ok → (0 < s.cfg.tSwreset → s.timing.head? = some .done) →
    exec .swreset s = .next
      { s with
        cs := ofLevel (invert s.cfg.csAssert), dc := ofLevel s.cfg.dcCmd
        upc := s.upc + 4 + (if s.cfg.tSwreset = 0 then 0 else 1)
        trace := s.trace ++ [.set .cs s.cfg.csAssert .ok, .set .dc s.cfg.dcCmd .ok,
          .write [s.cfg.opSwreset] .ok, .set .cs (invert s.cfg.csAssert) .ok] ++
          (if s.cfg.tSwreset = 0 then [] else [.delay s.cfg.tSwreset])
        transport := s.transport.drop 4
        timing := s.timing.drop (if s.cfg.tSwreset = 0 then 0 else 1)
        ctl := scrambled (s.fresh + 18), fresh := s.fresh + 24 }

/-- R126: SLPOUT is one group with no parameter and the delay T_SLPOUT after the release. What the
controller makes of it is the free values of entry 11. -/
def Obligations.SlpoutCompletes : Prop :=
  ∀ s : State, s.busy = true → s.op = .init → s.pending = none →
    s.transport.take 4 = List.replicate 4 .ok → (0 < s.cfg.tSlpout → s.timing.head? = some .done) →
    exec .slpout s = .next
      { s with
        cs := ofLevel (invert s.cfg.csAssert), dc := ofLevel s.cfg.dcCmd
        upc := s.upc + 4 + (if s.cfg.tSlpout = 0 then 0 else 1)
        trace := s.trace ++ [.set .cs s.cfg.csAssert .ok, .set .dc s.cfg.dcCmd .ok,
          .write [s.cfg.opSlpout] .ok, .set .cs (invert s.cfg.csAssert) .ok] ++
          (if s.cfg.tSlpout = 0 then [] else [.delay s.cfg.tSlpout])
        transport := s.transport.drop 4
        timing := s.timing.drop (if s.cfg.tSlpout = 0 then 0 else 1)
        ctl := scrambled (s.fresh + 18), fresh := s.fresh + 24 }

/-- R127: COLMOD is one group with the parameter byte COLMOD_PARAM and no delay. What the controller makes
of it is the free values of entry 11. -/
def Obligations.ColmodCompletes : Prop :=
  ∀ s : State, s.busy = true → s.op = .init → s.pending = none →
    s.transport.take 6 = List.replicate 6 .ok →
    exec .colmod s = .next
      { s with
        cs := ofLevel (invert s.cfg.csAssert), dc := ofLevel (invert s.cfg.dcCmd), upc := s.upc + 6
        trace := s.trace ++ [.set .cs s.cfg.csAssert .ok, .set .dc s.cfg.dcCmd .ok,
          .write [s.cfg.opColmod] .ok, .set .dc (invert s.cfg.dcCmd) .ok,
          .write [s.cfg.colmodParam] .ok, .set .cs (invert s.cfg.csAssert) .ok]
        transport := s.transport.drop 6, ctl := scrambled (s.fresh + 30), fresh := s.fresh + 36 }

/-- R128: MADCTL is one group with the parameter byte MADCTL_PARAM and no delay. What the controller makes
of it is the free values of entry 11. -/
def Obligations.MadctlCompletes : Prop :=
  ∀ s : State, s.busy = true → s.op = .init → s.pending = none →
    s.transport.take 6 = List.replicate 6 .ok →
    exec .madctl s = .next
      { s with
        cs := ofLevel (invert s.cfg.csAssert), dc := ofLevel (invert s.cfg.dcCmd), upc := s.upc + 6
        trace := s.trace ++ [.set .cs s.cfg.csAssert .ok, .set .dc s.cfg.dcCmd .ok,
          .write [s.cfg.opMadctl] .ok, .set .dc (invert s.cfg.dcCmd) .ok,
          .write [s.cfg.madctlParam] .ok, .set .cs (invert s.cfg.csAssert) .ok]
        transport := s.transport.drop 6, ctl := scrambled (s.fresh + 30), fresh := s.fresh + 36 }

/-- R130: DISPON is one group with no parameter and no delay. What the controller makes of it is the free
values of entry 11. -/
def Obligations.DisponCompletes : Prop :=
  ∀ s : State, s.busy = true → s.op = .init → s.pending = none →
    s.transport.take 4 = List.replicate 4 .ok →
    exec .dispon s = .next
      { s with
        cs := ofLevel (invert s.cfg.csAssert), dc := ofLevel s.cfg.dcCmd, upc := s.upc + 4
        trace := s.trace ++ [.set .cs s.cfg.csAssert .ok, .set .dc s.cfg.dcCmd .ok,
          .write [s.cfg.opDispon] .ok, .set .cs (invert s.cfg.csAssert) .ok]
        transport := s.transport.drop 4, ctl := scrambled (s.fresh + 18), fresh := s.fresh + 24 }

/-- R129, R108: one tuning entry is one group, sent as given: without parameters no `DC_D` and no second
write, without a delay no `WAIT`. What the controller makes of it (K24) is the free values of entry 11. -/
def Obligations.TuningCompletes : Prop :=
  ∀ (s : State) (op : Byte) (params : List Byte) (d : Nat),
    s.busy = true → s.op = .init → s.pending = none →
    s.transport.take (if params = [] then 4 else 6) = List.replicate (if params = [] then 4 else 6) .ok →
    (0 < d → s.timing.head? = some .done) →
    exec (.tuning op params d) s = .next
      { s with
        cs := ofLevel (invert s.cfg.csAssert)
        dc := if params = [] then ofLevel s.cfg.dcCmd else ofLevel (invert s.cfg.dcCmd)
        upc := s.upc + (if params = [] then 4 else 6) + (if d = 0 then 0 else 1)
        trace := s.trace ++ [.set .cs s.cfg.csAssert .ok, .set .dc s.cfg.dcCmd .ok, .write [op] .ok] ++
          (if params = [] then [] else [.set .dc (invert s.cfg.dcCmd) .ok, .write params .ok]) ++
          [.set .cs (invert s.cfg.csAssert) .ok] ++ (if d = 0 then [] else [.delay d])
        transport := s.transport.drop (if params = [] then 4 else 6)
        timing := s.timing.drop (if d = 0 then 0 else 1)
        ctl := scrambled (s.fresh + if params = [] then 18 else 30)
        fresh := s.fresh + if params = [] then 24 else 36 }

/-- R135, R130, R202, R31: an INIT every call of which is answered `Ok` or `done` runs all of INIT_PROG and
ends OK, idle, with chip-select released, the selector at the command level, the reset line inactive and
the controller READY. What the controller's own registers hold is the free values of entry 11; the values
`op` and `upc` keep while idle are the model's (entry 7), and so are the host records (entry 16). -/
def Obligations.InitCompletes : Prop :=
  ∀ s : State, s.busy = false → AllAnswered (initProg s.cfg) s →
    exec .init s = .next
      { s with
        cs := ofLevel (invert s.cfg.csAssert), dc := ofLevel s.cfg.dcCmd
        rst := ofLevel (invert s.cfg.rstActive)
        busy := false, op := .init, upc := (initProg s.cfg).length, pending := none, ferr := none, fb := []
        trace := s.trace ++ (initProg s.cfg).map (okEvent s.cfg)
        ctrl := .ready, ctl := scrambled (s.fresh + 6 + 6 * fallibleCount (initProg s.cfg))
        fresh := s.fresh + 12 + 6 * fallibleCount (initProg s.cfg)
        hostLog := s.hostLog ++ [.req .init s.trace.length,
          .res .ok (s.trace.length + (initProg s.cfg).length)]
        transport := s.transport.drop (fallibleCount (initProg s.cfg))
        timing := s.timing.drop (waitCount (initProg s.cfg)) }

/-- R136, R164, R163: an INIT aborts at its first failed call, wherever it is: nothing is issued after
it, the result is INIT_ERR of that very error, the lines stay as they are, the controller is
INDETERMINATE. -/
def Obligations.InitAbortsAtFirstError : Prop :=
  ∀ (s : State) (pre post : List MicroOp) (m : MicroOp) (e : BusError) (n : Nat) (rs : List (Reply BusError)),
    s.busy = false → initProg s.cfg = pre ++ m :: post → fallible m = true →
    s.transport = List.replicate (fallibleCount pre) .ok ++ .err e n :: rs →
    s.timing.take (waitCount pre) = List.replicate (waitCount pre) .done →
    ∃ t, exec .init s = .next t ∧
      t.trace = s.trace ++ pre.map (okEvent s.cfg) ++ [errEvent s.cfg e m] ∧
      t.transport = rs ∧ t.busy = false ∧ t.pending = none ∧ t.ferr = none ∧ t.ctrl = .indeterminate ∧
      t.hostLog = s.hostLog ++ [.req .init s.trace.length,
        .res (.initErr e) (s.trace.length + pre.length + 1)] ∧
      (∀ l, readLine t l =
        latchOf l (readLine s l) (pre.map (okEvent s.cfg) ++ [errEvent s.cfg e m]))

/-- R170, R26, T49: an INIT one of whose sets or writes is never answered has issued every call up to it
and none after, delivers no result, and stays so. -/
def Obligations.InitHangsAtUnansweredCall : Prop :=
  ∀ (s : State) (pre post : List MicroOp) (m : MicroOp),
    s.busy = false → initProg s.cfg = pre ++ m :: post → fallible m = true →
    s.transport = List.replicate (fallibleCount pre) .ok →
    s.timing.take (waitCount pre) = List.replicate (waitCount pre) .done →
    ∃ t, exec .init s = .next t ∧ t.busy = true ∧ t.op = .init ∧ t.upc = pre.length ∧
      t.pending = some m ∧ t.trace = s.trace ++ pre.map (okEvent s.cfg) ∧
      t.hostLog = s.hostLog ++ [.req .init s.trace.length] ∧ step t = .next t

/-- R138: what an INIT does is a function of the configuration and the answers, not of history: from two
idle states that agree on these it appends the same events and gives the same result. That `upc` is the
same while idle is the model's (entry 7). -/
def Obligations.InitIndependentOfHistory : Prop :=
  ∀ s s' : State, s.busy = false → s'.busy = false → s'.cfg = s.cfg → s'.transport = s.transport →
    s'.timing = s.timing →
    ∃ t t' events, exec .init s = .next t ∧ exec .init s' = .next t' ∧
      t.trace = s.trace ++ events ∧ t'.trace = s'.trace ++ events ∧ t'.busy = t.busy ∧
      t'.pending = t.pending ∧ t'.upc = t.upc ∧
      ∀ r, (.res r t.trace.length ∈ t.hostLog.drop s.hostLog.length ↔
        .res r t'.trace.length ∈ t'.hostLog.drop s'.hostLog.length)

/-- R137, R109: the sizes of INIT_PROG. The fixed part has 7 writes, 5 opcodes and 2 parameter writes, by R133,
R134, R104 and the rows of T20; R137 and T20's summary line say 8, and that the model follows the table is its
own choice (DEDUCED, entry 29). -/
def Obligations.InitProgramSizes : Prop :=
  ∀ c : Cfg,
    fallibleCount (initProg c) = 27 + (c.tuning.map fun e => if e.params = [] then 4 else 6).sum ∧
    waitCount (initProg c) =
      ([c.tRstPre, c.tRstActive, c.tRstPost, c.tSwreset, c.tSlpout] ++ c.tuning.map (·.postDelay)).countP
        (fun d => decide (0 < d)) ∧
    (initProg c).length = fallibleCount (initProg c) + waitCount (initProg c) ∧
    writeCount (initProg c) = 7 + (c.tuning.map fun e => if e.params = [] then 1 else 2).sum

/-- R139: the three sets of the reset line are the first three fallible calls of INIT, and the first
write is fallible call number 6, after `CS_A` and `DC_C`. -/
def Obligations.ResetBeforeFirstWrite : Prop :=
  ∀ c : Cfg, ((initProg c).filter fallible).take 6 =
    [.rstR, .rstA, .rstR, .csA, .dcC, .wr [c.opSwreset]]

/-- R124, R133, R134, R147: the programs of INIT and DRAW are the hardware reset and their wire commands, and
their wire commands and the payload, in order. The hardware reset is three sets of the reset line, each
with its own delay after it; a delay of 0 is left out (R108). -/
def Obligations.ProgramsAreTheirCommands : Prop :=
  ∀ (c : Cfg) (fb : List Pixel),
    initProg c =
      [.rstR] ++ (if c.tRstPre = 0 then [] else [.wait c.tRstPre]) ++
        [.rstA] ++ (if c.tRstActive = 0 then [] else [.wait c.tRstActive]) ++
        [.rstR] ++ (if c.tRstPost = 0 then [] else [.wait c.tRstPost]) ++
        (initCommands c).flatMap (commandOps c) ∧
    drawProg c fb = (drawCommands c).flatMap (commandOps c) ++ [.dcD, .wr (pixBytes c fb), .csR]

/-! ### The window and DRAW -/

/-- R112: CASET is one group with the two bounds, high byte first. Where the spec gives the sink model
(entry 8) the window's columns become the bounds (R55) and the pixels stay, whatever the controller was in
the middle of, since a command byte starts a new command (K13, K26; entry 13, PRESUMED); with an opcode that
is RASET's or RAMWR's too, what that command may have changed is free (D2, entry 12); elsewhere the controller
is left at free values (R153, entry 11). -/
def Obligations.CasetCompletes : Prop :=
  ∀ (s : State) (xs xe : Bound), s.busy = true → s.op = .draw → s.pending = none → s.ferr = none →
    s.upc = 0 → xs.toNat ≤ xe.toNat → xe.toNat ≤ 239 → s.transport.take 6 = List.replicate 6 .ok →
    ∃ k n, exec (.caset xs xe) s = .next
      { s with
        cs := ofLevel (invert s.cfg.csAssert), dc := ofLevel (invert s.cfg.dcCmd), upc := 6
        trace := s.trace ++ [.set .cs s.cfg.csAssert .ok, .set .dc s.cfg.dcCmd .ok,
          .write [s.cfg.opCaset] .ok, .set .dc (invert s.cfg.dcCmd) .ok,
          .write [BitVec.ofNat 8 (xs.toNat / 256), BitVec.ofNat 8 (xs.toNat % 256),
            BitVec.ofNat 8 (xe.toNat / 256), BitVec.ofNat 8 (xe.toNat % 256)] .ok,
          .set .cs (invert s.cfg.csAssert) .ok]
        ctl := k, fresh := n
        transport := s.transport.drop 6 } ∧
      (sinkRuns s = true → s.cfg.opCaset ≠ s.cfg.opRaset → s.cfg.opCaset ≠ s.cfg.opRamwr →
        n = s.fresh + (if sinkGiven s.cfg then 0 else 12) ∧
        k = { s.ctl with
          xs := xs, xe := xe, mode := .other, args := [], pm := if sinkGiven s.cfg then s.ctl.pm else [] }) ∧
      (sinkRuns s = true → s.cfg.opCaset = s.cfg.opRaset ∨ s.cfg.opCaset = s.cfg.opRamwr →
        n = s.fresh + 12 ∧
        k = { unsettle true (decide (s.cfg.opCaset = s.cfg.opRaset)) (decide (s.cfg.opCaset = s.cfg.opRamwr))
            (s.fresh + 6) s.ctl with
          mode := .several true (decide (s.cfg.opCaset = s.cfg.opRaset)) (decide (s.cfg.opCaset = s.cfg.opRamwr))
          args := [], pm := [] }) ∧
      (sinkRuns s = false → n = s.fresh + 36 ∧ k = scrambled (s.fresh + 30))

/-- R113: RASET is one group with the two bounds, high byte first. Where the spec gives the sink model
(entry 8) the window's rows become the bounds (R55) and the pixels stay, whatever the controller was in the
middle of, since a command byte starts a new command (K13, K26; entry 13, PRESUMED); with an opcode that is
CASET's or RAMWR's too, what that command may have changed is free (D2, entry 12); elsewhere the controller is
left at free values (R153, entry 11). -/
def Obligations.RasetCompletes : Prop :=
  ∀ (s : State) (ys ye : Bound), s.busy = true → s.op = .draw → s.pending = none → s.ferr = none →
    s.upc = 6 → ys.toNat ≤ ye.toNat → ye.toNat ≤ 319 → s.transport.take 6 = List.replicate 6 .ok →
    ∃ k n, exec (.raset ys ye) s = .next
      { s with
        cs := ofLevel (invert s.cfg.csAssert), dc := ofLevel (invert s.cfg.dcCmd), upc := 12
        trace := s.trace ++ [.set .cs s.cfg.csAssert .ok, .set .dc s.cfg.dcCmd .ok,
          .write [s.cfg.opRaset] .ok, .set .dc (invert s.cfg.dcCmd) .ok,
          .write [BitVec.ofNat 8 (ys.toNat / 256), BitVec.ofNat 8 (ys.toNat % 256),
            BitVec.ofNat 8 (ye.toNat / 256), BitVec.ofNat 8 (ye.toNat % 256)] .ok,
          .set .cs (invert s.cfg.csAssert) .ok]
        ctl := k, fresh := n
        transport := s.transport.drop 6 } ∧
      (sinkRuns s = true → s.cfg.opRaset ≠ s.cfg.opCaset → s.cfg.opRaset ≠ s.cfg.opRamwr →
        n = s.fresh + (if sinkGiven s.cfg then 0 else 12) ∧
        k = { s.ctl with
          ys := ys, ye := ye, mode := .other, args := [], pm := if sinkGiven s.cfg then s.ctl.pm else [] }) ∧
      (sinkRuns s = true → s.cfg.opRaset = s.cfg.opCaset ∨ s.cfg.opRaset = s.cfg.opRamwr →
        n = s.fresh + 12 ∧
        k = { unsettle (decide (s.cfg.opRaset = s.cfg.opCaset)) true (decide (s.cfg.opRaset = s.cfg.opRamwr))
            (s.fresh + 6) s.ctl with
          mode := .several (decide (s.cfg.opRaset = s.cfg.opCaset)) true (decide (s.cfg.opRaset = s.cfg.opRamwr))
          args := [], pm := [] }) ∧
      (sinkRuns s = false → n = s.fresh + 36 ∧ k = scrambled (s.fresh + 30))

/-- R114: RAMWR sends its opcode and leaves the group open, chip-select asserted and the selector at the
command level. Where the spec gives the sink model (entry 8) the write pointer goes to (XS, YS) (R56), whatever the
controller was in the middle of, since a command byte starts a new command (K13, K26; entry 13, PRESUMED);
with an opcode that is CASET's or RASET's too, what that command may have changed is free (D2, entry 12);
elsewhere the controller is left at free values (R153, entry 11). -/
def Obligations.RamwrCompletes : Prop :=
  ∀ s : State, s.busy = true → s.op = .draw → s.pending = none → s.ferr = none → s.upc = 12 →
    s.transport.take 3 = List.replicate 3 .ok →
    ∃ k n, exec .ramwr s = .next
      { s with
        cs := ofLevel s.cfg.csAssert, dc := ofLevel s.cfg.dcCmd, upc := 15
        trace := s.trace ++ [.set .cs s.cfg.csAssert .ok, .set .dc s.cfg.dcCmd .ok,
          .write [s.cfg.opRamwr] .ok]
        ctl := k, fresh := n
        transport := s.transport.drop 3 } ∧
      (sinkRuns s = true → s.cfg.opRamwr ≠ s.cfg.opCaset → s.cfg.opRamwr ≠ s.cfg.opRaset →
        n = s.fresh + (if sinkGiven s.cfg then 0 else 6) ∧
        k = { s.ctl with
          col := s.ctl.xs, row := s.ctl.ys, mode := .pixels, args := []
          pm := if sinkGiven s.cfg then s.ctl.pm else [] }) ∧
      (sinkRuns s = true → s.cfg.opRamwr = s.cfg.opCaset ∨ s.cfg.opRamwr = s.cfg.opRaset →
        n = s.fresh + 6 ∧
        k = { unsettle (decide (s.cfg.opRamwr = s.cfg.opCaset)) (decide (s.cfg.opRamwr = s.cfg.opRaset)) true
            s.fresh s.ctl with
          mode := .several (decide (s.cfg.opRamwr = s.cfg.opCaset)) (decide (s.cfg.opRamwr = s.cfg.opRaset)) true
          args := [], pm := [] }) ∧
      (sinkRuns s = false → n = s.fresh + 18 ∧ k = scrambled (s.fresh + 12))

/-- R112, R113, K18: bounds out of range are refused, never computed with. That CASET and RASET on their
own refuse is the model's form of it (entry 21). -/
def Obligations.WindowOutOfRangeRefused : Prop :=
  ∀ (s : State) (a b : Bound),
    (¬(a.toNat ≤ b.toNat ∧ b.toNat ≤ 239) → exec (.caset a b) s = .refused .windowOutOfRange) ∧
    (¬(a.toNat ≤ b.toNat ∧ b.toNat ≤ 319) → exec (.raset a b) s = .refused .windowOutOfRange)

/-- R73, R26: outside an operation, and with a call outstanding, no wire command is sent. That exec
refuses it by name is the model's choice (entry 21). -/
def Obligations.CommandsNeedRunningOperation : Prop :=
  ∀ (s : State) (i : Instr), i.wf = true → i ≠ .init → (∀ fb len, i ≠ .draw fb len) →
    (s.busy = false → exec i s = .refused .noOperation) ∧
    (s.busy = true → s.pending ≠ none → exec i s = .refused .callOutstanding)

/-- R116, R111: SET_WINDOW on its own computes with arguments in range, adding the offsets, and refuses
all others. -/
def Obligations.SetWindowChecksArguments : Prop :=
  ∀ (c : Cfg) (a b d e : Nat),
    (a ≤ b ∧ b < c.w ∧ d ≤ e ∧ e < c.h → setWindowChecked c a b d e = some
      (casetOps c (BitVec.ofNat 16 (a + c.cOff)) (BitVec.ofNat 16 (b + c.cOff)) ++
        rasetOps c (BitVec.ofNat 16 (d + c.rOff)) (BitVec.ofNat 16 (e + c.rOff)) ++
        [.csA, .dcC, .wr [c.opRamwr]])) ∧
    (¬(a ≤ b ∧ b < c.w ∧ d ≤ e ∧ e < c.h) → setWindowChecked c a b d e = none)

/-- R117, R118: DRAW starts with SET_WINDOW(0, W-1, 0, H-1), which for every valid configuration sends the
inclusive bounds (COFF, ROFF)-(COFF+W-1, ROFF+H-1); the window holds exactly W*H cells. -/
def Obligations.FullWindowBounds : Prop :=
  ∀ c : Cfg, c.valid = true →
    ∃ xs xe ys ye : Bound,
      (∀ fb, drawProg c fb = setWindow c 0 (c.w - 1) 0 (c.h - 1) ++ payloadOps c fb) ∧
      setWindow c 0 (c.w - 1) 0 (c.h - 1) = casetOps c xs xe ++ rasetOps c ys ye ++ ramwrOps c ∧
      xs.toNat = c.cOff ∧ xe.toNat = c.cOff + c.w - 1 ∧ ys.toNat = c.rOff ∧ ye.toNat = c.rOff + c.h - 1 ∧
      (xe.toNat - xs.toNat + 1) * (ye.toNat - ys.toNat + 1) = c.w * c.h ∧
      columnsOk xs xe = true ∧ rowsOk ys ye = true

/-- R143: a framebuffer of any other length is rejected with LEN_ERR before anything else: no call, no
event, no register and no latch changes. The two host records are the model's log (entry 16). -/
def Obligations.DrawRejectsWrongLength : Prop :=
  ∀ (s : State) (fb : List Pixel) (len : Nat), s.busy = false → len ≠ s.cfg.w * s.cfg.h →
    exec (.draw fb len) s = .next
      { s with hostLog := s.hostLog ++ [.req .draw s.trace.length, .res .lenErr s.trace.length] }

/-- R144, R147, R149, R154, R202: a DRAW all 18 calls of which answer `Ok` ends OK, idle, chip-select
released, the selector at the data level, the reset line and `ctrl` untouched, all pixels read. Where the
spec gives the sink model (entry 8) the window registers hold the window sent, the columns or the rows of an
opcode that is another's too excepted (R55, R117; entry 12), also after an INIT or an aborted DRAW that left
the controller in the middle of a command, since a command byte starts a new one (K13, K26; entry 13,
PRESUMED); the statement about the controller's memory is DrawStoresFramebuffer; free values are drawn only
where the spec does not give the controller (entries 11, 12). The values `op`, `upc` and `pix` keep while idle are the model's (entry 7), and so are the host records
(entry 16). -/
def Obligations.DrawCompletes : Prop :=
  ∀ (s : State) (fb : List Pixel) (len : Nat), s.busy = false → len = s.cfg.w * s.cfg.h →
    s.transport.take 18 = List.replicate 18 .ok →
    ∃ k n, exec (.draw fb len) s = .next
      { s with
        cs := ofLevel (invert s.cfg.csAssert), dc := ofLevel (invert s.cfg.dcCmd)
        busy := false, op := .draw, upc := 18, pending := none, ferr := none
        pix := s.cfg.w * s.cfg.h, fb := [], ctl := k, fresh := n
        trace := s.trace ++
          [.set .cs s.cfg.csAssert .ok, .set .dc s.cfg.dcCmd .ok, .write [s.cfg.opCaset] .ok,
            .set .dc (invert s.cfg.dcCmd) .ok,
            .write (be16 (BitVec.ofNat 16 s.cfg.cOff) ++
              be16 (BitVec.ofNat 16 (s.cfg.w - 1 + s.cfg.cOff))) .ok,
            .set .cs (invert s.cfg.csAssert) .ok,
            .set .cs s.cfg.csAssert .ok, .set .dc s.cfg.dcCmd .ok, .write [s.cfg.opRaset] .ok,
            .set .dc (invert s.cfg.dcCmd) .ok,
            .write (be16 (BitVec.ofNat 16 s.cfg.rOff) ++
              be16 (BitVec.ofNat 16 (s.cfg.h - 1 + s.cfg.rOff))) .ok,
            .set .cs (invert s.cfg.csAssert) .ok,
            .set .cs s.cfg.csAssert .ok, .set .dc s.cfg.dcCmd .ok, .write [s.cfg.opRamwr] .ok,
            .set .dc (invert s.cfg.dcCmd) .ok, .write (pixBytes s.cfg fb) .ok,
            .set .cs (invert s.cfg.csAssert) .ok]
        hostLog := s.hostLog ++ [.req .draw s.trace.length, .res .ok (s.trace.length + 18)]
        transport := s.transport.drop 18 } ∧
      (s.ctrl = .ready → scanGiven s.cfg = true →
        n = s.fresh + (if sinkGiven s.cfg then 0 else 36) ∧
        (s.cfg.opCaset ≠ s.cfg.opRaset → s.cfg.opCaset ≠ s.cfg.opRamwr →
          k.xs = BitVec.ofNat 16 s.cfg.cOff ∧ k.xe = BitVec.ofNat 16 (s.cfg.w - 1 + s.cfg.cOff)) ∧
        (s.cfg.opRaset ≠ s.cfg.opCaset → s.cfg.opRaset ≠ s.cfg.opRamwr →
          k.ys = BitVec.ofNat 16 s.cfg.rOff ∧ k.ye = BitVec.ofNat 16 (s.cfg.h - 1 + s.cfg.rOff))) ∧
      (¬(s.ctrl = .ready ∧ scanGiven s.cfg = true) → n = s.fresh + 108 ∧ k = scrambled (s.fresh + 102))

/-- R150, R165, R154: a DRAW that fails at any call before the last release issues exactly one `CS_R`
after it, ignores its answer, and reports the first error. And R55, where the sink model is given (entries 8,
12): a failure between two commands leaves the window registers at the bounds of the last CASET and RASET
that were delivered whole; only one in the middle of a command leaves them free (K13, entry 28). That a CASET
or RASET takes effect whatever the controller was in the middle of before the DRAW rests on a command byte
starting a new command (K13, K26; entry 13, PRESUMED). The value `upc` keeps while idle is the model's (entry
7), and so are the host records (entry 16). -/
def Obligations.DrawCleansUpAfterError : Prop :=
  ∀ (s : State) (fb : List Pixel) (len : Nat) (pre post : List MicroOp) (m : MicroOp) (e : BusError)
    (n : Nat) (r : Reply BusError) (a : Answer BusError) (rs : List (Reply BusError)),
    s.busy = false → len = s.cfg.w * s.cfg.h → drawProg s.cfg fb = pre ++ m :: post → post ≠ [] →
    s.transport = List.replicate pre.length .ok ++ .err e n :: r :: rs → replyAnswer r = some a →
    ∃ t, exec (.draw fb len) s = .next t ∧
      t.trace = s.trace ++ pre.map (okEvent s.cfg) ++
        [errEvent s.cfg e m, .set .cs (invert s.cfg.csAssert) a] ∧
      t.transport = rs ∧ t.busy = false ∧ t.pending = none ∧ t.ferr = none ∧ t.upc = 17 ∧
      t.cs = latchAfter (invert s.cfg.csAssert) a ∧
      t.dc = latchOf .dc s.dc (pre.map (okEvent s.cfg) ++ [errEvent s.cfg e m]) ∧
      t.hostLog = s.hostLog ++ [.req .draw s.trace.length,
        .res (.drawErr e) (s.trace.length + pre.length + 2)] ∧
      (s.ctrl = .ready → sinkGiven s.cfg = true →
        (pre.length ≤ 1 ∨ pre.length = 2 ∧ n = 0 →
          (t.ctl.xs, t.ctl.xe, t.ctl.ys, t.ctl.ye) = (s.ctl.xs, s.ctl.xe, s.ctl.ys, s.ctl.ye)) ∧
        (pre.length = 4 ∧ 4 ≤ n ∨ 5 ≤ pre.length ∧ pre.length ≤ 7 ∨ pre.length = 8 ∧ n = 0 →
          (t.ctl.xs, t.ctl.xe, t.ctl.ys, t.ctl.ye) = (BitVec.ofNat 16 s.cfg.cOff,
            BitVec.ofNat 16 (s.cfg.w - 1 + s.cfg.cOff), s.ctl.ys, s.ctl.ye)) ∧
        (pre.length = 10 ∧ 4 ≤ n ∨ 11 ≤ pre.length ∧ pre.length ≤ 13 ∨ pre.length = 14 ∧ n = 0 ∨
            pre.length = 16 ∧ 2 * (s.cfg.w * s.cfg.h) ≤ n →
          (t.ctl.xs, t.ctl.xe, t.ctl.ys, t.ctl.ye) = (BitVec.ofNat 16 s.cfg.cOff,
            BitVec.ofNat 16 (s.cfg.w - 1 + s.cfg.cOff), BitVec.ofNat 16 s.cfg.rOff,
            BitVec.ofNat 16 (s.cfg.h - 1 + s.cfg.rOff))))

/-- R149: a DRAW whose last release fails has delivered everything and still ends DRAW_ERR(e), chip-select
unknown, with no second attempt. Where the sink model is given (entries 8, 12) the window registers hold
the window sent (R55), whatever the controller was in the middle of before, since a command byte starts a new
command (K13, K26; entry 13, PRESUMED). The value `pix` keeps while idle is the model's (entry 7), and
so are the host records (entry 16). -/
def Obligations.DrawFinalReleaseFails : Prop :=
  ∀ (s : State) (fb : List Pixel) (len : Nat) (e : BusError) (n : Nat) (rs : List (Reply BusError)),
    s.busy = false → len = s.cfg.w * s.cfg.h →
    s.transport = List.replicate 17 .ok ++ .err e n :: rs →
    ∃ t, exec (.draw fb len) s = .next t ∧
      t.trace = s.trace ++ ((drawProg s.cfg fb).take 17).map (okEvent s.cfg) ++
        [.set .cs (invert s.cfg.csAssert) (.err e)] ∧
      t.transport = rs ∧ t.busy = false ∧ t.ferr = none ∧ t.cs = .u ∧ t.pix = s.cfg.w * s.cfg.h ∧
      t.hostLog = s.hostLog ++ [.req .draw s.trace.length, .res (.drawErr e) (s.trace.length + 18)] ∧
      (s.ctrl = .ready → sinkGiven s.cfg = true →
        (t.ctl.xs, t.ctl.xe, t.ctl.ys, t.ctl.ye) = (BitVec.ofNat 16 s.cfg.cOff,
          BitVec.ofNat 16 (s.cfg.w - 1 + s.cfg.cOff), BitVec.ofNat 16 s.cfg.rOff,
          BitVec.ofNat 16 (s.cfg.h - 1 + s.cfg.rOff)))

/-- R35, R165, R170: a DRAW whose clean-up is not answered holds the first error, waits at index 17 with
`CS_R` outstanding, and has delivered no result. -/
def Obligations.DrawCleanupWaitsWithFirstError : Prop :=
  ∀ (s : State) (fb : List Pixel) (len : Nat) (pre post : List MicroOp) (m : MicroOp) (e : BusError)
    (n : Nat),
    s.busy = false → len = s.cfg.w * s.cfg.h → drawProg s.cfg fb = pre ++ m :: post → post ≠ [] →
    s.transport = List.replicate pre.length .ok ++ [.err e n] →
    ∃ t, exec (.draw fb len) s = .next t ∧ t.busy = true ∧ t.op = .draw ∧ t.upc = 17 ∧
      t.ferr = some e ∧ t.pending = some .csR ∧
      t.trace = s.trace ++ pre.map (okEvent s.cfg) ++ [errEvent s.cfg e m] ∧
      t.hostLog = s.hostLog ++ [.req .draw s.trace.length]

/-- R152, R151: what a DRAW does is a function of the configuration, the framebuffer and the answers, not
of history: a DRAW after a failed one, too, runs its whole program from index 0. That `upc` and `pix` are the
same while idle is the model's (entry 7). -/
def Obligations.DrawIndependentOfHistory : Prop :=
  ∀ (s s' : State) (fb : List Pixel) (len : Nat), s.busy = false → s'.busy = false → s'.cfg = s.cfg →
    s'.transport = s.transport → len = s.cfg.w * s.cfg.h →
    ∃ t t' events, exec (.draw fb len) s = .next t ∧ exec (.draw fb len) s' = .next t' ∧
      t.trace = s.trace ++ events ∧ t'.trace = s'.trace ++ events ∧ t'.busy = t.busy ∧
      t'.pending = t.pending ∧ t'.upc = t.upc ∧ t'.ferr = t.ferr ∧ t'.pix = t.pix ∧
      ∀ r, (.res r t.trace.length ∈ t.hostLog.drop s.hostLog.length ↔
        .res r t'.trace.length ∈ t'.hostLog.drop s'.hostLog.length)

/-- R147, R154: DRAW_PROG written out; 18 calls, all fallible. -/
def Obligations.DrawProgramWrittenOut : Prop :=
  ∀ (c : Cfg) (fb : List Pixel),
    drawProg c fb =
      [.csA, .dcC, .wr [c.opCaset], .dcD,
        .wr (be16 (BitVec.ofNat 16 c.cOff) ++ be16 (BitVec.ofNat 16 (c.w - 1 + c.cOff))), .csR,
        .csA, .dcC, .wr [c.opRaset], .dcD,
        .wr (be16 (BitVec.ofNat 16 c.rOff) ++ be16 (BitVec.ofNat 16 (c.h - 1 + c.rOff))), .csR,
        .csA, .dcC, .wr [c.opRamwr], .dcD, .wr (pixBytes c fb), .csR] ∧
    (drawProg c fb).length = 18 ∧ fallibleCount (drawProg c fb) = 18

/-- R146, R45: the payload is 2*W*H bytes; byte 2i is the high byte of pixel i, byte 2i+1 its low byte. -/
def Obligations.PayloadIsPixelsHighByteFirst : Prop :=
  ∀ (c : Cfg) (fb : List Pixel), fb.length = c.w * c.h →
    (pixBytes c fb).length = 2 * (c.w * c.h) ∧
    ∀ (i : Nat) (p : Pixel), fb[i]? = some p →
      (pixBytes c fb)[2 * i]? = some (BitVec.ofNat 8 (p.toNat / 256)) ∧
      (pixBytes c fb)[2 * i + 1]? = some (BitVec.ofNat 8 (p.toNat % 256))

/-- R42: row-major indexing and its converse. -/
def Obligations.FramebufferIsRowMajor : Prop :=
  ∀ (c : Cfg) (x y i : Nat),
    (x < c.w → y < c.h → fbIndex c x y = y * c.w + x ∧ fbIndex c x y < c.w * c.h ∧
      fbColumn c (fbIndex c x y) = x ∧ fbRow c (fbIndex c x y) = y) ∧
    (i < c.w * c.h → fbColumn c i < c.w ∧ fbRow c i < c.h ∧ fbIndex c (fbColumn c i) (fbRow c i) = i)

/-- R144, R23, R31: a DRAW never writes the reset latch or `ctrl`, whatever the answers; nor does any
step while it runs, in a state that meets the invariant. -/
def Obligations.DrawNeverTouchesResetOrStatus : Prop :=
  (∀ (s t : State) (fb : List Pixel) (len : Nat), exec (.draw fb len) s = .next t →
    t.rst = s.rst ∧ t.ctrl = s.ctrl) ∧
  (∀ s t : State, Inv s → s.busy = true → s.op = .draw → step s = .next t →
    t.rst = s.rst ∧ t.ctrl = s.ctrl)

/-- R50, R205: while a DRAW runs its framebuffer does not change; the result gives it back: the
field is empty then (entry 15). -/
def Obligations.FramebufferStableDuringDraw : Prop :=
  ∀ s t : State, s.busy = true → s.op = .draw → step s = .next t →
    (t.busy = true → t.fb = s.fb ∧ t.op = .draw) ∧ (t.busy = false → t.fb = [])

/-- R160, R74: an INIT delivers only OK or INIT_ERR(e), a DRAW only OK, DRAW_ERR(e) or LEN_ERR, in the step
that starts it and in every later one; and the error delivered is one of the answers used in that step, or
the first error the DRAW already held (R165), unchanged. -/
def Obligations.ResultsNameTheirOperation : Prop :=
  (∀ (s t : State) (r : Result BusError) (n : Nat), exec .init s = .next t →
    .res r n ∈ t.hostLog.drop s.hostLog.length →
    ∃ used, s.transport = used ++ t.transport ∧
      (r = .ok ∨ ∃ e k, r = .initErr e ∧ .err e k ∈ used)) ∧
  (∀ (s t : State) (fb : List Pixel) (len : Nat) (r : Result BusError) (n : Nat),
    exec (.draw fb len) s = .next t → .res r n ∈ t.hostLog.drop s.hostLog.length →
    ∃ used, s.transport = used ++ t.transport ∧
      (r = .ok ∨ (r = .lenErr ∧ len ≠ s.cfg.w * s.cfg.h) ∨ ∃ e k, r = .drawErr e ∧ .err e k ∈ used)) ∧
  (∀ (s t : State) (r : Result BusError) (n : Nat), Inv s → s.busy = true → step s = .next t →
    .res r n ∈ t.hostLog.drop s.hostLog.length →
    ∃ used, s.transport = used ++ t.transport ∧
      (r = .ok ∨ (s.op = .init ∧ ∃ e k, r = .initErr e ∧ .err e k ∈ used) ∨
        (s.op = .draw ∧ ∃ e, r = .drawErr e ∧ (s.ferr = some e ∨ ∃ k, .err e k ∈ used))))

/-- R206, R205, D28: an operation ends with exactly one result, provided every call is answered: the host
log gains the request record and one result of that operation (the records are entry 16). -/
def Obligations.AnsweredOperationEnds : Prop :=
  (∀ s : State, s.busy = false → fallibleCount (initProg s.cfg) ≤ s.transport.length →
    waitCount (initProg s.cfg) ≤ s.timing.length → (∀ r ∈ s.transport, r ≠ .silent) →
    (∀ k ∈ s.timing, k ≠ .silent) →
    ∃ t r, exec .init s = .next t ∧ t.busy = false ∧ t.pending = none ∧ (r = .ok ∨ ∃ e, r = .initErr e) ∧
      t.hostLog = s.hostLog ++ [.req .init s.trace.length, .res r t.trace.length]) ∧
  (∀ (s : State) (fb : List Pixel) (len : Nat), s.busy = false →
    18 ≤ s.transport.length → (∀ r ∈ s.transport, r ≠ .silent) →
    ∃ t r, exec (.draw fb len) s = .next t ∧ t.busy = false ∧
      (r = .ok ∨ r = .lenErr ∨ ∃ e, r = .drawErr e) ∧ (r = .lenErr ↔ len ≠ s.cfg.w * s.cfg.h) ∧
      t.hostLog = s.hostLog ++ [.req .draw s.trace.length, .res r t.trace.length])

/-! ### Framing and the wire -/

/-- R106 (a) to (e), of both programs and every valid configuration; R105: whatever the latches hold at
the start. -/
def Obligations.ProgramsKeepFraming : Prop :=
  ∀ (c : Cfg) (fb : List Pixel) (cs dc : Latch), c.valid = true →
    framing .closed none (initProg c) = true ∧ framing .closed none (drawProg c fb) = true ∧
    writesMet c cs dc (initProg c) = true ∧ writesMet c cs dc (drawProg c fb) = true

/-- R147, R69, R81: the wire view of a DRAW whose every call answers `Ok`, whatever the polarities. -/
def Obligations.WireViewOfDraw : Prop :=
  ∀ (E : Type) (c : Cfg) (fb : List Pixel) (cs dc : Latch),
    wireFrom c cs dc ((drawProg c fb).map (okEvent (E := E) c)) =
      [commandItem c.opCaset] ++
        dataItems (be16 (BitVec.ofNat 16 c.cOff) ++ be16 (BitVec.ofNat 16 (c.w - 1 + c.cOff))) ++
        [.groupEnd, commandItem c.opRaset] ++
        dataItems (be16 (BitVec.ofNat 16 c.rOff) ++ be16 (BitVec.ofNat 16 (c.h - 1 + c.rOff))) ++
        [.groupEnd, commandItem c.opRamwr] ++ dataItems (pixBytes c fb) ++ [.groupEnd]

/-- R134, R65, R66, R68: the wire view of an INIT whose every call is answered: one group per entry of the
table, in its order. -/
def Obligations.WireViewOfInit : Prop :=
  ∀ (E : Type) (c : Cfg) (cs dc : Latch),
    wireFrom c cs dc ((initProg c).map (okEvent (E := E) c)) =
      (([⟨c.opSwreset, [], c.tSwreset⟩, ⟨c.opSlpout, [], c.tSlpout⟩, ⟨c.opColmod, [c.colmodParam], 0⟩,
          ⟨c.opMadctl, [c.madctlParam], 0⟩] ++ c.tuning ++ [⟨c.opDispon, [], 0⟩] : List Entry).flatMap
        fun e => [commandItem e.op] ++ dataItems e.params ++ [.groupEnd])

/-! ### The controller's memory -/

/-- R57, R52, T30: with the controller READY, the default scan order (R56) and the three window opcodes
told apart (D2), a DRAW that ends OK leaves logical pixel (x, y) at PM[COFF+x][ROFF+y], and every cell
outside the window as it was. The sink model is from general knowledge (R55, R56; entry 8), entry 12 says
what of it rests on the tuning entries, and after a DRAW that failed inside a command or a parameter list
it rests on entry 13, that a command byte starts a new command (PRESUMED). -/
def Obligations.DrawStoresFramebuffer : Prop :=
  ∀ (s t : State) (fb : List Pixel), s.busy = false → s.cfg.valid = true → s.ctrl = .ready →
    s.cfg.madctlParam = 0x00 → s.cfg.opCaset ≠ s.cfg.opRaset → s.cfg.opCaset ≠ s.cfg.opRamwr →
    s.cfg.opRaset ≠ s.cfg.opRamwr → fb.length = s.cfg.w * s.cfg.h →
    s.transport.take 18 = List.replicate 18 .ok → exec (.draw fb fb.length) s = .next t →
    (∀ x y, x < s.cfg.w → y < s.cfg.h →
      pmRead t.ctl.pm (pmKey (s.cfg.cOff + x) (s.cfg.rOff + y)) = fb[y * s.cfg.w + x]?) ∧
    (∀ k, inWindow s.cfg k = false → pmRead t.ctl.pm k = pmRead s.ctl.pm k)

/-- R57, R53, K10: whatever the answers, a DRAW writes no cell outside its window, in the step that starts it
and in every later step while it runs (there under the invariant, which says where the window and the
pointer stand); and when it ends DRAW_ERR no cell of the window has a value. It rests on the sink model
(entry 8, PRESUMED), on a command byte starting a new command (entry 13, PRESUMED) and on the tuning entries
changing neither addressing nor pixel format (entry 12, PRESUMED, K24); "no value" is the model's form of
"unspecified" (entry 9); elsewhere nothing is claimed of the controller (entry 11), and while a write is
outstanding it stands as before (entry 23). -/
def Obligations.DrawWritesOnlyItsWindow : Prop :=
  (∀ (s t : State) (fb : List Pixel) (len : Nat), exec (.draw fb len) s = .next t →
    (s.cfg.valid = true → s.ctrl = .ready → s.cfg.madctlParam = 0x00 → s.cfg.opCaset ≠ s.cfg.opRaset →
      s.cfg.opCaset ≠ s.cfg.opRamwr → s.cfg.opRaset ≠ s.cfg.opRamwr →
      ∀ k, inWindow s.cfg k = false → pmRead t.ctl.pm k = pmRead s.ctl.pm k) ∧
    (∀ e n k, t.busy = false → t.hostLog.getLast? = some (.res (.drawErr e) n) →
      inWindow s.cfg k = true → pmRead t.ctl.pm k = none)) ∧
  (∀ s t : State, Inv s → s.busy = true → s.op = .draw → step s = .next t →
    (∀ k, inWindow s.cfg k = false → pmRead t.ctl.pm k = pmRead s.ctl.pm k) ∧
    (∀ e n k, t.busy = false → t.hostLog.getLast? = some (.res (.drawErr e) n) →
      inWindow s.cfg k = true → pmRead t.ctl.pm k = none))

/-- R52, R115: every mapped coordinate lies inside PM, and in the window. -/
def Obligations.MappedPixelsLieInside : Prop :=
  ∀ (c : Cfg) (x y : Nat), c.valid = true → x < c.w → y < c.h →
    physColumn c x = c.cOff + x ∧ physRow c y = c.rOff + y ∧ physColumn c x < 240 ∧ physRow c y < 320 ∧
      inWindow c (pmKey (physColumn c x) (physRow c y)) = true

/-! ### Frames -/

/-- R125 to R130: what a command of INIT leaves unchanged, whatever the answers: the reset line, the
configuration, the pixel index, the framebuffer while the operation goes on, the host's requests; and
while the operation goes on, `ctrl`, the error register and the host log. Of the controller it leaves
nothing known (K13, K14, K24; entry 11): no cell of its memory gets a value, and if the command's fault ended
the INIT (R164) none has one; no free value is drawn twice. What `op` and `pix` are when it ended the INIT is
the model's (entry 7). -/
def Obligations.InitCommandsFrame : Prop :=
  ∀ (s t : State) (i : Instr), s.op = .init →
    (i = .swreset ∨ i = .slpout ∨ i = .colmod ∨ i = .madctl ∨ i = .dispon ∨
      ∃ op params d, i = .tuning op params d) →
    exec i s = .next t →
    t.rst = s.rst ∧ t.cfg = s.cfg ∧ t.pix = s.pix ∧ t.host = s.host ∧ t.op = s.op ∧ s.fresh ≤ t.fresh ∧
      ((∀ k, pmRead t.ctl.pm k = pmRead s.ctl.pm k) ∨ ∀ k, pmRead t.ctl.pm k = none) ∧
      (t.busy = true → t.fb = s.fb ∧ t.ctrl = s.ctrl ∧ t.ferr = s.ferr ∧ t.hostLog = s.hostLog) ∧
      (t.busy = false → ∀ k, pmRead t.ctl.pm k = none)

/-- R112 to R114: what CASET, RASET and RAMWR leave unchanged, whatever the answers: the reset line,
`ctrl`, the configuration, the timing source, the host's requests, the framebuffer while the DRAW goes on.
Where the spec gives the controller (entries 8, 12) every cell of its memory reads as before, but that a
command that fails leaves the window without values (R57, entry 28). That this holds of a controller in the
middle of a command too, with half a pixel received, rests on a command byte starting a new command (K13, K26;
entry 13, PRESUMED). Elsewhere no cell gets a value (R153, entry 11); while a write is outstanding the
controller stands as before (entry 23). No free value is drawn twice. What `op` is when a fault ended the DRAW is the model's (entry 7). -/
def Obligations.DrawCommandsFrame : Prop :=
  ∀ (s t : State) (i : Instr), s.op = .draw →
    ((∃ xs xe, i = .caset xs xe) ∨ (∃ ys ye, i = .raset ys ye) ∨ i = .ramwr) →
    exec i s = .next t →
    t.rst = s.rst ∧ t.ctrl = s.ctrl ∧ t.cfg = s.cfg ∧ t.timing = s.timing ∧ t.host = s.host ∧
      s.fresh ≤ t.fresh ∧ t.op = s.op ∧ (t.busy = true → t.fb = s.fb ∧ t.hostLog = s.hostLog) ∧
      (controllerKnown s = true →
        ∀ k, (t.busy = true ∧ t.ferr = none) ∨ inWindow s.cfg k = false →
          pmRead t.ctl.pm k = pmRead s.ctl.pm k) ∧
      (controllerKnown s = false →
        ∀ k, pmRead t.ctl.pm k = pmRead s.ctl.pm k ∨ pmRead t.ctl.pm k = none)

/-- R135, R144: what the two operations leave unchanged, whatever the answers: INIT the configuration, the
pixel index and the host's further requests; DRAW the configuration, the reset line, `ctrl`, the delays'
replies and the host's further requests. After an INIT no cell of the controller's memory has a value
(entry 11); DRAW's memory is in DrawWritesOnlyItsWindow. No free value is drawn twice. That INIT leaves
`pix` as it was is the model's (entry 7). -/
def Obligations.OperationsFrame : Prop :=
  ∀ s t : State,
    (exec .init s = .next t → t.cfg = s.cfg ∧ t.pix = s.pix ∧ t.host = s.host ∧ s.fresh ≤ t.fresh ∧
      ∀ k, pmRead t.ctl.pm k = none) ∧
    (∀ fb len, exec (.draw fb len) s = .next t → t.cfg = s.cfg ∧ t.rst = s.rst ∧ t.ctrl = s.ctrl ∧
      t.timing = s.timing ∧ t.host = s.host ∧ s.fresh ≤ t.fresh)

/-! ### Encodings -/

/-- R65 to R70, R73: the words of an instruction decode to it, with every operand: at the host port, and
on the wire with any bytes after it that begin a new command. The post-delay of a tuning entry is not on
the wire; its opcode is none of the structural ones, which are told apart (D2, R79; entry 19). -/
def Obligations.EncodeThenDecode : Prop :=
  ∀ (c : Cfg) (i : Instr), c.distinctOps = true → i.unambiguous c = true →
    decode c (encode c i) = .ok (i.onWire, []) ∧
    ∀ bytes rest, encode c i = .wire bytes → rest.head?.map TaggedByte.tag ≠ some .d →
      decodeWire c (bytes ++ rest) = .ok (i.onWire, rest)

/-- R70, R71, R73: a few words written out from the spec's tables decode to what they stand for. The opcodes
and the parameter byte are the spec's defaults, which it marks as from general knowledge (entry 2,
PRESUMED). -/
def Obligations.WordsDecodeAsTheSpecSays : Prop :=
  decodeRequest ⟨0x01, [], 0⟩ = .ok .init ∧ decodeRequest ⟨0x02, [0xF800], 1⟩ = .ok (.draw [0xF800] 1) ∧
    decodeWire Cfg.ref [⟨.c, 0x11⟩] = .ok (.slpout, []) ∧
    decodeWire Cfg.ref [⟨.c, 0x3A⟩, ⟨.d, 0x55⟩] = .ok (.colmod, []) ∧
    decodeWire Cfg.ref [⟨.c, 0x2B⟩, ⟨.d, 0x00⟩, ⟨.d, 0x28⟩, ⟨.d, 0x01⟩, ⟨.d, 0x3F⟩, ⟨.c, 0x2C⟩] =
      .ok (.raset 40 319, [⟨.c, 0x2C⟩])

/-- R74, R158: the codes of the four results, and their payload, the transport's error unchanged, whatever
the error type (R15). -/
def Obligations.ResultCodes : Prop :=
  ∀ (E : Type) (e : E),
    resultCode (E := E) .ok = 0 ∧ resultCode (.initErr e) = 1 ∧ resultCode (.drawErr e) = 2 ∧
      resultCode (E := E) .lenErr = 3 ∧ resultPayload (E := E) .ok = none ∧
      resultPayload (.initErr e) = some e ∧ resultPayload (.drawErr e) = some e ∧
      resultPayload (E := E) .lenErr = none
end

