-- ==== Sys2Proof/Laws/Memory.lean ====
section
/-! SUPPORT. The pixel memory: a read after a write, and that every operation keeps the canonical form. -/

namespace Sys2Proof.Machine

/-- Every listed key is at least `k`. -/
theorem pmWf_tail {a : Nat × Pixel} {pm : List (Nat × Pixel)} (h : pmWf (a :: pm) = true) : pmWf pm = true := by
  cases pm with
  | nil => rfl
  | cons b rest => simp [pmWf] at h; exact h.2

/-- In canonical form the first key is below every later one. -/
theorem pmWf_head_lt {a : Nat × Pixel} {pm : List (Nat × Pixel)} (h : pmWf (a :: pm) = true) :
    ∀ b ∈ pm, a.1 < b.1 := by
  induction pm generalizing a with
  | nil => simp
  | cons b rest ih =>
    obtain ⟨hab, hb⟩ : a.1 < b.1 ∧ pmWf (b :: rest) = true := by simpa [pmWf] using h
    intro c hc
    rcases List.mem_cons.mp hc with rfl | hc
    · exact hab
    · exact hab.trans (ih hb c hc)

/-- In canonical form every key is inside the native area. -/
theorem pmWf_lt_area {pm : List (Nat × Pixel)} (h : pmWf pm = true) :
    ∀ b ∈ pm, b.1 < Cfg.pw * Cfg.ph := by
  induction pm with
  | nil => simp
  | cons a rest ih =>
    intro c hc
    rcases List.mem_cons.mp hc with rfl | hc
    · cases rest with
      | nil => simpa [pmWf] using h
      | cons b rest =>
        have := ih (pmWf_tail h) b (by simp)
        exact (pmWf_head_lt h b (by simp)).trans this
    · exact ih (pmWf_tail h) c hc

/-- Canonical form from the order of the keys and the bound on each. -/
theorem pmWf_cons {a : Nat × Pixel} {pm : List (Nat × Pixel)} (ha : a.1 < Cfg.pw * Cfg.ph)
    (hlt : ∀ b ∈ pm, a.1 < b.1) (h : pmWf pm = true) : pmWf (a :: pm) = true := by
  cases pm with
  | nil => simpa [pmWf] using ha
  | cons b rest => simp [pmWf, hlt b (by simp), h]

/-- The keys a write leaves: the old ones and the one written. -/
theorem mem_pmWrite {pm : List (Nat × Pixel)} {k : Nat} {p : Pixel} {b : Nat × Pixel}
    (h : b ∈ pmWrite pm k p) : b = (k, p) ∨ b ∈ pm := by
  induction pm with
  | nil => simpa [pmWrite] using h
  | cons a rest ih =>
    obtain ⟨a, q⟩ := a
    unfold pmWrite at h
    split at h
    · simpa using h
    · split at h
      · rcases List.mem_cons.mp h with h | h
        · exact .inl h
        · exact .inr (List.mem_cons_of_mem _ h)
      · rcases List.mem_cons.mp h with h | h
        · exact .inr (h ▸ List.mem_cons_self ..)
        · exact (ih h).imp_right (List.mem_cons_of_mem _)

/-- A write inside the native area keeps the canonical form. -/
theorem pmWf_pmWrite {pm : List (Nat × Pixel)} (h : pmWf pm = true) {k : Nat}
    (hk : k < Cfg.pw * Cfg.ph) (p : Pixel) : pmWf (pmWrite pm k p) = true := by
  induction pm with
  | nil => simpa [pmWrite, pmWf] using hk
  | cons a rest ih =>
    obtain ⟨a, q⟩ := a
    unfold pmWrite
    split
    · next hlt =>
      refine pmWf_cons hk (fun b hb => ?_) h
      rcases List.mem_cons.mp hb with rfl | hb
      · exact hlt
      · exact hlt.trans (pmWf_head_lt h b hb)
    · split
      · next heq =>
        subst heq
        exact pmWf_cons hk (fun b hb => pmWf_head_lt h b hb) (pmWf_tail h)
      · next hlt hne =>
        refine pmWf_cons (pmWf_lt_area h _ (by simp)) (fun b hb => ?_) (ih (pmWf_tail h))
        rcases mem_pmWrite hb with rfl | hb
        · show a < k
          omega
        · exact pmWf_head_lt h b hb

/-- Forgetting cells keeps the canonical form. -/
theorem pmWf_filter {pm : List (Nat × Pixel)} (h : pmWf pm = true) (f : Nat × Pixel → Bool) :
    pmWf (pm.filter f) = true := by
  induction pm with
  | nil => rfl
  | cons a rest ih =>
    have ih := ih (pmWf_tail h)
    by_cases hf : f a
    · rw [List.filter_cons_of_pos hf]
      exact pmWf_cons (pmWf_lt_area h a (by simp))
        (fun b hb => pmWf_head_lt h b (List.mem_filter.mp hb).1) ih
    · rw [List.filter_cons_of_neg hf]
      exact ih

/-- A read after a write to the same cell gives the pixel written. -/
@[simp] theorem pmRead_pmWrite_same (pm : List (Nat × Pixel)) (k : Nat) (p : Pixel) :
    pmRead (pmWrite pm k p) k = some p := by
  induction pm with
  | nil => simp [pmWrite, pmRead]
  | cons a rest ih =>
    obtain ⟨a, q⟩ := a
    unfold pmWrite
    split
    · simp [pmRead]
    · split
      · simp [pmRead]
      · next hne => simp [pmRead, ih, Ne.symm hne]

/-- A write leaves every other cell alone. -/
theorem pmRead_pmWrite_other (pm : List (Nat × Pixel)) {k j : Nat} (p : Pixel) (hj : j ≠ k) :
    pmRead (pmWrite pm k p) j = pmRead pm j := by
  induction pm with
  | nil => simp [pmWrite, pmRead, hj.symm]
  | cons a rest ih =>
    obtain ⟨a, q⟩ := a
    unfold pmWrite
    split
    · simp [pmRead, hj.symm]
    · split
      · next heq => subst heq; simp [pmRead, hj.symm]
      · simp [pmRead, ih]

/-- A cell that is not forgotten reads as before. -/
theorem pmRead_filter_keep (pm : List (Nat × Pixel)) (f : Nat → Bool) {k : Nat} (hk : f k = true) :
    pmRead (pm.filter fun cell => f cell.1) k = pmRead pm k := by
  induction pm with
  | nil => rfl
  | cons a rest ih =>
    obtain ⟨a, q⟩ := a
    by_cases ha : a = k
    · subst ha; simp [hk, pmRead]
    · by_cases hf : f a <;> simp [hf, pmRead, ha, ih]

/-- A forgotten cell has no value. -/
theorem pmRead_filter_drop (pm : List (Nat × Pixel)) (f : Nat → Bool) {k : Nat} (hk : f k = false) :
    pmRead (pm.filter fun cell => f cell.1) k = none := by
  induction pm with
  | nil => rfl
  | cons a rest ih =>
    obtain ⟨a, q⟩ := a
    by_cases hf : f a
    · have : a ≠ k := fun h => by subst h; simp_all
      simp [hf, pmRead, this, ih]
    · simp [hf, ih]

/-- Advancing the pointer does not touch the memory. -/
@[simp] theorem advancePointer_pm (k : Controller) : (advancePointer k).pm = k.pm := by
  unfold advancePointer; split <;> rfl

/-- Storing a pixel keeps the canonical form. -/
theorem pmWf_storePixel {k : Controller} (h : pmWf k.pm = true) (p : Pixel) :
    pmWf (storePixel p k).pm = true := by
  unfold storePixel
  split
  · next hr =>
    rw [advancePointer_pm]
    refine pmWf_pmWrite h ?_ p
    unfold pmKey Cfg.pw Cfg.ph at *
    omega
  · simpa using h

/-- A command byte stores no pixel, whichever command it is (R55, R56). -/
@[simp] theorem sinkCommand_pm (c : Cfg) (n : Nat) (op : Byte) (k : Controller) :
    (sinkCommand c n op k).pm = k.pm := by
  unfold sinkCommand; split <;> rfl

@[simp] theorem unsettle_pm (column row pixels : Bool) (n : Nat) (k : Controller) :
    (unsettle column row pixels n k).pm = k.pm := rfl

/-- Every byte that reaches the controller keeps the canonical form. -/
theorem pmWf_sinkByte {k : Controller} (h : pmWf k.pm = true) (c : Cfg) (n : Nat) (tag : Tag) (b : Byte) :
    pmWf (sinkByte c n tag k b).pm = true := by
  cases tag with
  | c => simpa [sinkByte] using h
  | d =>
    simp only [sinkByte, sinkData]
    split
    all_goals first
      | simpa using h
      | exact pmWf_storePixel (k := { k with args := [] }) h _

/-- Every write that reaches the controller keeps the canonical form. -/
theorem pmWf_sinkBytes {k : Controller} (h : pmWf k.pm = true) (c : Cfg) (n : Nat) (tag : Tag)
    (bytes : List Byte) : pmWf (sinkBytes c n tag bytes k).pm = true := by
  unfold sinkBytes
  induction bytes generalizing k with
  | nil => exact h
  | cons b rest ih => exact ih (pmWf_sinkByte h c n tag b)

/-- What is claimed of PM is in canonical form. -/
theorem pmWf_claimedPm {k : Controller} (h : pmWf k.pm = true) (c : Cfg) : pmWf (claimedPm c k).pm = true := by
  unfold claimedPm; split
  · exact h
  · rfl

end Sys2Proof.Machine
end

