-- ==== Sys2Proof/Laws/State.lean ====
section
/-! SUPPORT. One lemma per field and per plain update of the state, so that no later proof unfolds a
record update. -/

namespace Sys2Proof.Machine

variable {E : Type} (s : State.Over E)

/-! The fields after `appendEvent`. -/

@[simp] theorem appendEvent_cfg (ev : Event E) : (appendEvent ev s).cfg = s.cfg := rfl
@[simp] theorem appendEvent_cs (ev : Event E) : (appendEvent ev s).cs = s.cs := rfl
@[simp] theorem appendEvent_dc (ev : Event E) : (appendEvent ev s).dc = s.dc := rfl
@[simp] theorem appendEvent_rst (ev : Event E) : (appendEvent ev s).rst = s.rst := rfl
@[simp] theorem appendEvent_busy (ev : Event E) : (appendEvent ev s).busy = s.busy := rfl
@[simp] theorem appendEvent_op (ev : Event E) : (appendEvent ev s).op = s.op := rfl
@[simp] theorem appendEvent_upc (ev : Event E) : (appendEvent ev s).upc = s.upc := rfl
@[simp] theorem appendEvent_pending (ev : Event E) : (appendEvent ev s).pending = s.pending := rfl
@[simp] theorem appendEvent_ferr (ev : Event E) : (appendEvent ev s).ferr = s.ferr := rfl
@[simp] theorem appendEvent_pix (ev : Event E) : (appendEvent ev s).pix = s.pix := rfl
@[simp] theorem appendEvent_fb (ev : Event E) : (appendEvent ev s).fb = s.fb := rfl
@[simp] theorem appendEvent_trace (ev : Event E) : (appendEvent ev s).trace = s.trace ++ [ev] := rfl
@[simp] theorem appendEvent_ctrl (ev : Event E) : (appendEvent ev s).ctrl = s.ctrl := rfl
@[simp] theorem appendEvent_ctl (ev : Event E) : (appendEvent ev s).ctl = s.ctl := rfl
@[simp] theorem appendEvent_hostLog (ev : Event E) : (appendEvent ev s).hostLog = s.hostLog := rfl
@[simp] theorem appendEvent_host (ev : Event E) : (appendEvent ev s).host = s.host := rfl
@[simp] theorem appendEvent_transport (ev : Event E) : (appendEvent ev s).transport = s.transport := rfl
@[simp] theorem appendEvent_timing (ev : Event E) : (appendEvent ev s).timing = s.timing := rfl
@[simp] theorem appendEvent_fresh (ev : Event E) : (appendEvent ev s).fresh = s.fresh := rfl

/-! The fields after `issue`. -/

@[simp] theorem issue_cfg (m : MicroOp) : (issue m s).cfg = s.cfg := rfl
@[simp] theorem issue_cs (m : MicroOp) : (issue m s).cs = s.cs := rfl
@[simp] theorem issue_dc (m : MicroOp) : (issue m s).dc = s.dc := rfl
@[simp] theorem issue_rst (m : MicroOp) : (issue m s).rst = s.rst := rfl
@[simp] theorem issue_busy (m : MicroOp) : (issue m s).busy = s.busy := rfl
@[simp] theorem issue_op (m : MicroOp) : (issue m s).op = s.op := rfl
@[simp] theorem issue_upc (m : MicroOp) : (issue m s).upc = s.upc := rfl
@[simp] theorem issue_pending (m : MicroOp) : (issue m s).pending = some m := rfl
@[simp] theorem issue_ferr (m : MicroOp) : (issue m s).ferr = s.ferr := rfl
@[simp] theorem issue_pix (m : MicroOp) : (issue m s).pix = s.pix := rfl
@[simp] theorem issue_fb (m : MicroOp) : (issue m s).fb = s.fb := rfl
@[simp] theorem issue_trace (m : MicroOp) : (issue m s).trace = s.trace := rfl
@[simp] theorem issue_ctrl (m : MicroOp) : (issue m s).ctrl = s.ctrl := rfl
@[simp] theorem issue_ctl (m : MicroOp) : (issue m s).ctl = s.ctl := rfl
@[simp] theorem issue_hostLog (m : MicroOp) : (issue m s).hostLog = s.hostLog := rfl
@[simp] theorem issue_host (m : MicroOp) : (issue m s).host = s.host := rfl
@[simp] theorem issue_transport (m : MicroOp) : (issue m s).transport = s.transport := rfl
@[simp] theorem issue_timing (m : MicroOp) : (issue m s).timing = s.timing := rfl
@[simp] theorem issue_fresh (m : MicroOp) : (issue m s).fresh = s.fresh := rfl

/-! The fields after `advance`. -/

@[simp] theorem advance_cfg : (advance s).cfg = s.cfg := rfl
@[simp] theorem advance_cs : (advance s).cs = s.cs := rfl
@[simp] theorem advance_dc : (advance s).dc = s.dc := rfl
@[simp] theorem advance_rst : (advance s).rst = s.rst := rfl
@[simp] theorem advance_busy : (advance s).busy = s.busy := rfl
@[simp] theorem advance_op : (advance s).op = s.op := rfl
@[simp] theorem advance_upc : (advance s).upc = s.upc + 1 := rfl
@[simp] theorem advance_pending : (advance s).pending = s.pending := rfl
@[simp] theorem advance_ferr : (advance s).ferr = s.ferr := rfl
@[simp] theorem advance_pix : (advance s).pix = s.pix := rfl
@[simp] theorem advance_fb : (advance s).fb = s.fb := rfl
@[simp] theorem advance_trace : (advance s).trace = s.trace := rfl
@[simp] theorem advance_ctrl : (advance s).ctrl = s.ctrl := rfl
@[simp] theorem advance_ctl : (advance s).ctl = s.ctl := rfl
@[simp] theorem advance_hostLog : (advance s).hostLog = s.hostLog := rfl
@[simp] theorem advance_host : (advance s).host = s.host := rfl
@[simp] theorem advance_transport : (advance s).transport = s.transport := rfl
@[simp] theorem advance_timing : (advance s).timing = s.timing := rfl
@[simp] theorem advance_fresh : (advance s).fresh = s.fresh := rfl

/-! The fields after `respond`. -/

@[simp] theorem respond_cfg (r : Result E) : (respond r s).cfg = s.cfg := rfl
@[simp] theorem respond_cs (r : Result E) : (respond r s).cs = s.cs := rfl
@[simp] theorem respond_dc (r : Result E) : (respond r s).dc = s.dc := rfl
@[simp] theorem respond_rst (r : Result E) : (respond r s).rst = s.rst := rfl
@[simp] theorem respond_busy (r : Result E) : (respond r s).busy = false := rfl
@[simp] theorem respond_op (r : Result E) : (respond r s).op = s.op := rfl
@[simp] theorem respond_upc (r : Result E) : (respond r s).upc = s.upc := rfl
@[simp] theorem respond_pending (r : Result E) : (respond r s).pending = none := rfl
@[simp] theorem respond_ferr (r : Result E) : (respond r s).ferr = none := rfl
@[simp] theorem respond_pix (r : Result E) : (respond r s).pix = s.pix := rfl
@[simp] theorem respond_fb (r : Result E) : (respond r s).fb = [] := rfl
@[simp] theorem respond_trace (r : Result E) : (respond r s).trace = s.trace := rfl
@[simp] theorem respond_ctrl (r : Result E) : (respond r s).ctrl = s.ctrl := rfl
@[simp] theorem respond_ctl (r : Result E) : (respond r s).ctl = s.ctl := rfl
@[simp] theorem respond_hostLog (r : Result E) : (respond r s).hostLog = s.hostLog ++ [.res r s.trace.length] := rfl
@[simp] theorem respond_host (r : Result E) : (respond r s).host = s.host := rfl
@[simp] theorem respond_transport (r : Result E) : (respond r s).transport = s.transport := rfl
@[simp] theorem respond_timing (r : Result E) : (respond r s).timing = s.timing := rfl
@[simp] theorem respond_fresh (r : Result E) : (respond r s).fresh = s.fresh := rfl

/-! The fields after `controllerUnknown`. -/

@[simp] theorem controllerUnknown_cfg : (controllerUnknown s).cfg = s.cfg := rfl
@[simp] theorem controllerUnknown_cs : (controllerUnknown s).cs = s.cs := rfl
@[simp] theorem controllerUnknown_dc : (controllerUnknown s).dc = s.dc := rfl
@[simp] theorem controllerUnknown_rst : (controllerUnknown s).rst = s.rst := rfl
@[simp] theorem controllerUnknown_busy : (controllerUnknown s).busy = s.busy := rfl
@[simp] theorem controllerUnknown_op : (controllerUnknown s).op = s.op := rfl
@[simp] theorem controllerUnknown_upc : (controllerUnknown s).upc = s.upc := rfl
@[simp] theorem controllerUnknown_pending : (controllerUnknown s).pending = s.pending := rfl
@[simp] theorem controllerUnknown_ferr : (controllerUnknown s).ferr = s.ferr := rfl
@[simp] theorem controllerUnknown_pix : (controllerUnknown s).pix = s.pix := rfl
@[simp] theorem controllerUnknown_fb : (controllerUnknown s).fb = s.fb := rfl
@[simp] theorem controllerUnknown_trace : (controllerUnknown s).trace = s.trace := rfl
@[simp] theorem controllerUnknown_ctrl : (controllerUnknown s).ctrl = s.ctrl := rfl
@[simp] theorem controllerUnknown_ctl : (controllerUnknown s).ctl = scrambled s.fresh := rfl
@[simp] theorem controllerUnknown_hostLog : (controllerUnknown s).hostLog = s.hostLog := rfl
@[simp] theorem controllerUnknown_host : (controllerUnknown s).host = s.host := rfl
@[simp] theorem controllerUnknown_transport : (controllerUnknown s).transport = s.transport := rfl
@[simp] theorem controllerUnknown_timing : (controllerUnknown s).timing = s.timing := rfl
@[simp] theorem controllerUnknown_fresh : (controllerUnknown s).fresh = s.fresh + 6 := rfl

/-! The fields after `windowLost`. -/

@[simp] theorem windowLost_cfg : (windowLost s).cfg = s.cfg := rfl
@[simp] theorem windowLost_cs : (windowLost s).cs = s.cs := rfl
@[simp] theorem windowLost_dc : (windowLost s).dc = s.dc := rfl
@[simp] theorem windowLost_rst : (windowLost s).rst = s.rst := rfl
@[simp] theorem windowLost_busy : (windowLost s).busy = s.busy := rfl
@[simp] theorem windowLost_op : (windowLost s).op = s.op := rfl
@[simp] theorem windowLost_upc : (windowLost s).upc = s.upc := rfl
@[simp] theorem windowLost_pending : (windowLost s).pending = s.pending := rfl
@[simp] theorem windowLost_ferr : (windowLost s).ferr = s.ferr := rfl
@[simp] theorem windowLost_pix : (windowLost s).pix = s.pix := rfl
@[simp] theorem windowLost_fb : (windowLost s).fb = s.fb := rfl
@[simp] theorem windowLost_trace : (windowLost s).trace = s.trace := rfl
@[simp] theorem windowLost_ctrl : (windowLost s).ctrl = s.ctrl := rfl
@[simp] theorem windowLost_hostLog : (windowLost s).hostLog = s.hostLog := rfl
@[simp] theorem windowLost_host : (windowLost s).host = s.host := rfl
@[simp] theorem windowLost_transport : (windowLost s).transport = s.transport := rfl
@[simp] theorem windowLost_timing : (windowLost s).timing = s.timing := rfl
@[simp] theorem windowLost_ctl : (windowLost s).ctl = forgetWindow s.cfg s.ctl := rfl
@[simp] theorem windowLost_fresh : (windowLost s).fresh = s.fresh := rfl

/-! The fields after `commandCut`. -/

@[simp] theorem commandCut_cfg : (commandCut s).cfg = s.cfg := rfl
@[simp] theorem commandCut_cs : (commandCut s).cs = s.cs := rfl
@[simp] theorem commandCut_dc : (commandCut s).dc = s.dc := rfl
@[simp] theorem commandCut_rst : (commandCut s).rst = s.rst := rfl
@[simp] theorem commandCut_busy : (commandCut s).busy = s.busy := rfl
@[simp] theorem commandCut_op : (commandCut s).op = s.op := rfl
@[simp] theorem commandCut_upc : (commandCut s).upc = s.upc := rfl
@[simp] theorem commandCut_pending : (commandCut s).pending = s.pending := rfl
@[simp] theorem commandCut_ferr : (commandCut s).ferr = s.ferr := rfl
@[simp] theorem commandCut_pix : (commandCut s).pix = s.pix := rfl
@[simp] theorem commandCut_fb : (commandCut s).fb = s.fb := rfl
@[simp] theorem commandCut_trace : (commandCut s).trace = s.trace := rfl
@[simp] theorem commandCut_ctrl : (commandCut s).ctrl = s.ctrl := rfl
@[simp] theorem commandCut_hostLog : (commandCut s).hostLog = s.hostLog := rfl
@[simp] theorem commandCut_host : (commandCut s).host = s.host := rfl
@[simp] theorem commandCut_transport : (commandCut s).transport = s.transport := rfl
@[simp] theorem commandCut_timing : (commandCut s).timing = s.timing := rfl
@[simp] theorem commandCut_pm : (commandCut s).ctl.pm = s.ctl.pm := rfl
@[simp] theorem commandCut_fresh : (commandCut s).fresh = s.fresh + 6 := rfl

/-! The fields after `abandon`: only the controller's registers and the count of free values can change. -/

@[simp] theorem abandon_cfg (m : MicroOp) (sent : Nat) : (abandon m sent s).cfg = s.cfg := by
  unfold abandon; split <;> rfl
@[simp] theorem abandon_cs (m : MicroOp) (sent : Nat) : (abandon m sent s).cs = s.cs := by
  unfold abandon; split <;> rfl
@[simp] theorem abandon_dc (m : MicroOp) (sent : Nat) : (abandon m sent s).dc = s.dc := by
  unfold abandon; split <;> rfl
@[simp] theorem abandon_rst (m : MicroOp) (sent : Nat) : (abandon m sent s).rst = s.rst := by
  unfold abandon; split <;> rfl
@[simp] theorem abandon_busy (m : MicroOp) (sent : Nat) : (abandon m sent s).busy = s.busy := by
  unfold abandon; split <;> rfl
@[simp] theorem abandon_op (m : MicroOp) (sent : Nat) : (abandon m sent s).op = s.op := by
  unfold abandon; split <;> rfl
@[simp] theorem abandon_upc (m : MicroOp) (sent : Nat) : (abandon m sent s).upc = s.upc := by
  unfold abandon; split <;> rfl
@[simp] theorem abandon_pending (m : MicroOp) (sent : Nat) : (abandon m sent s).pending = s.pending := by
  unfold abandon; split <;> rfl
@[simp] theorem abandon_ferr (m : MicroOp) (sent : Nat) : (abandon m sent s).ferr = s.ferr := by
  unfold abandon; split <;> rfl
@[simp] theorem abandon_pix (m : MicroOp) (sent : Nat) : (abandon m sent s).pix = s.pix := by
  unfold abandon; split <;> rfl
@[simp] theorem abandon_fb (m : MicroOp) (sent : Nat) : (abandon m sent s).fb = s.fb := by
  unfold abandon; split <;> rfl
@[simp] theorem abandon_trace (m : MicroOp) (sent : Nat) : (abandon m sent s).trace = s.trace := by
  unfold abandon; split <;> rfl
@[simp] theorem abandon_ctrl (m : MicroOp) (sent : Nat) : (abandon m sent s).ctrl = s.ctrl := by
  unfold abandon; split <;> rfl
@[simp] theorem abandon_hostLog (m : MicroOp) (sent : Nat) : (abandon m sent s).hostLog = s.hostLog := by
  unfold abandon; split <;> rfl
@[simp] theorem abandon_host (m : MicroOp) (sent : Nat) : (abandon m sent s).host = s.host := by
  unfold abandon; split <;> rfl
@[simp] theorem abandon_transport (m : MicroOp) (sent : Nat) : (abandon m sent s).transport = s.transport := by
  unfold abandon; split <;> rfl
@[simp] theorem abandon_timing (m : MicroOp) (sent : Nat) : (abandon m sent s).timing = s.timing := by
  unfold abandon; split <;> rfl
@[simp] theorem abandon_pm (m : MicroOp) (sent : Nat) : (abandon m sent s).ctl.pm = s.ctl.pm := by
  unfold abandon; split <;> rfl
theorem abandon_fresh_le (m : MicroOp) (sent : Nat) : s.fresh ≤ (abandon m sent s).fresh := by
  unfold abandon; split <;> simp

/-! The fields after `controllerReacts`. -/

@[simp] theorem controllerReacts_cfg : (controllerReacts s).cfg = s.cfg := by unfold controllerReacts; split <;> rfl
@[simp] theorem controllerReacts_cs : (controllerReacts s).cs = s.cs := by unfold controllerReacts; split <;> rfl
@[simp] theorem controllerReacts_dc : (controllerReacts s).dc = s.dc := by unfold controllerReacts; split <;> rfl
@[simp] theorem controllerReacts_rst : (controllerReacts s).rst = s.rst := by unfold controllerReacts; split <;> rfl
@[simp] theorem controllerReacts_busy : (controllerReacts s).busy = s.busy := by unfold controllerReacts; split <;> rfl
@[simp] theorem controllerReacts_op : (controllerReacts s).op = s.op := by unfold controllerReacts; split <;> rfl
@[simp] theorem controllerReacts_upc : (controllerReacts s).upc = s.upc := by unfold controllerReacts; split <;> rfl
@[simp] theorem controllerReacts_pending : (controllerReacts s).pending = s.pending := by unfold controllerReacts; split <;> rfl
@[simp] theorem controllerReacts_ferr : (controllerReacts s).ferr = s.ferr := by unfold controllerReacts; split <;> rfl
@[simp] theorem controllerReacts_pix : (controllerReacts s).pix = s.pix := by unfold controllerReacts; split <;> rfl
@[simp] theorem controllerReacts_fb : (controllerReacts s).fb = s.fb := by unfold controllerReacts; split <;> rfl
@[simp] theorem controllerReacts_trace : (controllerReacts s).trace = s.trace := by unfold controllerReacts; split <;> rfl
@[simp] theorem controllerReacts_ctrl : (controllerReacts s).ctrl = s.ctrl := by unfold controllerReacts; split <;> rfl
@[simp] theorem controllerReacts_hostLog : (controllerReacts s).hostLog = s.hostLog := by unfold controllerReacts; split <;> rfl
@[simp] theorem controllerReacts_host : (controllerReacts s).host = s.host := by unfold controllerReacts; split <;> rfl
@[simp] theorem controllerReacts_transport : (controllerReacts s).transport = s.transport := by unfold controllerReacts; split <;> rfl
@[simp] theorem controllerReacts_timing : (controllerReacts s).timing = s.timing := by unfold controllerReacts; split <;> rfl

/-! The fields after `rejectLength`. -/

@[simp] theorem rejectLength_cfg : (rejectLength s).cfg = s.cfg := rfl
@[simp] theorem rejectLength_cs : (rejectLength s).cs = s.cs := rfl
@[simp] theorem rejectLength_dc : (rejectLength s).dc = s.dc := rfl
@[simp] theorem rejectLength_rst : (rejectLength s).rst = s.rst := rfl
@[simp] theorem rejectLength_busy : (rejectLength s).busy = s.busy := rfl
@[simp] theorem rejectLength_op : (rejectLength s).op = s.op := rfl
@[simp] theorem rejectLength_upc : (rejectLength s).upc = s.upc := rfl
@[simp] theorem rejectLength_pending : (rejectLength s).pending = s.pending := rfl
@[simp] theorem rejectLength_ferr : (rejectLength s).ferr = s.ferr := rfl
@[simp] theorem rejectLength_pix : (rejectLength s).pix = s.pix := rfl
@[simp] theorem rejectLength_fb : (rejectLength s).fb = s.fb := rfl
@[simp] theorem rejectLength_trace : (rejectLength s).trace = s.trace := rfl
@[simp] theorem rejectLength_ctrl : (rejectLength s).ctrl = s.ctrl := rfl
@[simp] theorem rejectLength_ctl : (rejectLength s).ctl = s.ctl := rfl
@[simp] theorem rejectLength_hostLog : (rejectLength s).hostLog = s.hostLog ++ [.req .draw s.trace.length, .res .lenErr s.trace.length] := rfl
@[simp] theorem rejectLength_host : (rejectLength s).host = s.host := rfl
@[simp] theorem rejectLength_transport : (rejectLength s).transport = s.transport := rfl
@[simp] theorem rejectLength_timing : (rejectLength s).timing = s.timing := rfl
@[simp] theorem rejectLength_fresh : (rejectLength s).fresh = s.fresh := rfl

/-! The fields after `deliver`: only the controller and the count of free values can change. -/

theorem deliver_eq (bytes : List Byte) : ∃ k n, deliver bytes s = { s with ctl := k, fresh := n } := by
  unfold deliver
  split
  · split
    · exact ⟨_, _, rfl⟩
    · exact ⟨_, _, rfl⟩
  · exact ⟨_, _, rfl⟩

@[simp] theorem deliver_cfg (bytes : List Byte) : (deliver bytes s).cfg = s.cfg := by
  obtain ⟨k, n, h⟩ := deliver_eq s bytes; rw [h]
@[simp] theorem deliver_cs (bytes : List Byte) : (deliver bytes s).cs = s.cs := by
  obtain ⟨k, n, h⟩ := deliver_eq s bytes; rw [h]
@[simp] theorem deliver_dc (bytes : List Byte) : (deliver bytes s).dc = s.dc := by
  obtain ⟨k, n, h⟩ := deliver_eq s bytes; rw [h]
@[simp] theorem deliver_rst (bytes : List Byte) : (deliver bytes s).rst = s.rst := by
  obtain ⟨k, n, h⟩ := deliver_eq s bytes; rw [h]
@[simp] theorem deliver_busy (bytes : List Byte) : (deliver bytes s).busy = s.busy := by
  obtain ⟨k, n, h⟩ := deliver_eq s bytes; rw [h]
@[simp] theorem deliver_op (bytes : List Byte) : (deliver bytes s).op = s.op := by
  obtain ⟨k, n, h⟩ := deliver_eq s bytes; rw [h]
@[simp] theorem deliver_upc (bytes : List Byte) : (deliver bytes s).upc = s.upc := by
  obtain ⟨k, n, h⟩ := deliver_eq s bytes; rw [h]
@[simp] theorem deliver_pending (bytes : List Byte) : (deliver bytes s).pending = s.pending := by
  obtain ⟨k, n, h⟩ := deliver_eq s bytes; rw [h]
@[simp] theorem deliver_ferr (bytes : List Byte) : (deliver bytes s).ferr = s.ferr := by
  obtain ⟨k, n, h⟩ := deliver_eq s bytes; rw [h]
@[simp] theorem deliver_pix (bytes : List Byte) : (deliver bytes s).pix = s.pix := by
  obtain ⟨k, n, h⟩ := deliver_eq s bytes; rw [h]
@[simp] theorem deliver_fb (bytes : List Byte) : (deliver bytes s).fb = s.fb := by
  obtain ⟨k, n, h⟩ := deliver_eq s bytes; rw [h]
@[simp] theorem deliver_trace (bytes : List Byte) : (deliver bytes s).trace = s.trace := by
  obtain ⟨k, n, h⟩ := deliver_eq s bytes; rw [h]
@[simp] theorem deliver_ctrl (bytes : List Byte) : (deliver bytes s).ctrl = s.ctrl := by
  obtain ⟨k, n, h⟩ := deliver_eq s bytes; rw [h]
@[simp] theorem deliver_hostLog (bytes : List Byte) : (deliver bytes s).hostLog = s.hostLog := by
  obtain ⟨k, n, h⟩ := deliver_eq s bytes; rw [h]
@[simp] theorem deliver_host (bytes : List Byte) : (deliver bytes s).host = s.host := by
  obtain ⟨k, n, h⟩ := deliver_eq s bytes; rw [h]
@[simp] theorem deliver_transport (bytes : List Byte) : (deliver bytes s).transport = s.transport := by
  obtain ⟨k, n, h⟩ := deliver_eq s bytes; rw [h]
@[simp] theorem deliver_timing (bytes : List Byte) : (deliver bytes s).timing = s.timing := by
  obtain ⟨k, n, h⟩ := deliver_eq s bytes; rw [h]

/-! The fields after `allRead`. -/

@[simp] theorem allRead_cfg : (allRead s).cfg = s.cfg := by unfold allRead; split <;> rfl
@[simp] theorem allRead_cs : (allRead s).cs = s.cs := by unfold allRead; split <;> rfl
@[simp] theorem allRead_dc : (allRead s).dc = s.dc := by unfold allRead; split <;> rfl
@[simp] theorem allRead_rst : (allRead s).rst = s.rst := by unfold allRead; split <;> rfl
@[simp] theorem allRead_busy : (allRead s).busy = s.busy := by unfold allRead; split <;> rfl
@[simp] theorem allRead_op : (allRead s).op = s.op := by unfold allRead; split <;> rfl
@[simp] theorem allRead_upc : (allRead s).upc = s.upc := by unfold allRead; split <;> rfl
@[simp] theorem allRead_pending : (allRead s).pending = s.pending := by unfold allRead; split <;> rfl
@[simp] theorem allRead_ferr : (allRead s).ferr = s.ferr := by unfold allRead; split <;> rfl
@[simp] theorem allRead_pix : (allRead s).pix = if isPayload s then s.cfg.w * s.cfg.h else s.pix := by unfold allRead; split <;> rfl
@[simp] theorem allRead_fb : (allRead s).fb = s.fb := by unfold allRead; split <;> rfl
@[simp] theorem allRead_trace : (allRead s).trace = s.trace := by unfold allRead; split <;> rfl
@[simp] theorem allRead_ctrl : (allRead s).ctrl = s.ctrl := by unfold allRead; split <;> rfl
@[simp] theorem allRead_ctl : (allRead s).ctl = s.ctl := by unfold allRead; split <;> rfl
@[simp] theorem allRead_hostLog : (allRead s).hostLog = s.hostLog := by unfold allRead; split <;> rfl
@[simp] theorem allRead_host : (allRead s).host = s.host := by unfold allRead; split <;> rfl
@[simp] theorem allRead_transport : (allRead s).transport = s.transport := by unfold allRead; split <;> rfl
@[simp] theorem allRead_timing : (allRead s).timing = s.timing := by unfold allRead; split <;> rfl
@[simp] theorem allRead_fresh : (allRead s).fresh = s.fresh := by unfold allRead; split <;> rfl

/-! The fields after `readAhead`. -/

@[simp] theorem readAhead_cfg : (readAhead s).cfg = s.cfg := by unfold readAhead; split <;> rfl
@[simp] theorem readAhead_cs : (readAhead s).cs = s.cs := by unfold readAhead; split <;> rfl
@[simp] theorem readAhead_dc : (readAhead s).dc = s.dc := by unfold readAhead; split <;> rfl
@[simp] theorem readAhead_rst : (readAhead s).rst = s.rst := by unfold readAhead; split <;> rfl
@[simp] theorem readAhead_busy : (readAhead s).busy = s.busy := by unfold readAhead; split <;> rfl
@[simp] theorem readAhead_op : (readAhead s).op = s.op := by unfold readAhead; split <;> rfl
@[simp] theorem readAhead_upc : (readAhead s).upc = s.upc := by unfold readAhead; split <;> rfl
@[simp] theorem readAhead_pending : (readAhead s).pending = s.pending := by unfold readAhead; split <;> rfl
@[simp] theorem readAhead_ferr : (readAhead s).ferr = s.ferr := by unfold readAhead; split <;> rfl
@[simp] theorem readAhead_fb : (readAhead s).fb = s.fb := by unfold readAhead; split <;> rfl
@[simp] theorem readAhead_trace : (readAhead s).trace = s.trace := by unfold readAhead; split <;> rfl
@[simp] theorem readAhead_ctrl : (readAhead s).ctrl = s.ctrl := by unfold readAhead; split <;> rfl
@[simp] theorem readAhead_ctl : (readAhead s).ctl = s.ctl := by unfold readAhead; split <;> rfl
@[simp] theorem readAhead_hostLog : (readAhead s).hostLog = s.hostLog := by unfold readAhead; split <;> rfl
@[simp] theorem readAhead_host : (readAhead s).host = s.host := by unfold readAhead; split <;> rfl
@[simp] theorem readAhead_transport : (readAhead s).transport = s.transport := by unfold readAhead; split <;> rfl
@[simp] theorem readAhead_timing : (readAhead s).timing = s.timing := by unfold readAhead; split <;> rfl
@[simp] theorem readAhead_fresh : (readAhead s).fresh = s.fresh := by unfold readAhead; split <;> rfl

/-! The fields after `readDelivered`. -/

@[simp] theorem readDelivered_cfg (sent : Nat) : (readDelivered sent s).cfg = s.cfg := by unfold readDelivered; split <;> rfl
@[simp] theorem readDelivered_cs (sent : Nat) : (readDelivered sent s).cs = s.cs := by unfold readDelivered; split <;> rfl
@[simp] theorem readDelivered_dc (sent : Nat) : (readDelivered sent s).dc = s.dc := by unfold readDelivered; split <;> rfl
@[simp] theorem readDelivered_rst (sent : Nat) : (readDelivered sent s).rst = s.rst := by unfold readDelivered; split <;> rfl
@[simp] theorem readDelivered_busy (sent : Nat) : (readDelivered sent s).busy = s.busy := by unfold readDelivered; split <;> rfl
@[simp] theorem readDelivered_op (sent : Nat) : (readDelivered sent s).op = s.op := by unfold readDelivered; split <;> rfl
@[simp] theorem readDelivered_upc (sent : Nat) : (readDelivered sent s).upc = s.upc := by unfold readDelivered; split <;> rfl
@[simp] theorem readDelivered_pending (sent : Nat) : (readDelivered sent s).pending = s.pending := by unfold readDelivered; split <;> rfl
@[simp] theorem readDelivered_ferr (sent : Nat) : (readDelivered sent s).ferr = s.ferr := by unfold readDelivered; split <;> rfl
@[simp] theorem readDelivered_fb (sent : Nat) : (readDelivered sent s).fb = s.fb := by unfold readDelivered; split <;> rfl
@[simp] theorem readDelivered_trace (sent : Nat) : (readDelivered sent s).trace = s.trace := by unfold readDelivered; split <;> rfl
@[simp] theorem readDelivered_ctrl (sent : Nat) : (readDelivered sent s).ctrl = s.ctrl := by unfold readDelivered; split <;> rfl
@[simp] theorem readDelivered_ctl (sent : Nat) : (readDelivered sent s).ctl = s.ctl := by unfold readDelivered; split <;> rfl
@[simp] theorem readDelivered_hostLog (sent : Nat) : (readDelivered sent s).hostLog = s.hostLog := by unfold readDelivered; split <;> rfl
@[simp] theorem readDelivered_host (sent : Nat) : (readDelivered sent s).host = s.host := by unfold readDelivered; split <;> rfl
@[simp] theorem readDelivered_transport (sent : Nat) : (readDelivered sent s).transport = s.transport := by unfold readDelivered; split <;> rfl
@[simp] theorem readDelivered_timing (sent : Nat) : (readDelivered sent s).timing = s.timing := by unfold readDelivered; split <;> rfl
@[simp] theorem readDelivered_fresh (sent : Nat) : (readDelivered sent s).fresh = s.fresh := by unfold readDelivered; split <;> rfl

/-! The fields after `writeLine`. -/

@[simp] theorem writeLine_cfg (v : Latch) (l : Line) : (writeLine s v l).cfg = s.cfg := by cases l <;> rfl
@[simp] theorem writeLine_busy (v : Latch) (l : Line) : (writeLine s v l).busy = s.busy := by cases l <;> rfl
@[simp] theorem writeLine_op (v : Latch) (l : Line) : (writeLine s v l).op = s.op := by cases l <;> rfl
@[simp] theorem writeLine_upc (v : Latch) (l : Line) : (writeLine s v l).upc = s.upc := by cases l <;> rfl
@[simp] theorem writeLine_pending (v : Latch) (l : Line) : (writeLine s v l).pending = s.pending := by cases l <;> rfl
@[simp] theorem writeLine_ferr (v : Latch) (l : Line) : (writeLine s v l).ferr = s.ferr := by cases l <;> rfl
@[simp] theorem writeLine_pix (v : Latch) (l : Line) : (writeLine s v l).pix = s.pix := by cases l <;> rfl
@[simp] theorem writeLine_fb (v : Latch) (l : Line) : (writeLine s v l).fb = s.fb := by cases l <;> rfl
@[simp] theorem writeLine_trace (v : Latch) (l : Line) : (writeLine s v l).trace = s.trace := by cases l <;> rfl
@[simp] theorem writeLine_ctrl (v : Latch) (l : Line) : (writeLine s v l).ctrl = s.ctrl := by cases l <;> rfl
@[simp] theorem writeLine_ctl (v : Latch) (l : Line) : (writeLine s v l).ctl = s.ctl := by cases l <;> rfl
@[simp] theorem writeLine_hostLog (v : Latch) (l : Line) : (writeLine s v l).hostLog = s.hostLog := by cases l <;> rfl
@[simp] theorem writeLine_host (v : Latch) (l : Line) : (writeLine s v l).host = s.host := by cases l <;> rfl
@[simp] theorem writeLine_transport (v : Latch) (l : Line) : (writeLine s v l).transport = s.transport := by cases l <;> rfl
@[simp] theorem writeLine_timing (v : Latch) (l : Line) : (writeLine s v l).timing = s.timing := by cases l <;> rfl
@[simp] theorem writeLine_fresh (v : Latch) (l : Line) : (writeLine s v l).fresh = s.fresh := by cases l <;> rfl

/-- A latch after a write to a line: the line written, or unchanged. -/
@[simp] theorem readLine_writeLine (v : Latch) (l k : Line) :
    readLine (writeLine s v l) k = if l = k then v else readLine s k := by
  cases l <;> cases k <;> rfl

@[simp] theorem writeLine_cs (v : Latch) (l : Line) :
    (writeLine s v l).cs = if l = .cs then v else s.cs := by cases l <;> rfl
@[simp] theorem writeLine_dc (v : Latch) (l : Line) :
    (writeLine s v l).dc = if l = .dc then v else s.dc := by cases l <;> rfl
@[simp] theorem writeLine_rst (v : Latch) (l : Line) :
    (writeLine s v l).rst = if l = .rst then v else s.rst := by cases l <;> rfl

/-! The fields after `lineAnswered`. -/

@[simp] theorem lineAnswered_cfg (l : Line) (v : Level) (a : Answer E) : (lineAnswered l v a s).cfg = s.cfg := by simp [lineAnswered]
@[simp] theorem lineAnswered_cs (l : Line) (v : Level) (a : Answer E) : (lineAnswered l v a s).cs = if l = .cs then latchAfter v a else s.cs := by simp [lineAnswered]
@[simp] theorem lineAnswered_dc (l : Line) (v : Level) (a : Answer E) : (lineAnswered l v a s).dc = if l = .dc then latchAfter v a else s.dc := by simp [lineAnswered]
@[simp] theorem lineAnswered_rst (l : Line) (v : Level) (a : Answer E) : (lineAnswered l v a s).rst = if l = .rst then latchAfter v a else s.rst := by simp [lineAnswered]
@[simp] theorem lineAnswered_busy (l : Line) (v : Level) (a : Answer E) : (lineAnswered l v a s).busy = s.busy := by simp [lineAnswered]
@[simp] theorem lineAnswered_op (l : Line) (v : Level) (a : Answer E) : (lineAnswered l v a s).op = s.op := by simp [lineAnswered]
@[simp] theorem lineAnswered_upc (l : Line) (v : Level) (a : Answer E) : (lineAnswered l v a s).upc = s.upc := by simp [lineAnswered]
@[simp] theorem lineAnswered_pending (l : Line) (v : Level) (a : Answer E) : (lineAnswered l v a s).pending = s.pending := by simp [lineAnswered]
@[simp] theorem lineAnswered_ferr (l : Line) (v : Level) (a : Answer E) : (lineAnswered l v a s).ferr = s.ferr := by simp [lineAnswered]
@[simp] theorem lineAnswered_pix (l : Line) (v : Level) (a : Answer E) : (lineAnswered l v a s).pix = s.pix := by simp [lineAnswered]
@[simp] theorem lineAnswered_fb (l : Line) (v : Level) (a : Answer E) : (lineAnswered l v a s).fb = s.fb := by simp [lineAnswered]
@[simp] theorem lineAnswered_trace (l : Line) (v : Level) (a : Answer E) : (lineAnswered l v a s).trace = s.trace ++ [.set l v a] := by simp [lineAnswered]
@[simp] theorem lineAnswered_ctrl (l : Line) (v : Level) (a : Answer E) : (lineAnswered l v a s).ctrl = s.ctrl := by simp [lineAnswered]
@[simp] theorem lineAnswered_ctl (l : Line) (v : Level) (a : Answer E) : (lineAnswered l v a s).ctl = (controllerReacts s).ctl := by simp [lineAnswered]
@[simp] theorem lineAnswered_hostLog (l : Line) (v : Level) (a : Answer E) : (lineAnswered l v a s).hostLog = s.hostLog := by simp [lineAnswered]
@[simp] theorem lineAnswered_host (l : Line) (v : Level) (a : Answer E) : (lineAnswered l v a s).host = s.host := by simp [lineAnswered]
@[simp] theorem lineAnswered_transport (l : Line) (v : Level) (a : Answer E) : (lineAnswered l v a s).transport = s.transport := by simp [lineAnswered]
@[simp] theorem lineAnswered_timing (l : Line) (v : Level) (a : Answer E) : (lineAnswered l v a s).timing = s.timing := by simp [lineAnswered]
@[simp] theorem lineAnswered_fresh (l : Line) (v : Level) (a : Answer E) : (lineAnswered l v a s).fresh = (controllerReacts s).fresh := by simp [lineAnswered]

/-! The fields after `writeDone` and `writeFailed`. -/

@[simp] theorem writeDone_cfg (bytes : List Byte) : (writeDone bytes s).cfg = s.cfg := by simp [writeDone]
@[simp] theorem writeFailed_cfg (bytes : List Byte) (e : E) (n : Nat) : (writeFailed bytes e n s).cfg = s.cfg := by simp [writeFailed]
@[simp] theorem writeDone_cs (bytes : List Byte) : (writeDone bytes s).cs = s.cs := by simp [writeDone]
@[simp] theorem writeFailed_cs (bytes : List Byte) (e : E) (n : Nat) : (writeFailed bytes e n s).cs = s.cs := by simp [writeFailed]
@[simp] theorem writeDone_dc (bytes : List Byte) : (writeDone bytes s).dc = s.dc := by simp [writeDone]
@[simp] theorem writeFailed_dc (bytes : List Byte) (e : E) (n : Nat) : (writeFailed bytes e n s).dc = s.dc := by simp [writeFailed]
@[simp] theorem writeDone_rst (bytes : List Byte) : (writeDone bytes s).rst = s.rst := by simp [writeDone]
@[simp] theorem writeFailed_rst (bytes : List Byte) (e : E) (n : Nat) : (writeFailed bytes e n s).rst = s.rst := by simp [writeFailed]
@[simp] theorem writeDone_busy (bytes : List Byte) : (writeDone bytes s).busy = s.busy := by simp [writeDone]
@[simp] theorem writeFailed_busy (bytes : List Byte) (e : E) (n : Nat) : (writeFailed bytes e n s).busy = s.busy := by simp [writeFailed]
@[simp] theorem writeDone_op (bytes : List Byte) : (writeDone bytes s).op = s.op := by simp [writeDone]
@[simp] theorem writeFailed_op (bytes : List Byte) (e : E) (n : Nat) : (writeFailed bytes e n s).op = s.op := by simp [writeFailed]
@[simp] theorem writeDone_upc (bytes : List Byte) : (writeDone bytes s).upc = s.upc := by simp [writeDone]
@[simp] theorem writeFailed_upc (bytes : List Byte) (e : E) (n : Nat) : (writeFailed bytes e n s).upc = s.upc := by simp [writeFailed]
@[simp] theorem writeDone_pending (bytes : List Byte) : (writeDone bytes s).pending = s.pending := by simp [writeDone]
@[simp] theorem writeFailed_pending (bytes : List Byte) (e : E) (n : Nat) : (writeFailed bytes e n s).pending = s.pending := by simp [writeFailed]
@[simp] theorem writeDone_ferr (bytes : List Byte) : (writeDone bytes s).ferr = s.ferr := by simp [writeDone]
@[simp] theorem writeFailed_ferr (bytes : List Byte) (e : E) (n : Nat) : (writeFailed bytes e n s).ferr = s.ferr := by simp [writeFailed]
@[simp] theorem writeDone_fb (bytes : List Byte) : (writeDone bytes s).fb = s.fb := by simp [writeDone]
@[simp] theorem writeFailed_fb (bytes : List Byte) (e : E) (n : Nat) : (writeFailed bytes e n s).fb = s.fb := by simp [writeFailed]
@[simp] theorem writeDone_trace (bytes : List Byte) : (writeDone bytes s).trace = s.trace ++ [.write bytes .ok] := by simp [writeDone]
@[simp] theorem writeFailed_trace (bytes : List Byte) (e : E) (n : Nat) : (writeFailed bytes e n s).trace = s.trace ++ [.write bytes (.err e)] := by simp [writeFailed]
@[simp] theorem writeDone_ctrl (bytes : List Byte) : (writeDone bytes s).ctrl = s.ctrl := by simp [writeDone]
@[simp] theorem writeFailed_ctrl (bytes : List Byte) (e : E) (n : Nat) : (writeFailed bytes e n s).ctrl = s.ctrl := by simp [writeFailed]
@[simp] theorem writeDone_hostLog (bytes : List Byte) : (writeDone bytes s).hostLog = s.hostLog := by simp [writeDone]
@[simp] theorem writeFailed_hostLog (bytes : List Byte) (e : E) (n : Nat) : (writeFailed bytes e n s).hostLog = s.hostLog := by simp [writeFailed]
@[simp] theorem writeDone_host (bytes : List Byte) : (writeDone bytes s).host = s.host := by simp [writeDone]
@[simp] theorem writeFailed_host (bytes : List Byte) (e : E) (n : Nat) : (writeFailed bytes e n s).host = s.host := by simp [writeFailed]
@[simp] theorem writeDone_transport (bytes : List Byte) : (writeDone bytes s).transport = s.transport := by simp [writeDone]
@[simp] theorem writeFailed_transport (bytes : List Byte) (e : E) (n : Nat) : (writeFailed bytes e n s).transport = s.transport := by simp [writeFailed]
@[simp] theorem writeDone_timing (bytes : List Byte) : (writeDone bytes s).timing = s.timing := by simp [writeDone]
@[simp] theorem writeFailed_timing (bytes : List Byte) (e : E) (n : Nat) : (writeFailed bytes e n s).timing = s.timing := by simp [writeFailed]

/-! The fields after `accept`. -/

@[simp] theorem accept_cfg (op : Op) (fb : List Pixel) : (accept op fb s).cfg = s.cfg := by cases op <;> rfl
@[simp] theorem accept_cs (op : Op) (fb : List Pixel) : (accept op fb s).cs = s.cs := by cases op <;> rfl
@[simp] theorem accept_dc (op : Op) (fb : List Pixel) : (accept op fb s).dc = s.dc := by cases op <;> rfl
@[simp] theorem accept_rst (op : Op) (fb : List Pixel) : (accept op fb s).rst = s.rst := by cases op <;> rfl
@[simp] theorem accept_busy (op : Op) (fb : List Pixel) : (accept op fb s).busy = true := by cases op <;> rfl
@[simp] theorem accept_op (op : Op) (fb : List Pixel) : (accept op fb s).op = op := by cases op <;> rfl
@[simp] theorem accept_upc (op : Op) (fb : List Pixel) : (accept op fb s).upc = 0 := by cases op <;> rfl
@[simp] theorem accept_pending (op : Op) (fb : List Pixel) : (accept op fb s).pending = s.pending := by cases op <;> rfl
@[simp] theorem accept_ferr (op : Op) (fb : List Pixel) : (accept op fb s).ferr = none := by cases op <;> rfl
@[simp] theorem accept_fb (op : Op) (fb : List Pixel) : (accept op fb s).fb = fb := by cases op <;> rfl
@[simp] theorem accept_trace (op : Op) (fb : List Pixel) : (accept op fb s).trace = s.trace := by cases op <;> rfl
@[simp] theorem accept_ctrl (op : Op) (fb : List Pixel) : (accept op fb s).ctrl = s.ctrl := by cases op <;> rfl
@[simp] theorem accept_hostLog (op : Op) (fb : List Pixel) : (accept op fb s).hostLog = s.hostLog ++ [.req op s.trace.length] := by cases op <;> rfl
@[simp] theorem accept_host (op : Op) (fb : List Pixel) : (accept op fb s).host = s.host := by cases op <;> rfl
@[simp] theorem accept_transport (op : Op) (fb : List Pixel) : (accept op fb s).transport = s.transport := by cases op <;> rfl
@[simp] theorem accept_timing (op : Op) (fb : List Pixel) : (accept op fb s).timing = s.timing := by cases op <;> rfl

/-- Two states with the same fields are the same. -/
theorem state_eq {s t : State.Over E} (hcfg : s.cfg = t.cfg) (hcs : s.cs = t.cs) (hdc : s.dc = t.dc)
    (hrst : s.rst = t.rst) (hbusy : s.busy = t.busy) (hop : s.op = t.op) (hupc : s.upc = t.upc)
    (hpending : s.pending = t.pending) (hferr : s.ferr = t.ferr) (hpix : s.pix = t.pix) (hfb : s.fb = t.fb)
    (htrace : s.trace = t.trace) (hctrl : s.ctrl = t.ctrl) (hctl : s.ctl = t.ctl)
    (hlog : s.hostLog = t.hostLog) (hhost : s.host = t.host) (htransport : s.transport = t.transport)
    (htiming : s.timing = t.timing) (hfresh : s.fresh = t.fresh) : s = t := by
  cases s; cases t; simp_all

end Sys2Proof.Machine
end

