-- ==== Sys2Proof/Laws/Wire.lean ====
section
/-! SUPPORT. Traces are walked piece by piece: the latch and the wire view after an appended event. -/

namespace Sys2Proof.Machine

variable {E : Type}

theorem latchOf_append (l : Line) (v : Latch) (xs ys : List (Event E)) :
    latchOf l v (xs ++ ys) = latchOf l (latchOf l v xs) ys := by
  induction xs generalizing v with
  | nil => rfl
  | cons e xs ih => cases e <;> simp [latchOf, ih]

theorem wireFrom_append (c : Cfg) (cs dc : Latch) (xs ys : List (Event E)) :
    wireFrom c cs dc (xs ++ ys) =
      wireFrom c cs dc xs ++ wireFrom c (latchOf .cs cs xs) (latchOf .dc dc xs) ys := by
  induction xs generalizing cs dc with
  | nil => rfl
  | cons e xs ih =>
    cases e with
    | set l v a => cases l <;> simp [wireFrom, latchOf, ih]
    | write bytes a => simp [wireFrom, latchOf, ih]
    | delay ms => simp [wireFrom, latchOf, ih]

theorem wire_append (c : Cfg) (xs ys : List (Event E)) :
    wire c (xs ++ ys) = wire c xs ++ wireFrom c (latchOf .cs .u xs) (latchOf .dc .u xs) ys :=
  wireFrom_append c .u .u xs ys

end Sys2Proof.Machine
end

