-- ==== Sys2Proof/Laws/Ops.lean ====
section
/-! SUPPORT. What each shared operation can do, said once: an answered call, the answer, the fault, the
end of an operation. -/

namespace Sys2Proof.Machine

variable {E : Type}

/-! The fields an answered call leaves alone; of the others, `pending` is cleared, the trace and the latches
follow the event, `pix` and the controller follow the write. -/

@[simp] theorem effectOk_cfg (m : MicroOp) (s : State.Over E) : (effectOk m s).cfg = s.cfg := by
  unfold effectOk; split <;> simp
@[simp] theorem effectOk_busy (m : MicroOp) (s : State.Over E) : (effectOk m s).busy = s.busy := by
  unfold effectOk; split <;> simp
@[simp] theorem effectOk_op (m : MicroOp) (s : State.Over E) : (effectOk m s).op = s.op := by
  unfold effectOk; split <;> simp
@[simp] theorem effectOk_upc (m : MicroOp) (s : State.Over E) : (effectOk m s).upc = s.upc := by
  unfold effectOk; split <;> simp
@[simp] theorem effectOk_ferr (m : MicroOp) (s : State.Over E) : (effectOk m s).ferr = s.ferr := by
  unfold effectOk; split <;> simp
@[simp] theorem effectOk_fb (m : MicroOp) (s : State.Over E) : (effectOk m s).fb = s.fb := by
  unfold effectOk; split <;> simp
@[simp] theorem effectOk_ctrl (m : MicroOp) (s : State.Over E) : (effectOk m s).ctrl = s.ctrl := by
  unfold effectOk; split <;> simp
@[simp] theorem effectOk_hostLog (m : MicroOp) (s : State.Over E) : (effectOk m s).hostLog = s.hostLog := by
  unfold effectOk; split <;> simp
@[simp] theorem effectOk_host (m : MicroOp) (s : State.Over E) : (effectOk m s).host = s.host := by
  unfold effectOk; split <;> simp
@[simp] theorem effectOk_transport (m : MicroOp) (s : State.Over E) : (effectOk m s).transport = s.transport := by
  unfold effectOk; split <;> simp
@[simp] theorem effectOk_timing (m : MicroOp) (s : State.Over E) : (effectOk m s).timing = s.timing := by
  unfold effectOk; split <;> simp
@[simp] theorem effectOk_pending (m : MicroOp) (s : State.Over E) : (effectOk m s).pending = none := by
  unfold effectOk; split <;> simp

@[simp] theorem effectErr_cfg (m : MicroOp) (e : E) (n : Nat) (s : State.Over E) :
    (effectErr m e n s).cfg = s.cfg := by
  simp only [effectErr, abandon_cfg]; split <;> simp
@[simp] theorem effectErr_busy (m : MicroOp) (e : E) (n : Nat) (s : State.Over E) :
    (effectErr m e n s).busy = s.busy := by
  simp only [effectErr, abandon_busy]; split <;> simp
@[simp] theorem effectErr_op (m : MicroOp) (e : E) (n : Nat) (s : State.Over E) :
    (effectErr m e n s).op = s.op := by
  simp only [effectErr, abandon_op]; split <;> simp
@[simp] theorem effectErr_upc (m : MicroOp) (e : E) (n : Nat) (s : State.Over E) :
    (effectErr m e n s).upc = s.upc := by
  simp only [effectErr, abandon_upc]; split <;> simp
@[simp] theorem effectErr_ferr (m : MicroOp) (e : E) (n : Nat) (s : State.Over E) :
    (effectErr m e n s).ferr = s.ferr := by
  simp only [effectErr, abandon_ferr]; split <;> simp
@[simp] theorem effectErr_fb (m : MicroOp) (e : E) (n : Nat) (s : State.Over E) :
    (effectErr m e n s).fb = s.fb := by
  simp only [effectErr, abandon_fb]; split <;> simp
@[simp] theorem effectErr_ctrl (m : MicroOp) (e : E) (n : Nat) (s : State.Over E) :
    (effectErr m e n s).ctrl = s.ctrl := by
  simp only [effectErr, abandon_ctrl]; split <;> simp
@[simp] theorem effectErr_hostLog (m : MicroOp) (e : E) (n : Nat) (s : State.Over E) :
    (effectErr m e n s).hostLog = s.hostLog := by
  simp only [effectErr, abandon_hostLog]; split <;> simp
@[simp] theorem effectErr_host (m : MicroOp) (e : E) (n : Nat) (s : State.Over E) :
    (effectErr m e n s).host = s.host := by
  simp only [effectErr, abandon_host]; split <;> simp
@[simp] theorem effectErr_transport (m : MicroOp) (e : E) (n : Nat) (s : State.Over E) :
    (effectErr m e n s).transport = s.transport := by
  simp only [effectErr, abandon_transport]; split <;> simp
@[simp] theorem effectErr_timing (m : MicroOp) (e : E) (n : Nat) (s : State.Over E) :
    (effectErr m e n s).timing = s.timing := by
  simp only [effectErr, abandon_timing]; split <;> simp
@[simp] theorem effectErr_pending (m : MicroOp) (e : E) (n : Nat) (s : State.Over E) :
    (effectErr m e n s).pending = none := by
  simp only [effectErr, abandon_pending]; split <;> simp

@[simp] theorem effectOk_trace (m : MicroOp) (s : State.Over E) :
    (effectOk m s).trace = s.trace ++ [okEvent s.cfg m] := by
  unfold effectOk okEvent
  cases callOf s.cfg m <;> simp

theorem effectOk_latch (m : MicroOp) (s : State.Over E) (l : Line) :
    readLine (effectOk m s) l = latchOf l (readLine s l) [(okEvent s.cfg m : Event E)] := by
  unfold effectOk okEvent
  cases callOf s.cfg m <;> cases l <;> simp [readLine, latchOf]

@[simp] theorem effectErr_trace (m : MicroOp) (e : E) (n : Nat) (s : State.Over E) :
    (effectErr m e n s).trace = s.trace ++ [errEvent s.cfg e m] := by
  simp only [effectErr, errEvent, abandon_trace]
  cases callOf s.cfg m <;> simp

theorem effectErr_latch (m : MicroOp) (e : E) (n : Nat) (s : State.Over E) (l : Line) :
    readLine (effectErr m e n s) l = latchOf l (readLine s l) [errEvent s.cfg e m] := by
  unfold effectErr errEvent
  cases l <;> cases callOf s.cfg m <;> simp [readLine, latchOf]

/-! What an answered call does to the controller and to the count of free values. -/

/-- During an INIT the sink model is not given (K13, K24). -/
theorem sinkRuns_init {s : State.Over E} (h : s.op = .init) : sinkRuns s = false := by
  simp [sinkRuns, h]

/-- And no cell of PM is claimed. -/
theorem controllerKnown_init {s : State.Over E} (h : s.op = .init) : controllerKnown s = false := by
  simp [controllerKnown, h]

theorem controllerKnown_congr {s t : State.Over E} (hr : t.ctrl = s.ctrl) (ho : t.op = s.op)
    (hc : t.cfg = s.cfg) : controllerKnown t = controllerKnown s := by
  simp [controllerKnown, hr, ho, hc]

theorem sinkRuns_congr {s t : State.Over E} (hr : t.ctrl = s.ctrl) (ho : t.op = s.op)
    (hc : t.cfg = s.cfg) : sinkRuns t = sinkRuns s := by
  simp [sinkRuns, hr, ho, hc]

/-- PM is claimed of a DRAW only where the sink model is given. -/
theorem controllerKnown_iff {s : State.Over E} :
    controllerKnown s = true ↔ sinkRuns s = true ∧ sinkGiven s.cfg = true := by
  simp [controllerKnown, sinkRuns, sinkGiven, and_assoc]

@[simp] theorem controllerReacts_known {s : State.Over E} (h : sinkRuns s = true) :
    controllerReacts s = s := by simp [controllerReacts, h]

@[simp] theorem controllerReacts_unknown {s : State.Over E} (h : sinkRuns s = false) :
    controllerReacts s = controllerUnknown s := by simp [controllerReacts, h]

theorem deliver_unknown {s : State.Over E} (h : sinkRuns s = false) (bytes : List Byte) :
    deliver bytes s = controllerUnknown s := by simp [deliver, h]

theorem deliver_known {s : State.Over E} (h : sinkRuns s = true) {t : Tag}
    (ht : tagOf s.cfg s.cs s.dc = some t) (bytes : List Byte) :
    deliver bytes s = { s with ctl := claimedPm s.cfg (sinkBytes s.cfg s.fresh t bytes s.ctl),
                               fresh := if sinkGiven s.cfg then s.fresh else s.fresh + 6 } := by
  simp [deliver, h, ht]

@[simp] theorem abandon_unknown {s : State.Over E} (h : sinkRuns s = false) (m : MicroOp) (sent : Nat) :
    abandon m sent s = s := by simp [abandon, h]

/-- A call that failed between commands leaves the controller as R55 and R56 say. -/
theorem abandon_whole {s : State.Over E} {m : MicroOp} {sent : Nat} (h : cutsShort m sent s = false) :
    abandon m sent s = s := by simp [abandon, h]

/-- K13: a call that failed in the middle of a command. -/
theorem abandon_cut {s : State.Over E} {m : MicroOp} {sent : Nat} (hr : sinkRuns s = true)
    (h : cutsShort m sent s = true) : abandon m sent s = commandCut s := by simp [abandon, hr, h]

theorem cutsShort_congr {s t : State.Over E} (hc : t.cfg = s.cfg) (hu : t.upc = s.upc) (m : MicroOp)
    (sent : Nat) : cutsShort m sent t = cutsShort m sent s := by
  simp [cutsShort, hc, hu]

@[simp] theorem effectOk_wait (ms : Nat) (s : State.Over E) :
    (effectOk (.wait ms) s).ctl = s.ctl ∧ (effectOk (.wait ms) s).fresh = s.fresh := by
  simp [effectOk, callOf]

/-- K13, K14: where nothing is claimed of the controller, an answered set or write leaves it at any value. -/
theorem effectOk_unknown {m : MicroOp} {s : State.Over E} (hf : fallible m = true)
    (h : sinkRuns s = false) :
    (effectOk m s).ctl = scrambled s.fresh ∧ (effectOk m s).fresh = s.fresh + 6 := by
  have h1 : sinkRuns { s with pending := none } = false := h
  cases m <;> simp [effectOk, callOf, h1, writeDone, fallible] at hf ⊢
  next bytes =>
    rw [deliver_unknown (s := appendEvent _ { s with pending := none }) h]
    simp

theorem effectErr_unknown {m : MicroOp} {e : E} {n : Nat} {s : State.Over E} (hf : fallible m = true)
    (h : sinkRuns s = false) :
    (effectErr m e n s).ctl = scrambled s.fresh ∧ (effectErr m e n s).fresh = s.fresh + 6 := by
  have h1 : sinkRuns { s with pending := none } = false := h
  rw [effectErr, abandon_unknown]
  · cases m <;> simp [callOf, h1, writeFailed, fallible] at hf ⊢
    next bytes =>
      rw [deliver_unknown (s := appendEvent _ { s with pending := none }) h]
      simp
  · rw [sinkRuns_congr (s := s) _ _ _, h] <;> cases callOf s.cfg m <;> simp

/-- R55: a set leaves a controller the spec gives alone. -/
theorem effectOk_set {m : MicroOp} {s : State.Over E} {l : Line} {v : Level}
    (hm : callOf s.cfg m = .sigSet l v) (h : sinkRuns s = true) :
    (effectOk m s).ctl = s.ctl ∧ (effectOk m s).fresh = s.fresh := by
  have h1 : sinkRuns { s with pending := none } = true := h
  simp [effectOk, hm, h1]

/-- R55, R56: a write delivers its bytes to a controller the spec gives. -/
theorem effectOk_write {bytes : List Byte} {s : State.Over E} {t : Tag} (h : sinkRuns s = true)
    (ht : tagOf s.cfg s.cs s.dc = some t) :
    (effectOk (.wr bytes) s).ctl = claimedPm s.cfg (sinkBytes s.cfg s.fresh t bytes s.ctl) ∧
      (effectOk (.wr bytes) s).fresh = if sinkGiven s.cfg then s.fresh else s.fresh + 6 := by
  simp only [effectOk, callOf, writeDone]
  rw [deliver_known (s := appendEvent _ { s with pending := none }) h (by simpa using ht)]
  exact ⟨by simp, by simp; rfl⟩

/-- R55, R56, R39: a failed write delivers a prefix; the controller is then as R55 and R56 say, if that
prefix does not end in the middle of a command. -/
theorem effectErr_write {bytes : List Byte} {e : E} {n : Nat} {s : State.Over E} {t : Tag}
    (h : sinkRuns s = true) (ht : tagOf s.cfg s.cs s.dc = some t) (hc : cutsShort (.wr bytes) n s = false) :
    (effectErr (.wr bytes) e n s).ctl = claimedPm s.cfg (sinkBytes s.cfg s.fresh t (bytes.take n) s.ctl) ∧
      (effectErr (.wr bytes) e n s).fresh = if sinkGiven s.cfg then s.fresh else s.fresh + 6 := by
  rw [effectErr, abandon_whole]
  · simp only [callOf, writeFailed]
    rw [deliver_known (s := appendEvent _ { s with pending := none }) h (by simpa using ht)]
    exact ⟨by simp, by simp; rfl⟩
  · rw [cutsShort_congr (s := s) _ _, hc] <;> simp [callOf]

/-- R55: a set that fails between commands leaves the controller alone. -/
theorem effectErr_set {m : MicroOp} {e : E} {n : Nat} {s : State.Over E} {l : Line} {v : Level}
    (hm : callOf s.cfg m = .sigSet l v) (h : sinkRuns s = true) (hc : cutsShort m n s = false) :
    (effectErr m e n s).ctl = s.ctl ∧ (effectErr m e n s).fresh = s.fresh := by
  have h1 : sinkRuns { s with pending := none } = true := h
  rw [effectErr, abandon_whole]
  · simp [hm, h1]
  · rw [cutsShort_congr (s := s) _ _, hc] <;> simp [hm]

/-- What a failed write leaves in the memory: what the delivered prefix stored (R39). -/
theorem effectErr_write_pm {bytes : List Byte} {e : E} {n : Nat} {s : State.Over E} {t : Tag}
    (h : sinkRuns s = true) (ht : tagOf s.cfg s.cs s.dc = some t) :
    (effectErr (.wr bytes) e n s).ctl.pm =
      (claimedPm s.cfg (sinkBytes s.cfg s.fresh t (bytes.take n) s.ctl)).pm := by
  simp only [effectErr, abandon_pm, callOf, writeFailed]
  rw [deliver_known (s := appendEvent _ { s with pending := none }) h (by simpa using ht)]
  simp

/-- What a failed set leaves in the memory: what was there. -/
theorem effectErr_set_pm {m : MicroOp} {e : E} {n : Nat} {s : State.Over E} {l : Line} {v : Level}
    (hm : callOf s.cfg m = .sigSet l v) (h : sinkRuns s = true) :
    (effectErr m e n s).ctl.pm = s.ctl.pm := by
  have h1 : sinkRuns { s with pending := none } = true := h
  simp [effectErr, hm, h1]

/-! Where PM is not claimed no cell gets a value (K13, entries 11, 12). -/

theorem deliver_unclaimed {s : State.Over E} (h : controllerKnown s = false) (bytes : List Byte) :
    (deliver bytes s).ctl.pm = [] := by
  cases hr : sinkRuns s with
  | false => rw [deliver_unknown hr]; rfl
  | true =>
    have hg : sinkGiven s.cfg = false := by
      cases hg : sinkGiven s.cfg with
      | false => rfl
      | true => rw [controllerKnown_iff.2 ⟨hr, hg⟩] at h; cases h
    unfold deliver
    rw [if_pos hr]
    split
    · simp [claimedPm, hg]
    · rfl

theorem controllerReacts_unclaimed (s : State.Over E) :
    (controllerReacts s).ctl.pm = s.ctl.pm ∨ (controllerReacts s).ctl.pm = [] := by
  unfold controllerReacts; split
  · exact .inl rfl
  · exact .inr rfl

theorem effectOk_unclaimed {s : State.Over E} (h : controllerKnown s = false) (m : MicroOp) :
    (effectOk m s).ctl.pm = s.ctl.pm ∨ (effectOk m s).ctl.pm = [] := by
  unfold effectOk; split
  · simpa using controllerReacts_unclaimed { s with pending := none }
  · right; simpa [writeDone] using deliver_unclaimed (s := appendEvent _ { s with pending := none }) h _
  · simp

theorem effectErr_unclaimed {s : State.Over E} (h : controllerKnown s = false) (m : MicroOp) (e : E)
    (n : Nat) : (effectErr m e n s).ctl.pm = s.ctl.pm ∨ (effectErr m e n s).ctl.pm = [] := by
  simp only [effectErr, abandon_pm]; split
  · simpa using controllerReacts_unclaimed { s with pending := none }
  · right; simpa [writeFailed] using deliver_unclaimed (s := appendEvent _ { s with pending := none }) h _
  · simp

theorem deliver_fresh_le (bytes : List Byte) (s : State.Over E) : s.fresh ≤ (deliver bytes s).fresh := by
  unfold deliver; split
  · split
    · dsimp only; split <;> omega
    · simp
  · simp

theorem controllerReacts_fresh_le (s : State.Over E) : s.fresh ≤ (controllerReacts s).fresh := by
  unfold controllerReacts; split <;> simp

/-- No free value is drawn twice. -/
theorem effectOk_fresh_le (m : MicroOp) (s : State.Over E) : s.fresh ≤ (effectOk m s).fresh := by
  unfold effectOk; split
  · simpa using controllerReacts_fresh_le { s with pending := none }
  · simpa [writeDone] using deliver_fresh_le _ (appendEvent _ { s with pending := none })
  · simp

theorem effectErr_fresh_le (m : MicroOp) (e : E) (n : Nat) (s : State.Over E) :
    s.fresh ≤ (effectErr m e n s).fresh := by
  refine Nat.le_trans ?_ (abandon_fresh_le ..)
  split
  · simpa using controllerReacts_fresh_le { s with pending := none }
  · simpa [writeFailed] using deliver_fresh_le _ (appendEvent _ { s with pending := none })
  · simp

theorem pmWf_deliver {s : State.Over E} (h : pmWf s.ctl.pm = true) (bytes : List Byte) :
    pmWf (deliver bytes s).ctl.pm = true := by
  unfold deliver
  split
  · split
    · exact pmWf_claimedPm (pmWf_sinkBytes h ..) _
    · rfl
  · rfl

theorem pmWf_controllerReacts {s : State.Over E} (h : pmWf s.ctl.pm = true) :
    pmWf (controllerReacts s).ctl.pm = true := by
  unfold controllerReacts
  split
  · exact h
  · rfl

theorem pmWf_effectOk {s : State.Over E} (h : pmWf s.ctl.pm = true) (m : MicroOp) :
    pmWf (effectOk m s).ctl.pm = true := by
  unfold effectOk
  split
  · simpa using pmWf_controllerReacts (s := { s with pending := none }) h
  · unfold writeDone
    simpa using pmWf_deliver (s := appendEvent _ { s with pending := none }) h _
  · simpa using h

theorem pmWf_effectErr {s : State.Over E} (h : pmWf s.ctl.pm = true) (m : MicroOp) (e : E) (n : Nat) :
    pmWf (effectErr m e n s).ctl.pm = true := by
  simp only [effectErr, abandon_pm]
  split
  · simpa using pmWf_controllerReacts (s := { s with pending := none }) h
  · unfold writeFailed
    simpa using pmWf_deliver (s := appendEvent _ { s with pending := none }) h _
  · simpa using h

theorem pmWf_forgetWindow {k : Controller} (h : pmWf k.pm = true) (c : Cfg) :
    pmWf (forgetWindow c k).pm = true := pmWf_filter h _

/-- The answer to an outstanding call, everything it can be: no answer and only the reply queues and
`pix` change; or `Ok`; or, of a fallible call, `Err(e)`. -/
theorem answer_cases (m : MicroOp) (s : State.Over E) :
    (∃ rs ts k, answer m s = .waiting { s with transport := rs, timing := ts, pix := k }) ∨
    (∃ rs ts, answer m s = .ok (effectOk m { s with transport := rs, timing := ts })) ∨
    (fallible m = true ∧ ∃ e n rs, answer m s = .err e (effectErr m e n { s with transport := rs })) := by
  unfold answer
  split
  · next hf =>
    unfold answerTransport
    split
    · exact .inl ⟨s.transport, s.timing, s.pix, rfl⟩
    · next rs _ =>
      refine .inl ⟨rs, s.timing, (readAhead { s with transport := rs }).pix, ?_⟩
      unfold readAhead
      split <;> rfl
    · next rs _ => exact .inr (.inl ⟨rs, s.timing, rfl⟩)
    · next e n rs _ => exact .inr (.inr ⟨hf, e, n, rs, rfl⟩)
  · unfold answerDelay
    split
    · exact .inl ⟨s.transport, s.timing, s.pix, rfl⟩
    · next ts _ => exact .inl ⟨s.transport, ts, s.pix, rfl⟩
    · next ts _ => exact .inr (.inl ⟨s.transport, ts, rfl⟩)

/-- An answer `Ok`, when the outside is about to give it. -/
theorem answer_ok_transport {m : MicroOp} {s : State.Over E} {rs : List (Reply E)} (hf : fallible m = true)
    (h : s.transport = .ok :: rs) : answer m s = .ok (effectOk m { s with transport := rs }) := by
  simp [answer, hf, answerTransport, h]

/-- An answer `done`, when the timing source is about to give it. -/
theorem answer_done {m : MicroOp} {s : State.Over E} {ts : List Tick} (hf : fallible m = false)
    (h : s.timing = .done :: ts) : answer m s = .ok (effectOk m { s with timing := ts }) := by
  simp [answer, hf, answerDelay, h]

/-- An answer `Err(e)`, when the transport is about to give it. -/
theorem answer_err {m : MicroOp} {s : State.Over E} {e : E} {n : Nat} {rs : List (Reply E)}
    (hf : fallible m = true) (h : s.transport = .err e n :: rs) :
    answer m s = .err e (effectErr m e n { s with transport := rs }) := by
  simp [answer, hf, answerTransport, h]

/-- No answer: only the reply queues and `pix` changed. -/
theorem waiting_eq {m : MicroOp} {s t : State.Over E} (h : answer m s = .waiting t) :
    ∃ rs ts k, t = { s with transport := rs, timing := ts, pix := k } := by
  rcases answer_cases m s with ⟨rs, ts, k, ha⟩ | ⟨rs, ts, ha⟩ | ⟨hf, e, n, rs, ha⟩ <;> rw [ha] at h <;> cases h
  exact ⟨rs, ts, k, rfl⟩

/-- An answer `Ok` or `done`: the effects, with a reply taken off its queue. -/
theorem answer_ok_inv {m : MicroOp} {s t : State.Over E} (h : answer m s = .ok t) :
    ∃ rs ts, rs <:+ s.transport ∧ t = effectOk m { s with transport := rs, timing := ts } := by
  unfold answer at h; split at h
  · unfold answerTransport at h; split at h <;> cases h
    next rs hr => exact ⟨rs, s.timing, by simp [hr], rfl⟩
  · unfold answerDelay at h; split at h <;> cases h
    next ts hr => exact ⟨s.transport, ts, by simp, rfl⟩

/-- An answer `Err(e)`: the call is fallible and the transport gave that error next. -/
theorem answer_err_inv {m : MicroOp} {s t : State.Over E} {e : E} (h : answer m s = .err e t) :
    ∃ n rs, s.transport = .err e n :: rs ∧ t = effectErr m e n { s with transport := rs } ∧
      fallible m = true := by
  unfold answer at h; split at h
  · next hf =>
    unfold answerTransport at h; split at h <;> cases h
    next n rs hr => exact ⟨n, rs, hr, rfl, hf⟩
  · unfold answerDelay at h; split at h <;> cases h

/-! During an INIT an answered call leaves `pix` alone, and no cell of the memory gets a value (entry 11). -/

theorem effectOk_init {m : MicroOp} {s : State.Over E} (h : s.op = .init) :
    ((effectOk m s).ctl.pm = s.ctl.pm ∨ (effectOk m s).ctl.pm = []) ∧ (effectOk m s).pix = s.pix := by
  constructor
  · exact effectOk_unclaimed (controllerKnown_init h) m
  · unfold effectOk
    split
    · simp
    · simp [writeDone, isPayload, h]
    · simp

theorem effectErr_init {m : MicroOp} {e : E} {n : Nat} {s : State.Over E} (h : s.op = .init) :
    ((effectErr m e n s).ctl.pm = s.ctl.pm ∨ (effectErr m e n s).ctl.pm = []) ∧
      (effectErr m e n s).pix = s.pix := by
  constructor
  · exact effectErr_unclaimed (controllerKnown_init h) m e n
  · simp only [effectErr, abandon_pix]
    split
    · simp
    · simp [writeFailed, readDelivered, isPayload, h]
    · simp

/-! `pix` grows and stays at most `W*H` (R36). -/

theorem effectOk_pix {m : MicroOp} {s : State.Over E} (h : s.pix ≤ s.cfg.w * s.cfg.h) :
    s.pix ≤ (effectOk m s).pix ∧ (effectOk m s).pix ≤ s.cfg.w * s.cfg.h := by
  unfold effectOk
  split
  · simp [h]
  · unfold writeDone allRead; split <;> simp [h]
  · simp [h]

theorem effectErr_pix {m : MicroOp} {e : E} {n : Nat} {s : State.Over E} (h : s.pix ≤ s.cfg.w * s.cfg.h) :
    s.pix ≤ (effectErr m e n s).pix ∧ (effectErr m e n s).pix ≤ s.cfg.w * s.cfg.h := by
  simp only [effectErr, abandon_pix]
  split
  · simp [h]
  · unfold writeFailed readDelivered; split
    · simp; omega
    · simp [h]
  · simp [h]

/-! Taking the fault, by operation and position (R164, R165). -/

theorem takeBusFault_init {e : E} {s : State.Over E} (h : s.op = .init) :
    takeBusFault e s = respond (.initErr e) (controllerUnknown { s with ctrl := .indeterminate }) := by
  unfold takeBusFault; rw [h]

theorem takeBusFault_draw {e : E} {s : State.Over E} (h : s.op = .draw) (hu : s.upc < 17) :
    takeBusFault e s = { windowLost s with ferr := some e, upc := 17 } := by
  unfold takeBusFault; rw [h]; simp [cleanupIndex, hu]

theorem takeBusFault_draw_last {e : E} {s : State.Over E} (h : s.op = .draw) (hu : ¬s.upc < 17) :
    takeBusFault e s = respond (.drawErr e) (windowLost s) := by
  unfold takeBusFault; rw [h]; simp [cleanupIndex, hu]

theorem readLine_takeBusFault (e : E) (s : State.Over E) (l : Line) :
    readLine (takeBusFault e s) l = readLine s l := by
  unfold takeBusFault; split
  · cases l <;> rfl
  · split <;> cases l <;> rfl

end Sys2Proof.Machine
end

