-- ==== Sys2Proof/Laws/Executor.lean ====
section
/-! SUPPORT. The executor on a list: composition, the run in which every call is answered, and the runs
that stop. -/

namespace Sys2Proof.Machine

variable {E : Type}

@[simp] theorem cleaning_issue (m : MicroOp) (s : State.Over E) : cleaning (issue m s) = cleaning s := rfl

@[simp] theorem cleaning_advance (s : State.Over E) : cleaning (advance s) = cleaning s := rfl

theorem cleaning_congr {s t : State.Over E} (ho : t.op = s.op) (hf : t.ferr = s.ferr) :
    cleaning t = cleaning s := by
  unfold cleaning; rw [ho, hf]

@[simp] theorem cleaning_effectOk (m : MicroOp) (s : State.Over E) : cleaning (effectOk m s) = cleaning s :=
  cleaning_congr (by simp) (by simp)

/-- In an INIT there is no clean-up (R164). -/
theorem cleaning_init {s : State.Over E} (h : s.op = .init) : cleaning s = none := by simp [cleaning, h]

/-- With no error latched there is no clean-up (R35). -/
theorem cleaning_no_error {s : State.Over E} (h : s.ferr = none) : cleaning s = none := by
  unfold cleaning; split
  · rfl
  · exact h

/-- Running one list after another (R18). -/
theorem runOps_append (xs ys : List MicroOp) (s : State.Over E) :
    runOps (xs ++ ys) s =
      match runOps xs s with
      | .going t => runOps ys t
      | .stopped t => .stopped t := by
  induction xs generalizing s with
  | nil => rfl
  | cons m xs ih =>
    simp only [List.cons_append, runOps]
    split
    · exact ih _
    · rfl

/-- The state with the reply to one call taken. -/
def takeReply (m : MicroOp) (s : State.Over E) : State.Over E :=
  if fallible m then { s with transport := s.transport.tail } else { s with timing := s.timing.tail }

/-- The state after one call answered `Ok` or `done`. -/
def okCall (m : MicroOp) (s : State.Over E) : State.Over E := advance (effectOk m (takeReply m (issue m s)))

/-- The state after a list every call of which was answered `Ok` or `done`. -/
def okRun (ops : List MicroOp) (s : State.Over E) : State.Over E := ops.foldl (fun s m => okCall m s) s

@[simp] theorem okRun_nil (s : State.Over E) : okRun [] s = s := rfl

@[simp] theorem okRun_cons (m : MicroOp) (ms : List MicroOp) (s : State.Over E) :
    okRun (m :: ms) s = okRun ms (okCall m s) := rfl

theorem okRun_append (xs ys : List MicroOp) (s : State.Over E) :
    okRun (xs ++ ys) s = okRun ys (okRun xs s) := List.foldl_append ..

@[simp] theorem takeReply_cfg (m : MicroOp) (s : State.Over E) : (takeReply m s).cfg = s.cfg := by
  unfold takeReply; split <;> rfl
@[simp] theorem takeReply_cs (m : MicroOp) (s : State.Over E) : (takeReply m s).cs = s.cs := by
  unfold takeReply; split <;> rfl
@[simp] theorem takeReply_dc (m : MicroOp) (s : State.Over E) : (takeReply m s).dc = s.dc := by
  unfold takeReply; split <;> rfl
@[simp] theorem takeReply_rst (m : MicroOp) (s : State.Over E) : (takeReply m s).rst = s.rst := by
  unfold takeReply; split <;> rfl
@[simp] theorem takeReply_busy (m : MicroOp) (s : State.Over E) : (takeReply m s).busy = s.busy := by
  unfold takeReply; split <;> rfl
@[simp] theorem takeReply_op (m : MicroOp) (s : State.Over E) : (takeReply m s).op = s.op := by
  unfold takeReply; split <;> rfl
@[simp] theorem takeReply_upc (m : MicroOp) (s : State.Over E) : (takeReply m s).upc = s.upc := by
  unfold takeReply; split <;> rfl
@[simp] theorem takeReply_pending (m : MicroOp) (s : State.Over E) : (takeReply m s).pending = s.pending := by
  unfold takeReply; split <;> rfl
@[simp] theorem takeReply_ferr (m : MicroOp) (s : State.Over E) : (takeReply m s).ferr = s.ferr := by
  unfold takeReply; split <;> rfl
@[simp] theorem takeReply_pix (m : MicroOp) (s : State.Over E) : (takeReply m s).pix = s.pix := by
  unfold takeReply; split <;> rfl
@[simp] theorem takeReply_fb (m : MicroOp) (s : State.Over E) : (takeReply m s).fb = s.fb := by
  unfold takeReply; split <;> rfl
@[simp] theorem takeReply_trace (m : MicroOp) (s : State.Over E) : (takeReply m s).trace = s.trace := by
  unfold takeReply; split <;> rfl
@[simp] theorem takeReply_ctrl (m : MicroOp) (s : State.Over E) : (takeReply m s).ctrl = s.ctrl := by
  unfold takeReply; split <;> rfl
@[simp] theorem takeReply_ctl (m : MicroOp) (s : State.Over E) : (takeReply m s).ctl = s.ctl := by
  unfold takeReply; split <;> rfl
@[simp] theorem takeReply_hostLog (m : MicroOp) (s : State.Over E) : (takeReply m s).hostLog = s.hostLog := by
  unfold takeReply; split <;> rfl
@[simp] theorem takeReply_host (m : MicroOp) (s : State.Over E) : (takeReply m s).host = s.host := by
  unfold takeReply; split <;> rfl
@[simp] theorem takeReply_fresh (m : MicroOp) (s : State.Over E) : (takeReply m s).fresh = s.fresh := by
  unfold takeReply; split <;> rfl
@[simp] theorem takeReply_transport (m : MicroOp) (s : State.Over E) :
    (takeReply m s).transport = if fallible m then s.transport.tail else s.transport := by
  unfold takeReply; split <;> rfl
@[simp] theorem takeReply_timing (m : MicroOp) (s : State.Over E) :
    (takeReply m s).timing = if fallible m then s.timing else s.timing.tail := by
  unfold takeReply; split <;> rfl

/-! One call answered `Ok` or `done`: the event, the latches, one step of `upc`, one reply used. -/

@[simp] theorem okCall_cfg (m : MicroOp) (s : State.Over E) : (okCall m s).cfg = s.cfg := by simp [okCall]
@[simp] theorem okCall_busy (m : MicroOp) (s : State.Over E) : (okCall m s).busy = s.busy := by simp [okCall]
@[simp] theorem okCall_op (m : MicroOp) (s : State.Over E) : (okCall m s).op = s.op := by simp [okCall]
@[simp] theorem okCall_ferr (m : MicroOp) (s : State.Over E) : (okCall m s).ferr = s.ferr := by simp [okCall]
@[simp] theorem okCall_fb (m : MicroOp) (s : State.Over E) : (okCall m s).fb = s.fb := by simp [okCall]
@[simp] theorem okCall_ctrl (m : MicroOp) (s : State.Over E) : (okCall m s).ctrl = s.ctrl := by simp [okCall]
@[simp] theorem okCall_hostLog (m : MicroOp) (s : State.Over E) : (okCall m s).hostLog = s.hostLog := by simp [okCall]
@[simp] theorem okCall_host (m : MicroOp) (s : State.Over E) : (okCall m s).host = s.host := by simp [okCall]
@[simp] theorem okCall_upc (m : MicroOp) (s : State.Over E) : (okCall m s).upc = s.upc + 1 := by simp [okCall]
@[simp] theorem okCall_pending (m : MicroOp) (s : State.Over E) : (okCall m s).pending = none := by simp [okCall]
@[simp] theorem okCall_trace (m : MicroOp) (s : State.Over E) :
    (okCall m s).trace = s.trace ++ [okEvent s.cfg m] := by simp [okCall]
@[simp] theorem okCall_transport (m : MicroOp) (s : State.Over E) :
    (okCall m s).transport = if fallible m then s.transport.tail else s.transport := by simp [okCall]
@[simp] theorem okCall_timing (m : MicroOp) (s : State.Over E) :
    (okCall m s).timing = if fallible m then s.timing else s.timing.tail := by simp [okCall]

theorem readLine_okCall (m : MicroOp) (s : State.Over E) (l : Line) :
    readLine (okCall m s) l = latchOf l (readLine s l) [(okEvent s.cfg m : Event E)] := by
  have h := effectOk_latch m (takeReply m (issue m s)) l
  cases l <;> simpa [readLine, okCall] using h

/-- One call whose answer is at hand goes on. -/
theorem call_okCall {m : MicroOp} {s : State.Over E} (hc : cleaning s = none)
    (hr : fallible m = true → s.transport.head? = some .ok)
    (ht : fallible m = false → s.timing.head? = some .done) : call m s = .going (okCall m s) := by
  unfold call complete
  rw [cleaning_issue, hc]
  cases hf : fallible m with
  | true =>
    obtain ⟨rs, h⟩ : ∃ rs, s.transport = .ok :: rs := by
      cases hs : s.transport with
      | nil => simp [hs] at hr; exact absurd hf (by simp [hr])
      | cons r rs => exact ⟨rs, by simpa [hs] using hr hf⟩
    rw [answer_ok_transport (rs := rs) hf (by simpa using h)]
    simp [okCall, takeReply, hf, h]
  | false =>
    obtain ⟨ts, h⟩ : ∃ ts, s.timing = .done :: ts := by
      cases hs : s.timing with
      | nil => simp [hs] at ht; exact absurd hf (by simp [ht])
      | cons r rs => exact ⟨rs, by simpa [hs] using ht hf⟩
    rw [answer_done (ts := ts) hf (by simpa using h)]
    simp [okCall, takeReply, hf, h]

/-! The fields after a list every call of which was answered. -/

@[simp] theorem okRun_cfg (ops : List MicroOp) (s : State.Over E) : (okRun ops s).cfg = s.cfg := by
  induction ops generalizing s with
  | nil => rfl
  | cons m ms ih => simp [ih]
@[simp] theorem okRun_busy (ops : List MicroOp) (s : State.Over E) : (okRun ops s).busy = s.busy := by
  induction ops generalizing s with
  | nil => rfl
  | cons m ms ih => simp [ih]
@[simp] theorem okRun_op (ops : List MicroOp) (s : State.Over E) : (okRun ops s).op = s.op := by
  induction ops generalizing s with
  | nil => rfl
  | cons m ms ih => simp [ih]
@[simp] theorem okRun_ferr (ops : List MicroOp) (s : State.Over E) : (okRun ops s).ferr = s.ferr := by
  induction ops generalizing s with
  | nil => rfl
  | cons m ms ih => simp [ih]
@[simp] theorem okRun_fb (ops : List MicroOp) (s : State.Over E) : (okRun ops s).fb = s.fb := by
  induction ops generalizing s with
  | nil => rfl
  | cons m ms ih => simp [ih]
@[simp] theorem okRun_ctrl (ops : List MicroOp) (s : State.Over E) : (okRun ops s).ctrl = s.ctrl := by
  induction ops generalizing s with
  | nil => rfl
  | cons m ms ih => simp [ih]
@[simp] theorem okRun_hostLog (ops : List MicroOp) (s : State.Over E) : (okRun ops s).hostLog = s.hostLog := by
  induction ops generalizing s with
  | nil => rfl
  | cons m ms ih => simp [ih]
@[simp] theorem okRun_host (ops : List MicroOp) (s : State.Over E) : (okRun ops s).host = s.host := by
  induction ops generalizing s with
  | nil => rfl
  | cons m ms ih => simp [ih]
@[simp] theorem okRun_upc (ops : List MicroOp) (s : State.Over E) :
    (okRun ops s).upc = s.upc + ops.length := by
  induction ops generalizing s with
  | nil => rfl
  | cons m ms ih => simp [ih]; omega

@[simp] theorem okRun_trace (ops : List MicroOp) (s : State.Over E) :
    (okRun ops s).trace = s.trace ++ ops.map (okEvent s.cfg) := by
  induction ops generalizing s with
  | nil => simp
  | cons m ms ih => simp [ih]

theorem readLine_okRun (ops : List MicroOp) (s : State.Over E) (l : Line) :
    readLine (okRun ops s) l = latchOf l (readLine s l) (ops.map (okEvent (E := E) s.cfg)) := by
  induction ops generalizing s with
  | nil => rfl
  | cons m ms ih => rw [okRun_cons, ih, readLine_okCall, okCall_cfg, ← latchOf_append]; rfl

/-- After a list that is not empty no call is outstanding. -/
theorem okRun_pending {ops : List MicroOp} (h : ops ≠ []) (s : State.Over E) : (okRun ops s).pending = none := by
  induction ops generalizing s with
  | nil => exact absurd rfl h
  | cons m ms ih =>
    by_cases hm : ms = []
    · simp [hm]
    · exact ih hm _

theorem fallibleCount_cons (m : MicroOp) (ms : List MicroOp) :
    fallibleCount (m :: ms) = fallibleCount ms + if fallible m then 1 else 0 := by
  simp [fallibleCount, List.countP_cons]

/-- During an INIT `pix` stays, and no cell of the controller's memory gets a value (entry 11). -/
theorem okRun_init {ops : List MicroOp} {s : State.Over E} (h : s.op = .init) :
    ((okRun ops s).ctl.pm = s.ctl.pm ∨ (okRun ops s).ctl.pm = []) ∧ (okRun ops s).pix = s.pix := by
  induction ops generalizing s with
  | nil => simp
  | cons m ms ih =>
    obtain ⟨i1, i2⟩ := ih (s := okCall m s) (by simpa using h)
    obtain ⟨e1, e2⟩ := effectOk_init (m := m) (s := takeReply m (issue m s)) (by simpa using h)
    simp only [okCall, advance_ctl, advance_pix, takeReply_ctl, takeReply_pix, issue_ctl, issue_pix] at *
    refine ⟨?_, i2.trans e2⟩
    rcases i1 with i1 | i1
    · rcases e1 with e1 | e1
      · exact .inl (i1.trans e1)
      · exact .inr (i1.trans e1)
    · exact .inr i1

/-- An answered list where nothing is claimed of the controller: every set and every write draws its free
values (entry 11). -/
theorem okRun_unknown {ops : List MicroOp} {s : State.Over E} (h : sinkRuns s = false) :
    (okRun ops s).fresh = s.fresh + 6 * fallibleCount ops ∧
      (okRun ops s).ctl = if fallibleCount ops = 0 then s.ctl
        else scrambled (s.fresh + 6 * (fallibleCount ops - 1)) := by
  induction ops generalizing s with
  | nil => simp [fallibleCount]
  | cons m ms ih =>
    have hk : sinkRuns (okCall m s) = false := by
      rw [sinkRuns_congr (s := s)] <;> simp [h]
    obtain ⟨i1, i2⟩ := ih hk
    rw [okRun_cons, i1, i2]
    have hc := fallibleCount_cons m ms
    cases hf : fallible m with
    | true =>
      obtain ⟨e1, e2⟩ := effectOk_unknown (s := takeReply m (issue m s)) hf
        (by rw [sinkRuns_congr (s := s)] <;> simp [h])
      have f1 : (okCall m s).ctl = scrambled s.fresh := by simpa [okCall] using e1
      have f2 : (okCall m s).fresh = s.fresh + 6 := by simpa [okCall] using e2
      rw [hc, f1, f2, hf]
      refine ⟨by simp; omega, ?_⟩
      by_cases hz : fallibleCount ms = 0
      · simp [hz]
      · simp [hz]; congr 1; omega
    | false =>
      have f : (okCall m s).ctl = s.ctl ∧ (okCall m s).fresh = s.fresh := by
        cases m <;> simp [fallible] at hf; simp [okCall]
      rw [hc, f.1, f.2, hf]
      simp

/-- A clean-up is a DRAW's, with its first error (R35, R165). -/
theorem cleaning_some {s : State.Over E} {e : E} (h : cleaning s = some e) : s.op = .draw ∧ s.ferr = some e := by
  unfold cleaning at h; split at h
  · cases h
  · exact ⟨by assumption, h⟩

/-- A faulted INIT issues nothing more (R164). -/
theorem afterFault_init {e : E} {s : State.Over E} (h : s.op = .init) :
    afterFault (takeBusFault e s) = takeBusFault e s := by
  rw [takeBusFault_init h]; simp [afterFault]

/-- A DRAW that faulted before the last release issues that release (R150, R165). -/
theorem afterFault_draw {e : E} {s : State.Over E} (h : s.op = .draw) (hb : s.busy = true) (hu : s.upc < 17) :
    afterFault (takeBusFault e s) =
      completeCleanup e .csR (issue .csR { windowLost s with ferr := some e, upc := 17 }) := by
  rw [takeBusFault_draw h hu]; simp [afterFault, hb, cleaning, h]

/-- A DRAW whose last release faulted issues nothing more (R149). -/
theorem afterFault_draw_last {e : E} {s : State.Over E} (h : s.op = .draw) (hu : ¬s.upc < 17) :
    afterFault (takeBusFault e s) = takeBusFault e s := by
  rw [takeBusFault_draw_last h hu]; simp [afterFault]

end Sys2Proof.Machine
end

