-- ==== Sys2Proof/Laws/Operands.lean ====
section
/-! SUPPORT. Splitting and joining bytes, and the levels of a line. -/

namespace Sys2Proof.Machine

/-- R16, R55: the two bytes of a value, joined again, are the value. -/
theorem ofBytes_be16 (v : BitVec 16) : ofBytes (v.extractLsb' 8 8) (v.extractLsb' 0 8) = v := by
  have : v.extractLsb' 8 8 ++ v.extractLsb' 0 8 = (v : BitVec (8 + 8)) := by
    apply BitVec.eq_of_getLsbD_eq
    intro i hi
    rw [BitVec.getLsbD_append]
    simp only [BitVec.getLsbD_extractLsb']
    by_cases h : i < 8 <;> simp [h]
    rw [show 8 + (i - 8) = i by omega]
    simp [show i - 8 < 8 by omega]
  exact this

/-- R16: the two bytes by their numbers. -/
theorem be16_bytes (v : BitVec 16) :
    be16 v = [BitVec.ofNat 8 (v.toNat / 256), BitVec.ofNat 8 (v.toNat % 256)] := by
  have h1 : v.extractLsb' 8 8 = BitVec.ofNat 8 (v.toNat / 256) := by
    apply BitVec.eq_of_toNat_eq
    simp [BitVec.extractLsb'_toNat, Nat.shiftRight_eq_div_pow]
  have h2 : v.extractLsb' 0 8 = BitVec.ofNat 8 (v.toNat % 256) := by
    apply BitVec.eq_of_toNat_eq
    simp [BitVec.extractLsb'_toNat]
  simp [be16, h1, h2]

/-- R14: the two levels of a line differ. -/
theorem ofLevel_invert_ne (l : Level) : ofLevel (invert l) ≠ ofLevel l := by
  cases l <;> simp [ofLevel, invert]

end Sys2Proof.Machine
end

