-- ==== Sys2Proof/Laws/PerInstr.lean ====
section
/-! SUPPORT. Statements about every instruction as syntax, one lemma per constructor. -/

namespace Sys2Proof.Laws

open Sys2Proof Sys2Proof.Machine

/-- R63, R65 to R69, R73: the shape of an instruction's words: a request of code 0x01 or 0x02, whose
framebuffer has the length it is handed over with if the instruction is well formed; or one byte of tag
`C` and then only bytes of tag `D`. -/
def Encoding.Statement (i : Instr) : Prop :=
  ∀ c : Cfg,
    match encode c i with
    | .request r => (r.code = 0x01 ∨ r.code = 0x02) ∧ (i.wf = true → r.fb.length = r.len)
    | .wire bytes => bytes.head?.map TaggedByte.tag = some .c ∧ ∀ b ∈ bytes.tail, b.tag = .d

theorem Encoding.wireShape (op : Byte) (params : List Byte) :
    (wireCommand op params).head?.map TaggedByte.tag = some .c ∧
      ∀ b ∈ (wireCommand op params).tail, b.tag = .d := by
  simp [wireCommand]

theorem Encoding.init : Encoding.Statement .init := fun _ => ⟨.inl rfl, fun _ => rfl⟩
theorem Encoding.draw (fb : List Pixel) (len : Nat) : Encoding.Statement (.draw fb len) :=
  fun _ => ⟨.inr rfl, fun h => by simpa [Instr.wf] using h⟩
theorem Encoding.swreset : Encoding.Statement .swreset := fun _ => Encoding.wireShape _ _
theorem Encoding.slpout : Encoding.Statement .slpout := fun _ => Encoding.wireShape _ _
theorem Encoding.colmod : Encoding.Statement .colmod := fun _ => Encoding.wireShape _ _
theorem Encoding.madctl : Encoding.Statement .madctl := fun _ => Encoding.wireShape _ _
theorem Encoding.dispon : Encoding.Statement .dispon := fun _ => Encoding.wireShape _ _
theorem Encoding.caset (xs xe : Bound) : Encoding.Statement (.caset xs xe) :=
  fun _ => Encoding.wireShape _ _
theorem Encoding.raset (ys ye : Bound) : Encoding.Statement (.raset ys ye) :=
  fun _ => Encoding.wireShape _ _
theorem Encoding.ramwr : Encoding.Statement .ramwr := fun _ => Encoding.wireShape _ _
theorem Encoding.tuning (op : Byte) (params : List Byte) (postDelay : Nat) :
    Encoding.Statement (.tuning op params postDelay) :=
  fun _ => Encoding.wireShape _ _

end Sys2Proof.Laws
end

