-- ==== Sys2Proof/Laws/Run.lean ====
section
/-! SUPPORT. The run of a list every call of which the outside answers, and the runs that end in a failed
call or wait for an answer. -/

namespace Sys2Proof.Machine

variable {E : Type}

theorem waitCount_cons (m : MicroOp) (ms : List MicroOp) :
    waitCount (m :: ms) = waitCount ms + if fallible m then 0 else 1 := by
  cases h : fallible m <;> simp [waitCount, h]

theorem fallibleCount_append (xs ys : List MicroOp) :
    fallibleCount (xs ++ ys) = fallibleCount xs + fallibleCount ys := by
  simp [fallibleCount]

theorem writeCount_append (xs ys : List MicroOp) :
    writeCount (xs ++ ys) = writeCount xs + writeCount ys := by
  simp [writeCount]

theorem waitCount_append (xs ys : List MicroOp) :
    waitCount (xs ++ ys) = waitCount xs + waitCount ys := by
  simp [waitCount]

theorem okRun_transport (ops : List MicroOp) (s : State.Over E) :
    (okRun ops s).transport = s.transport.drop (fallibleCount ops) := by
  induction ops generalizing s with
  | nil => simp [fallibleCount]
  | cons m ms ih =>
    rw [okRun_cons, ih, fallibleCount_cons, okCall_transport]
    cases fallible m <;> simp [← List.drop_one, List.drop_drop, Nat.add_comm]

theorem okRun_timing (ops : List MicroOp) (s : State.Over E) :
    (okRun ops s).timing = s.timing.drop (waitCount ops) := by
  induction ops generalizing s with
  | nil => simp [waitCount]
  | cons m ms ih =>
    rw [okRun_cons, ih, waitCount_cons, okCall_timing]
    cases fallible m <;> simp [← List.drop_one, List.drop_drop, Nat.add_comm]

/-- A queue that begins with `n+1` copies of `a`. -/
theorem take_replicate_succ {α : Type} {xs : List α} {n : Nat} {a : α}
    (h : xs.take (n + 1) = List.replicate (n + 1) a) :
    xs.head? = some a ∧ xs.tail.take n = List.replicate n a := by
  cases xs with
  | nil => simp [List.replicate_succ] at h
  | cons x xs =>
    simp only [List.take_succ_cons, List.replicate_succ, List.cons.injEq] at h
    exact ⟨by simp [h.1], by simpa using h.2⟩

/-- The premise that every call is answered, taken apart. -/
theorem AllAnswered.cons {m : MicroOp} {ms : List MicroOp} {s : State.Over E} (h : AllAnswered (m :: ms) s) :
    (fallible m = true → s.transport.head? = some .ok) ∧
      (fallible m = false → s.timing.head? = some .done) ∧ AllAnswered ms (okCall m s) := by
  obtain ⟨ht, hw⟩ := h
  rw [fallibleCount_cons] at ht
  rw [waitCount_cons] at hw
  cases hf : fallible m with
  | true =>
    simp only [hf, if_true] at ht hw
    obtain ⟨h1, h2⟩ := take_replicate_succ ht
    exact ⟨fun _ => h1, by simp, by simpa [AllAnswered, hf] using ⟨h2, hw⟩⟩
  | false =>
    simp only [hf, Bool.false_eq_true, if_false] at ht hw
    obtain ⟨h1, h2⟩ := take_replicate_succ hw
    exact ⟨by simp, fun _ => h1, by simpa [AllAnswered, hf] using ⟨ht, h2⟩⟩

@[simp] theorem cleaning_okCall (m : MicroOp) (s : State.Over E) : cleaning (okCall m s) = cleaning s :=
  cleaning_congr (by simp) (by simp)

/-- A list every call of which is answered runs to its end (R99). -/
theorem runOps_allAnswered {ops : List MicroOp} {s : State.Over E} (hc : cleaning s = none)
    (h : AllAnswered ops s) : runOps ops s = .going (okRun ops s) := by
  induction ops generalizing s with
  | nil => rfl
  | cons m ms ih =>
    obtain ⟨h1, h2, h3⟩ := h.cons
    rw [runOps, call_okCall hc h1 h2, okRun_cons]
    exact ih (by simpa using hc) h3

/-- The first call of a list that is not answered `Ok` or `done`, and the run up to it (R18). -/
theorem allAnswered_or_first (ops : List MicroOp) (s : State.Over E) :
    AllAnswered ops s ∨ ∃ pre m post, ops = pre ++ m :: post ∧ AllAnswered pre s ∧
      ¬((fallible m = true → (okRun pre s).transport.head? = some .ok) ∧
        (fallible m = false → (okRun pre s).timing.head? = some .done)) := by
  induction ops generalizing s with
  | nil => exact .inl ⟨by simp [fallibleCount], by simp [waitCount]⟩
  | cons m ms ih =>
    by_cases hm : (fallible m = true → s.transport.head? = some .ok) ∧
        (fallible m = false → s.timing.head? = some .done)
    · have hcons : ∀ ms, AllAnswered ms (okCall m s) → AllAnswered (m :: ms) s := by
        intro ms ⟨h1, h2⟩
        rw [AllAnswered, fallibleCount_cons, waitCount_cons]
        cases hf : fallible m with
        | true =>
          have := hm.1 hf
          cases ht : s.transport with
          | nil => simp [ht] at this
          | cons r rs => simp_all [List.replicate_succ]
        | false =>
          have := hm.2 hf
          cases ht : s.timing with
          | nil => simp [ht] at this
          | cons r rs => simp_all [List.replicate_succ]
      rcases ih (okCall m s) with h | ⟨pre, m', post, rfl, h, hn⟩
      · exact .inl (hcons _ h)
      · exact .inr ⟨m :: pre, m', post, rfl, hcons _ h, hn⟩
    · exact .inr ⟨[], m, ms, rfl, ⟨by simp [fallibleCount], by simp [waitCount]⟩, hm⟩

/-- A run that stops at a call: the answered calls before it, then that call's answer. -/
theorem runOps_prefix {pre ms : List MicroOp} {s : State.Over E} (hc : cleaning s = none)
    (h : AllAnswered pre s) : runOps (pre ++ ms) s = runOps ms (okRun pre s) := by
  rw [runOps_append, runOps_allAnswered hc h]

@[simp] theorem cleaning_okRun (ops : List MicroOp) (s : State.Over E) : cleaning (okRun ops s) = cleaning s :=
  cleaning_congr (by simp) (by simp)

/-- Everything a run of a list can come to, outside a clean-up (R18, R99): every call answered; or, after
some answered calls, a call with no answer; or a fallible call that failed, and its fault. -/
theorem runOps_cases (ops : List MicroOp) {s : State.Over E} (hc : cleaning s = none) :
    (AllAnswered ops s ∧ runOps ops s = .going (okRun ops s)) ∨
    ∃ pre m post, ops = pre ++ m :: post ∧ AllAnswered pre s ∧
      ((∃ t, answer m (issue m (okRun pre s)) = .waiting t ∧ runOps ops s = .stopped t) ∨
        (fallible m = true ∧ ∃ e n rs, (okRun pre s).transport = .err e n :: rs ∧
          runOps ops s = .stopped (afterFault (takeBusFault e
            (effectErr m e n { issue m (okRun pre s) with transport := rs }))))) := by
  rcases allAnswered_or_first ops s with h | ⟨pre, m, post, rfl, h, hn⟩
  · exact .inl ⟨h, runOps_allAnswered hc h⟩
  · refine .inr ⟨pre, m, post, rfl, h, ?_⟩
    rw [runOps_prefix hc h, runOps, call, complete]
    simp only [cleaning_issue, cleaning_okRun, hc]
    cases hf : fallible m with
    | true =>
      cases h : (okRun pre s).transport with
      | nil => left; refine ⟨issue m (okRun pre s), ?_, ?_⟩ <;> simp [answer, hf, answerTransport, h]
      | cons r rs =>
        cases r with
        | silent => left; refine ⟨readAhead { issue m (okRun pre s) with transport := rs }, ?_, ?_⟩ <;> simp [answer, hf, answerTransport, h]
        | ok => exact absurd ⟨fun _ => by simp [h], fun h' => by simp [hf] at h'⟩ hn
        | err e n => right; exact ⟨rfl, e, n, rs, rfl, by simp [answer, hf, answerTransport, h]⟩
    | false =>
      cases h : (okRun pre s).timing with
      | nil => left; refine ⟨issue m (okRun pre s), ?_, ?_⟩ <;> simp [answer, hf, answerDelay, h]
      | cons r rs =>
        cases r with
        | silent => left; refine ⟨{ issue m (okRun pre s) with timing := rs }, ?_, ?_⟩ <;> simp [answer, hf, answerDelay, h]
        | done => exact absurd ⟨fun h' => by simp [hf] at h', fun _ => by simp [h]⟩ hn
end Sys2Proof.Machine
end

