-- ==== Sys2Proof/Laws/Sink.lean ====
section
/-! SUPPORT. The controller as a sink: what one command, one set of bounds and one pixel do to it. -/

namespace Sys2Proof.Machine

theorem sinkBytes_append (c : Cfg) (n : Nat) (t : Tag) (xs ys : List Byte) (k : Controller) :
    sinkBytes c n t (xs ++ ys) k = sinkBytes c n t ys (sinkBytes c n t xs k) := by
  simp [sinkBytes]

/-- R56: two data bytes while the controller receives pixels store one pixel. -/
theorem sinkBytes_pixel (c : Cfg) (n : Nat) {k : Controller} (p : Pixel) (hm : k.mode = .pixels)
    (ha : k.args = []) :
    sinkBytes c n .d (be16 p) k = storePixel p { k with args := [] } := by
  simp [be16, sinkBytes, sinkByte, sinkData, hm, ha, ofBytes_be16]

/-- R55: four data bytes after CASET set the columns of the window. -/
theorem sinkBytes_columns (c : Cfg) (n : Nat) {k : Controller} (xs xe : Bound)
    (hm : k.mode = .column) (ha : k.args = []) :
    sinkBytes c n .d (boundBytes xs xe) k = { k with xs := xs, xe := xe, mode := .other, args := [] } := by
  simp [boundBytes, be16, sinkBytes, sinkByte, sinkData, hm, ha, ofBytes_be16]

/-- R55: four data bytes after RASET set the rows of the window. -/
theorem sinkBytes_rows (c : Cfg) (n : Nat) {k : Controller} (ys ye : Bound)
    (hm : k.mode = .row) (ha : k.args = []) :
    sinkBytes c n .d (boundBytes ys ye) k = { k with ys := ys, ye := ye, mode := .other, args := [] } := by
  simp [boundBytes, be16, sinkBytes, sinkByte, sinkData, hm, ha, ofBytes_be16]

/-- R55: the opcode of CASET, when it is no other, makes the next four data bytes the columns. -/
theorem sinkCommand_caset {c : Cfg} (h1 : c.opCaset ≠ c.opRaset) (h2 : c.opCaset ≠ c.opRamwr) (n : Nat)
    (k : Controller) : sinkCommand c n c.opCaset k = { k with mode := .column, args := [] } := by
  simp [sinkCommand, h1, h2]

/-- R55: the opcode of RASET, when it is no other, makes the next four data bytes the rows. -/
theorem sinkCommand_raset {c : Cfg} (h1 : c.opCaset ≠ c.opRaset) (h3 : c.opRaset ≠ c.opRamwr) (n : Nat)
    (k : Controller) : sinkCommand c n c.opRaset k = { k with mode := .row, args := [] } := by
  simp [sinkCommand, h1.symm, h3]

/-- R56: the opcode of RAMWR, when it is no other, sets the write pointer to (XS, YS). -/
theorem sinkCommand_ramwr {c : Cfg} (h2 : c.opCaset ≠ c.opRamwr) (h3 : c.opRaset ≠ c.opRamwr) (n : Nat)
    (k : Controller) :
    sinkCommand c n c.opRamwr k = { k with mode := .pixels, args := [], col := k.xs, row := k.ys } := by
  simp [sinkCommand, h2.symm, h3.symm]

/-- Where the sink model is claimed whole, the three window opcodes differ (entry 12). -/
theorem sinkGiven_iff {c : Cfg} : sinkGiven c = true ↔ scanGiven c = true ∧ c.opCaset ≠ c.opRaset ∧
    c.opCaset ≠ c.opRamwr ∧ c.opRaset ≠ c.opRamwr := by
  simp [sinkGiven, and_assoc]

theorem claimedPm_given {c : Cfg} (h : sinkGiven c = true) (k : Controller) : claimedPm c k = k := by
  simp [claimedPm, h]

theorem claimedPm_none {c : Cfg} (h : sinkGiven c = false) (k : Controller) :
    claimedPm c k = { k with pm := [] } := by
  simp [claimedPm, h]

/-- R55: a command byte, delivered or not, stores no pixel. -/
theorem pm_sinkBytes_command (c : Cfg) (n : Nat) (k : Controller) (op : Byte) (sent : Nat) :
    (sinkBytes c n .c ([op].take sent) k).pm = k.pm := by
  rcases sent with _ | sent
  · rfl
  · simp [sinkBytes, sinkByte]

/-- R55: bounds, delivered whole or in part, store no pixel. -/
theorem pm_sinkBytes_bounds (c : Cfg) (n : Nat) {k : Controller} (hm : k.mode = .column ∨ k.mode = .row)
    (ha : k.args = []) (a b : Bound) (sent : Nat) :
    (sinkBytes c n .d ((boundBytes a b).take sent) k).pm = k.pm := by
  rcases hm with hm | hm <;>
    rcases sent with _ | _ | _ | _ | sent <;>
      simp [boundBytes, be16, sinkBytes, sinkByte, sinkData, hm, ha]

/-! The registers of the window that a byte cannot set: R55 gives them to CASET and RASET alone. -/

/-- A pixel moves the pointer, not the window. -/
@[simp] theorem storePixel_xs (p : Pixel) (k : Controller) : (storePixel p k).xs = k.xs := by
  unfold storePixel advancePointer; repeat' split
  all_goals rfl
@[simp] theorem storePixel_xe (p : Pixel) (k : Controller) : (storePixel p k).xe = k.xe := by
  unfold storePixel advancePointer; repeat' split
  all_goals rfl
@[simp] theorem storePixel_ys (p : Pixel) (k : Controller) : (storePixel p k).ys = k.ys := by
  unfold storePixel advancePointer; repeat' split
  all_goals rfl
@[simp] theorem storePixel_ye (p : Pixel) (k : Controller) : (storePixel p k).ye = k.ye := by
  unfold storePixel advancePointer; repeat' split
  all_goals rfl
@[simp] theorem storePixel_mode (p : Pixel) (k : Controller) : (storePixel p k).mode = k.mode := by
  unfold storePixel advancePointer; repeat' split
  all_goals rfl

/-- What the controller is receiving cannot set the columns. -/
def keepsColumns : SinkMode → Bool
  | .column => false
  | .several column _ _ => !column
  | .idle | .row | .pixels | .other => true

/-- What the controller is receiving cannot set the rows. -/
def keepsRows : SinkMode → Bool
  | .row => false
  | .several _ row _ => !row
  | .idle | .column | .pixels | .other => true

/-- R55: data that is not CASET's leaves XS and XE. -/
theorem sinkBytes_keepsColumns (c : Cfg) (n : Nat) (bytes : List Byte) {k : Controller}
    (h : keepsColumns k.mode = true) :
    (sinkBytes c n .d bytes k).xs = k.xs ∧ (sinkBytes c n .d bytes k).xe = k.xe ∧
      keepsColumns (sinkBytes c n .d bytes k).mode = true := by
  induction bytes generalizing k with
  | nil => exact ⟨rfl, rfl, h⟩
  | cons b bytes ih =>
    have hb : (sinkData n b k).xs = k.xs ∧ (sinkData n b k).xe = k.xe ∧
        keepsColumns (sinkData n b k).mode = true := by
      unfold sinkData
      split <;> simp_all [keepsColumns, unsettle]
    obtain ⟨h1, h2, h3⟩ := ih hb.2.2
    exact ⟨h1.trans hb.1, h2.trans hb.2.1, h3⟩

/-- R55: data that is not RASET's leaves YS and YE. -/
theorem sinkBytes_keepsRows (c : Cfg) (n : Nat) (bytes : List Byte) {k : Controller}
    (h : keepsRows k.mode = true) :
    (sinkBytes c n .d bytes k).ys = k.ys ∧ (sinkBytes c n .d bytes k).ye = k.ye ∧
      keepsRows (sinkBytes c n .d bytes k).mode = true := by
  induction bytes generalizing k with
  | nil => exact ⟨rfl, rfl, h⟩
  | cons b bytes ih =>
    have hb : (sinkData n b k).ys = k.ys ∧ (sinkData n b k).ye = k.ye ∧
        keepsRows (sinkData n b k).mode = true := by
      unfold sinkData
      split <;> simp_all [keepsRows, unsettle]
    obtain ⟨h1, h2, h3⟩ := ih hb.2.2
    exact ⟨h1.trans hb.1, h2.trans hb.2.1, h3⟩

/-- R55: an opcode that is not CASET's leaves XS and XE. -/
theorem sinkCommand_keepsColumns {c : Cfg} {op : Byte} (h : op ≠ c.opCaset) (n : Nat) (k : Controller) :
    (sinkCommand c n op k).xs = k.xs ∧ (sinkCommand c n op k).xe = k.xe ∧
      keepsColumns (sinkCommand c n op k).mode = true := by
  unfold sinkCommand
  split <;> simp_all [keepsColumns, unsettle]

/-- R55: an opcode that is not RASET's leaves YS and YE. -/
theorem sinkCommand_keepsRows {c : Cfg} {op : Byte} (h : op ≠ c.opRaset) (n : Nat) (k : Controller) :
    (sinkCommand c n op k).ys = k.ys ∧ (sinkCommand c n op k).ye = k.ye ∧
      keepsRows (sinkCommand c n op k).mode = true := by
  unfold sinkCommand
  split <;> simp_all [keepsRows, unsettle]

/-- R56: a pixel is stored in the pointer's cell and in no other. -/
theorem pmRead_storePixel (p : Pixel) (k : Controller) {j : Nat} (hj : j ≠ pmKey k.col.toNat k.row.toNat) :
    pmRead (storePixel p k).pm j = pmRead k.pm j := by
  unfold storePixel
  split
  · rw [advancePointer_pm]; exact pmRead_pmWrite_other _ _ hj
  · rw [advancePointer_pm]

/-- R56: the pixel stored is read back, while the pointer is inside the native area. -/
theorem pmRead_storePixel_same (p : Pixel) {k : Controller} (hc : k.col.toNat < Cfg.pw)
    (hr : k.row.toNat < Cfg.ph) : pmRead (storePixel p k).pm (pmKey k.col.toNat k.row.toNat) = some p := by
  simp [storePixel, hc, hr]

end Sys2Proof.Machine
end

