-- ==== Sys2Proof/Laws/Step.lean ====
section
/-! SUPPORT. What a run inside an operation does, said once (`Within`), for every piece of the executor up
to a whole step; and what a step is, case by case. -/

namespace Sys2Proof.Machine

variable {E : Type}

/-- The transport gave the error `e` among the replies taken from `s` to `t`. -/
def Took (s t : State.Over E) (e : E) : Prop :=
  ∃ used k, s.transport = used ++ t.transport ∧ Reply.err e k ∈ used

theorem Took.later {s t u : State.Over E} {e : E} (h : Took s t e) (hu : u.transport <:+ t.transport) :
    Took s u e := by
  obtain ⟨used, k, h1, h2⟩ := h
  obtain ⟨more, hm⟩ := hu
  exact ⟨used ++ more, k, by simp [h1, ← hm], by simp [h2]⟩

theorem Took.earlier {s t u : State.Over E} {e : E} (h : Took t u e) (hs : t.transport <:+ s.transport) :
    Took s u e := by
  obtain ⟨used, k, h1, h2⟩ := h
  obtain ⟨more, hm⟩ := hs
  exact ⟨more ++ used, k, by simp [← hm, h1], by simp [h2]⟩

/-- What the executor does inside one operation, from `s` on: the constants stay; events are only added;
replies are only taken; no free value is drawn twice; while the operation goes on the host sees nothing;
when it ends there is one result, and it is one this operation has. -/
structure Within (s t : State.Over E) : Prop where
  cfg : t.cfg = s.cfg
  host : t.host = s.host
  op : t.op = s.op
  trace : s.trace <+: t.trace
  fresh : s.fresh ≤ t.fresh
  replies : t.transport <:+ s.transport
  going : t.busy = true → t.ctrl = s.ctrl ∧ t.fb = s.fb ∧ t.hostLog = s.hostLog ∧
    (s.op = .init → t.ferr = s.ferr) ∧ ∀ e, t.ferr = some e → s.ferr = some e ∨ Took s t e
  inDraw : s.op = .draw → t.ctrl = s.ctrl
  inInit : s.op = .init → t.pix = s.pix ∧ (t.ctl.pm = s.ctl.pm ∨ t.ctl.pm = [])
  pix : s.pix ≤ s.cfg.w * s.cfg.h → s.pix ≤ t.pix ∧ t.pix ≤ s.cfg.w * s.cfg.h
  ended : t.busy = false → t.fb = [] ∧ ∃ r, t.hostLog = s.hostLog ++ [.res r t.trace.length] ∧
    (s.op = .init → t.ctl.pm = [] ∧ ((r = .ok ∧ t.ctrl = .ready) ∨
      ∃ e, r = .initErr e ∧ t.ctrl = .indeterminate ∧ Took s t e)) ∧
    (s.op = .draw → r = .ok ∨ ∃ e, r = .drawErr e ∧ (s.ferr = some e ∨ Took s t e) ∧
      ∀ k, inWindow s.cfg k = true → pmRead t.ctl.pm k = none)

theorem within_refl {s : State.Over E} (h : s.busy = true) : Within s s := by
  refine ⟨rfl, rfl, rfl, List.prefix_rfl, Nat.le_refl _, List.suffix_rfl, ?_, ?_, ?_, ?_, ?_⟩ <;>
    simp +contextual [h]

theorem Within.trans {s t u : State.Over E} (a : Within s t) (hb : t.busy = true) (b : Within t u) :
    Within s u := by
  obtain ⟨r1, r2, r3, r4, r5⟩ := a.going hb
  have ho := a.op
  have hc := a.cfg
  refine ⟨b.cfg.trans hc, b.host.trans a.host, b.op.trans ho, a.trace.trans b.trace, a.fresh.trans b.fresh,
    b.replies.trans a.replies, ?_, ?_, ?_, ?_, ?_⟩
  · intro h
    obtain ⟨q1, q2, q3, q4, q5⟩ := b.going h
    refine ⟨q1.trans r1, q2.trans r2, q3.trans r3, fun h => (q4 (ho.trans h)).trans (r4 h), ?_⟩
    intro e h
    rcases q5 e h with h | h
    · exact (r5 e h).imp_right (·.later b.replies)
    · exact .inr (h.earlier a.replies)
  · intro h; exact (b.inDraw (ho.trans h)).trans (a.inDraw h)
  · intro h
    obtain ⟨p1, p2⟩ := a.inInit h
    obtain ⟨q1, q2⟩ := b.inInit (ho.trans h)
    refine ⟨q1.trans p1, ?_⟩
    rcases q2 with q2 | q2
    · exact p2.imp q2.trans q2.trans
    · exact .inr q2
  · intro h
    have h1 := a.pix h
    have h2 := b.pix (by rw [hc]; exact h1.2)
    rw [hc] at h2
    omega
  · intro h
    obtain ⟨q1, r, q2, q3, q4⟩ := b.ended h
    refine ⟨q1, r, by rw [q2, r3], ?_, ?_⟩
    · intro h
      obtain ⟨p1, p2⟩ := q3 (ho.trans h)
      refine ⟨p1, p2.imp_right ?_⟩
      rintro ⟨e, x, y, z⟩
      exact ⟨e, x, y, z.earlier a.replies⟩
    · intro h
      refine (q4 (ho.trans h)).imp_right ?_
      rintro ⟨e, x, y, z⟩
      refine ⟨e, x, ?_, by rw [← hc]; exact z⟩
      rcases y with y | y
      · exact (r5 e y).imp_right (·.later b.replies)
      · exact .inr (y.earlier a.replies)

theorem within_issue {m : MicroOp} {s : State.Over E} (hb : s.busy = true) : Within s (issue m s) := by
  refine ⟨rfl, rfl, rfl, List.prefix_rfl, Nat.le_refl _, List.suffix_rfl, ?_, ?_, ?_, ?_, ?_⟩ <;>
    simp +contextual [hb]

theorem within_advance {s : State.Over E} (hb : s.busy = true) : Within s (advance s) := by
  refine ⟨rfl, rfl, rfl, List.prefix_rfl, Nat.le_refl _, List.suffix_rfl, ?_, ?_, ?_, ?_, ?_⟩ <;>
    simp +contextual [hb]

theorem within_waiting {m : MicroOp} {s t : State.Over E} (hb : s.busy = true) (h : answer m s = .waiting t) :
    Within s t := by
  have hx : t.transport <:+ s.transport ∧ (s.op = .init → t.pix = s.pix) ∧
      (s.pix ≤ s.cfg.w * s.cfg.h → s.pix ≤ t.pix ∧ t.pix ≤ s.cfg.w * s.cfg.h) := by
    unfold answer at h
    split at h
    · unfold answerTransport at h
      split at h <;> cases h
      · exact ⟨List.suffix_rfl, fun _ => rfl, fun h => ⟨Nat.le_refl _, h⟩⟩
      · next rs hr =>
        unfold readAhead
        split
        · next hp =>
          refine ⟨by simp [hr], ?_, ?_⟩
          · intro ho; simp [isPayload, ho] at hp
          · simp at hp ⊢; omega
        · exact ⟨by simp [hr], fun _ => rfl, fun h => ⟨Nat.le_refl _, h⟩⟩
    · unfold answerDelay at h
      split at h <;> cases h <;> exact ⟨List.suffix_rfl, fun _ => rfl, fun h => ⟨Nat.le_refl _, h⟩⟩
  obtain ⟨h1, h2, h3⟩ := hx
  obtain ⟨rs, ts, k, rfl⟩ := waiting_eq h
  refine ⟨rfl, rfl, rfl, List.prefix_rfl, Nat.le_refl _, h1, ?_, ?_, fun h => ⟨h2 h, .inl rfl⟩, h3, ?_⟩ <;>
    simp +contextual [hb]

theorem within_ok {m : MicroOp} {s : State.Over E} {rs : List (Reply E)} {ts : List Tick} (hb : s.busy = true)
    (h : rs <:+ s.transport) : Within s (effectOk m { s with transport := rs, timing := ts }) := by
  refine ⟨by simp, by simp, by simp, by simp, effectOk_fresh_le m { s with transport := rs, timing := ts },
    by simpa using h, ?_, ?_, ?_, ?_, ?_⟩
  · exact fun _ => ⟨by simp, by simp, by simp, by simp, fun e he => .inl (by simpa using he)⟩
  · simp
  · exact fun ho => (effectOk_init (s := { s with transport := rs, timing := ts }) ho).symm
  · intro h; exact effectOk_pix (s := { s with transport := rs, timing := ts }) h
  · simp [hb]

theorem within_err {m : MicroOp} {e : E} {n : Nat} {s : State.Over E} {rs : List (Reply E)} (hb : s.busy = true)
    (h : rs <:+ s.transport) : Within s (effectErr m e n { s with transport := rs }) := by
  refine ⟨by simp, by simp, by simp, by simp, effectErr_fresh_le m e n { s with transport := rs },
    by simpa using h, ?_, ?_, ?_, ?_, ?_⟩
  · exact fun _ => ⟨by simp, by simp, by simp, by simp, fun e he => .inl (by simpa using he)⟩
  · simp
  · exact fun ho => (effectErr_init (s := { s with transport := rs }) ho).symm
  · intro h; exact effectErr_pix (s := { s with transport := rs }) h
  · simp [hb]

/-- R57: after a failed DRAW no cell of its window has a value. -/
theorem pmRead_forgetWindow {c : Cfg} {k : Nat} (ctl : Controller) (h : inWindow c k = true) :
    pmRead (forgetWindow c ctl).pm k = none :=
  pmRead_filter_drop _ (fun k => !inWindow c k) (by simp [h])

theorem within_endCleanup {e : E} {s : State.Over E} (ho : s.op = .draw) (he : s.ferr = some e) :
    Within s (endCleanup e s) := by
  refine ⟨rfl, rfl, rfl, List.prefix_rfl, Nat.le_refl _, List.suffix_rfl, ?_, ?_, ?_, ?_, ?_⟩ <;>
    simp +contextual [endCleanup, ho, he]
  intro k hk
  exact pmRead_forgetWindow _ hk

theorem within_finish {s : State.Over E} : Within s (finish s) := by
  cases ho : s.op <;>
    (refine ⟨?_, ?_, ?_, ?_, ?_, ?_, ?_, ?_, ?_, ?_, ?_⟩ <;>
      simp +contextual [finish, ho, controllerUnknown, scrambled])

/-- A fault taken, the error being one the transport gave since `u`. -/
theorem within_fault {e : E} {u s : State.Over E} (hb : s.busy = true) (hu : Within u s) (hk : Took u s e) :
    Within u (takeBusFault e s) := by
  have ho := hu.op
  have hc := hu.cfg
  obtain ⟨r1, r2, r3, r4, r5⟩ := hu.going hb
  cases hop : s.op with
  | init =>
    rw [takeBusFault_init hop]
    rw [hop] at ho
    refine ⟨hu.cfg, hu.host, hu.op, hu.trace, hu.fresh.trans (by simp [controllerUnknown]), hu.replies, ?_, ?_,
      fun h => ⟨(hu.inInit h).1, .inr rfl⟩, hu.pix, ?_⟩
    · simp
    · simp [← ho]
    · simp [r3, ← ho, controllerUnknown, scrambled]
      exact hk
  | draw =>
    rw [hop] at ho
    by_cases hl : s.upc < 17
    · rw [takeBusFault_draw hop hl]
      refine ⟨hu.cfg, hu.host, hu.op, hu.trace, hu.fresh, hu.replies, ?_, hu.inDraw,
        by simp [← ho], hu.pix, ?_⟩
      · simp [r1, r2, r3, ← ho]
        intro _
        exact .inr hk
      · simp [hb]
    · rw [takeBusFault_draw_last hop hl]
      refine ⟨hu.cfg, hu.host, hu.op, hu.trace, hu.fresh, hu.replies, ?_, hu.inDraw,
        by simp [← ho], hu.pix, ?_⟩
      · simp
      · simp [r3, ← ho]
        refine ⟨.inr hk, ?_⟩
        rw [hc]
        intro j hj
        exact pmRead_forgetWindow _ hj

theorem within_completeCleanup {e : E} {m : MicroOp} {s : State.Over E} (hb : s.busy = true)
    (ho : s.op = .draw) (he : s.ferr = some e) : Within s (completeCleanup e m s) := by
  unfold completeCleanup
  cases h : answer m s with
  | waiting t => exact within_waiting hb h
  | ok t =>
    obtain ⟨rs, ts, hr, rfl⟩ := answer_ok_inv h
    exact (within_ok hb hr).trans (by simp [hb]) (within_endCleanup (by simp [ho]) (by simp [he]))
  | err e' t =>
    obtain ⟨n, rs, hr, rfl, _⟩ := answer_err_inv h
    exact (within_err hb (by simp [hr])).trans (by simp [hb]) (within_endCleanup (by simp [ho]) (by simp [he]))

theorem within_complete {m : MicroOp} {s : State.Over E} (hb : s.busy = true) :
    Within s (complete m s).state ∧ ∀ t, complete m s = .going t → t.busy = true := by
  unfold complete
  split
  · next e hc =>
    obtain ⟨h1, h2⟩ := cleaning_some hc
    exact ⟨within_completeCleanup hb h1 h2, by simp⟩
  · cases h : answer m s with
    | waiting t => exact ⟨within_waiting hb h, by simp⟩
    | ok t =>
      obtain ⟨rs, ts, hr, rfl⟩ := answer_ok_inv h
      refine ⟨(within_ok hb hr).trans (by simp [hb]) (within_advance (by simp [hb])), ?_⟩
      intro t ht; cases ht; simp [hb]
    | err e t =>
      obtain ⟨n, rs, hr, rfl, _⟩ := answer_err_inv h
      refine ⟨?_, by simp⟩
      have a := within_fault (e := e) (s := effectErr m e n { s with transport := rs }) (by simp [hb])
        (within_err hb (by simp [hr])) ⟨[.err e n], n, by simp [hr], by simp⟩
      simp only [Progress.state]
      unfold afterFault
      split
      · next first h1 h2 =>
        obtain ⟨h3, h4⟩ := cleaning_some h2
        exact a.trans h1 ((within_issue h1).trans (by simpa using h1)
          (within_completeCleanup (by simpa using h1) (by simpa using h3) (by simpa using h4)))
      · exact a
      · exact a

theorem within_runOps {ms : List MicroOp} {s : State.Over E} (hb : s.busy = true) :
    Within s (runOps ms s).state ∧ ∀ t, runOps ms s = .going t → t.busy = true := by
  induction ms generalizing s with
  | nil => exact ⟨within_refl hb, by intro t h; cases h; exact hb⟩
  | cons m ms ih =>
    obtain ⟨h1, h2⟩ := within_complete (m := m) (s := issue m s) (by simpa using hb)
    have h := (within_issue (m := m) hb).trans (by simpa using hb) h1
    simp only [runOps, call]
    cases hc : complete m (issue m s) with
    | going t =>
      rw [hc] at h
      have ht := h2 t hc
      obtain ⟨i1, i2⟩ := ih ht
      exact ⟨h.trans ht i1, i2⟩
    | stopped t => rw [hc] at h; exact ⟨h, by simp⟩

theorem within_finishRun {ms : List MicroOp} {s : State.Over E} (hb : s.busy = true) :
    Within s (finishRun (runOps ms s)) := by
  obtain ⟨h1, h2⟩ := within_runOps (ms := ms) hb
  cases h : runOps ms s with
  | going t => rw [h] at h1; exact h1.trans (h2 t h) within_finish
  | stopped t => rw [h] at h1; exact h1

theorem within_continueOp {s : State.Over E} (hb : s.busy = true) : Within s (continueOp s) := by
  unfold continueOp
  split
  · exact within_finishRun hb
  · next m _ =>
    obtain ⟨h1, h2⟩ := within_complete (m := m) hb
    cases hc : complete m s with
    | going t => rw [hc] at h1; exact h1.trans (h2 t hc) (within_finishRun (h2 t hc))
    | stopped t => rw [hc] at h1; exact h1

/-! What exec is, instruction by instruction. -/

theorem exec_init_eq {s : State} (hb : s.busy = false) :
    exec .init s = .next (finishRun (runOps (initProg s.cfg) (accept .init [] s))) := by
  simp [exec, execInit, hb]

theorem exec_draw_eq {s : State} {fb : List Pixel} {len : Nat} (hb : s.busy = false)
    (hl : len = s.cfg.w * s.cfg.h) :
    exec (.draw fb len) s = .next (finishRun (runOps (drawProg s.cfg fb) (accept .draw fb s))) := by
  simp [exec, execDraw, hb, hl]

/-- A next state of a wire command: the operation is running with no call outstanding, and the command's
list was run. -/
theorem exec_command_inv {s t : State} {i : Instr} (h : exec i s = .next t) (hi : i ≠ .init)
    (hd : ∀ fb len, i ≠ .draw fb len) :
    s.busy = true ∧ s.pending = none ∧ t = (runOps (commandOps s.cfg i) s).state := by
  have hr : runCommand (commandOps s.cfg i) s = .next t := by
    cases i <;> simp_all [exec, execSwreset, execSlpout, execColmod, execMadctl, execDispon, execTuning,
      execCaset, execRaset, execRamwr, commandOps]
    all_goals split at h <;> simp_all
  unfold runCommand at hr
  split at hr
  · split at hr
    · cases hr; exact ⟨by assumption, by assumption, rfl⟩
    · cases hr
  · cases hr

/-- The command found at a place in a sequence: what is left of the sequence begins with its list. -/
theorem commandAt_drop {c : Cfg} (tail : List MicroOp) {is : List Instr} {n : Nat} {i : Instr}
    (h : commandAt c is n = some i) :
    i ∈ is ∧ ∃ rest, (is.flatMap (commandOps c) ++ tail).drop n = commandOps c i ++ rest := by
  induction is generalizing n with
  | nil => simp [commandAt] at h
  | cons j is ih =>
    simp only [commandAt] at h
    split at h
    · next hn =>
      cases h; subst hn
      exact ⟨by simp, is.flatMap (commandOps c) ++ tail, by simp⟩
    · split at h
      · cases h
      · next h1 h2 =>
        obtain ⟨hm, r, hr⟩ := ih h
        refine ⟨by simp [hm], r, ?_⟩
        rw [← hr, List.flatMap_cons, List.append_assoc, List.drop_append,
          List.drop_eq_nil_of_le (by omega), List.nil_append]

end Sys2Proof.Machine
end

