-- ==== Sys2Proof/Tests/Slice0.lean ====
section
/-! SUPPORT. Tests: well-formedness, decoding from words written out from the spec, the vectors of
spec/95_test_vectors.md one step at a time, and a witness for the hypotheses of each obligation. -/

namespace Sys2Proof.Tests

open Sys2Proof Sys2Proof.Machine

/-! ### The states the tests speak of -/

/-- The geometry of T30: (W, H, ROFF, COFF) = (2, 2, 1, 3). -/
def small : Cfg := { Cfg.ref with w := 2, h := 2, rOff := 1, cOff := 3 }

/-- The configuration of P5: every polarity inverted, no T_RST_PRE. -/
def inverted : Cfg :=
  { Cfg.ref with w := 1, h := 1, rOff := 319, cOff := 239, csAssert := .high, dcCmd := .high,
                 rstActive := .high, tRstPre := 0 }

/-- A geometry. -/
def geometry (w h rOff cOff : Nat) : Cfg := { Cfg.ref with w := w, h := h, rOff := rOff, cOff := cOff }

/-- The framebuffer of T30. -/
def fb4 : List Pixel := [0xF800, 0x07E0, 0x001F, 0xFFFF]

def oks (n : Nat) : List (Reply BusError) := List.replicate n .ok

def dones (n : Nat) : List Tick := List.replicate n .done

/-- An error of the transport. -/
def e1 : BusError := ⟨1⟩

def e2 : BusError := ⟨2⟩

/-- Idle after construction, with the answers to come. -/
def idleWith (c : Cfg) (rs : List (Reply BusError)) (ts : List Tick) : State :=
  { State.constructed c with transport := rs, timing := ts }

/-- Idle, with a request to come. -/
def asking (code : Byte) (fb : List Pixel) (len : Nat) (rs : List (Reply BusError)) (ts : List Tick) : State :=
  { idleWith small rs ts with host := [⟨code, fb, len⟩] }

/-- An INIT at a place of its program. -/
def inInit (upc : Nat) (rs : List (Reply BusError)) (ts : List Tick) : State :=
  { idleWith small rs ts with busy := true, op := .init, upc := upc, hostLog := [.req .init 0] }

/-- A DRAW at a place of its program, with the latches the sink needs. -/
def inDraw (upc : Nat) (rs : List (Reply BusError)) : State :=
  { idleWith small rs [] with busy := true, op := .draw, upc := upc, fb := fb4, ctrl := .ready,
                              hostLog := [.req .draw 0] }

/-- The next state of an outcome; the reset state where there is none. -/
def after : Host.Outcome State Fault Refusal → State
  | .next s => s
  | .fault _ => State.reset
  | .refused _ => State.reset

def isNext : Host.Outcome State Fault Refusal → Bool
  | .next _ => true
  | .fault _ => false
  | .refused _ => false

def refusal : Host.Outcome State Fault Refusal → Option Refusal
  | .next _ => none
  | .fault _ => none
  | .refused r => some r

/-! ### Well-formedness refuses, one ill-formed term for each check -/

-- R7, R8; 95_test_vectors.md "Not geometries"
theorem test_wf_width_over : (geometry 241 1 0 0).valid = false := by decide
theorem test_wf_height_over : (geometry 1 321 0 0).valid = false := by decide
theorem test_wf_rows_outside : (geometry 240 281 40 0).valid = false := by decide
theorem test_wf_columns_outside : (geometry 240 280 40 1).valid = false := by decide
theorem test_wf_no_width : (geometry 0 280 0 0).valid = false := by decide
theorem test_wf_no_height : (geometry 240 0 0 0).valid = false := by decide
-- R112, R113: start above end, end outside the native area
theorem test_wf_columns_reversed : (Instr.caset 1 0).wf = false := by decide
theorem test_wf_columns_over : (Instr.caset 0 240).wf = false := by decide
theorem test_wf_rows_reversed : (Instr.raset 1 0).wf = false := by decide
theorem test_wf_rows_over : (Instr.raset 0 320).wf = false := by decide
-- R41: a framebuffer comes with its own length
theorem test_wf_draw_length : (Instr.draw [0xF800] 2).wf = false := by decide
-- R79: a tuning entry with a structural opcode; D2: two equal opcodes
theorem test_wf_tuning_structural : (Instr.tuning 0x2A [] 0).unambiguous Cfg.ref = false := by decide
theorem test_wf_equal_opcodes : Cfg.distinctOps { Cfg.ref with opRaset := 0x2A } = false := by decide

/-! ### Decoding: every constructor from a word of the spec's encoding tables (R70, R71, R73) -/

theorem test_decode_init : decodeRequest ⟨0x01, [], 0⟩ = .ok .init := by decide
theorem test_decode_draw : decodeRequest ⟨0x02, fb4, 4⟩ = .ok (.draw fb4 4) := by decide
theorem test_decode_swreset : decodeWire Cfg.ref [⟨.c, 0x01⟩] = .ok (.swreset, []) := by decide
theorem test_decode_slpout : decodeWire Cfg.ref [⟨.c, 0x11⟩] = .ok (.slpout, []) := by decide
theorem test_decode_colmod : decodeWire Cfg.ref [⟨.c, 0x3A⟩, ⟨.d, 0x55⟩] = .ok (.colmod, []) := by decide
theorem test_decode_madctl : decodeWire Cfg.ref [⟨.c, 0x36⟩, ⟨.d, 0x00⟩] = .ok (.madctl, []) := by decide
theorem test_decode_dispon : decodeWire Cfg.ref [⟨.c, 0x29⟩] = .ok (.dispon, []) := by decide
-- T5: columns 52 to 186
theorem test_decode_caset :
    decodeWire Cfg.ref [⟨.c, 0x2A⟩, ⟨.d, 0x00⟩, ⟨.d, 0x34⟩, ⟨.d, 0x00⟩, ⟨.d, 0xBA⟩] =
      .ok (.caset 52 186, []) := by decide
-- T3: rows 40 to 319
theorem test_decode_raset :
    decodeWire Cfg.ref [⟨.c, 0x2B⟩, ⟨.d, 0x00⟩, ⟨.d, 0x28⟩, ⟨.d, 0x01⟩, ⟨.d, 0x3F⟩] =
      .ok (.raset 40 319, []) := by decide
-- R114: the payload after RAMWR is left in the rest
theorem test_decode_ramwr :
    decodeWire Cfg.ref [⟨.c, 0x2C⟩, ⟨.d, 0xF8⟩, ⟨.d, 0x00⟩] = .ok (.ramwr, [⟨.d, 0xF8⟩, ⟨.d, 0x00⟩]) := by
  decide
-- T55
theorem test_decode_tuning :
    decodeWire Cfg.ref [⟨.c, 0xB2⟩, ⟨.d, 0x0C⟩, ⟨.d, 0x0C⟩, ⟨.d, 0x00⟩, ⟨.d, 0x33⟩, ⟨.d, 0x33⟩] =
      .ok (.tuning 0xB2 [0x0C, 0x0C, 0x00, 0x33, 0x33] 0, []) := by decide
-- R78, T47: other request codes are refused; R65: a command starts with tag C
theorem test_decode_illegal :
    decodeRequest ⟨0x00, [], 0⟩ = .error (.illegalRequest 0x00) ∧
      decodeRequest ⟨0x03, [], 0⟩ = .error (.illegalRequest 0x03) ∧
      decodeRequest ⟨0xFF, [], 0⟩ = .error (.illegalRequest 0xFF) := by decide
theorem test_decode_no_command : decodeWire Cfg.ref [⟨.d, 0x55⟩] = .error (.dataWithoutCommand 0x55) := by
  decide

/-- What the decoder reads from the word of each row of spec/opcode_table.json. -/
theorem test_table_words :
    [0x01, 0x02, 0x11, 0x3A, 0x36, 0x29, 0x2A, 0x2B, 0x2C, 0x00].map (decodeTableWord 8) =
      [some .init, some (.draw [] 0), some .slpout, some .colmod, some .madctl, some .dispon,
        some (.caset 0 0), some (.raset 0 0), some .ramwr, some (.tuning 0x00 [] 0)] := by decide

/-- Each of them, placed where the next step fetches after reset, runs. -/
theorem test_table_words_run :
    [0x01, 0x02, 0x11, 0x3A, 0x36, 0x29, 0x2A, 0x2B, 0x2C, 0x00].all
      (fun w => isNext (step (State.reset.withFetchWord 8 w))) = true := by decide

/-- And it is that instruction which is fetched. -/
theorem test_table_words_fetched :
    [0x11, 0x3A, 0x36, 0x29, 0x2A, 0x2B, 0x2C, 0x00].map
        (fun w => fetch (State.reset.withFetchWord 8 w)) =
      [.command .slpout, .command .colmod, .command .madctl, .command .dispon, .command (.caset 0 0),
        .command (.raset 0 0), .command .ramwr, .command (.tuning 0x00 [] 0)] ∧
      fetch (State.reset.withFetchWord 8 0x01) = .request .init [] ∧
      fetch (State.reset.withFetchWord 8 0x02) = .request (.draw [] 0) [] := by decide

/-! ### The spec's vectors -/

-- T3, T5, T8, T9b, T9c: the four data bytes of CASET and of RASET
theorem test_window_bytes :
    [(240, 280, 40, 0), (135, 240, 40, 52), (1, 1, 319, 239), (240, 64, 193, 0), (240, 2, 255, 0)].map
        (fun (w, h, r, c) => (fullWindow (geometry w h r c)).filterMap fun
          | .wr [a, b, d, e] => some [a, b, d, e]
          | _ => none) =
      [[[0x00, 0x00, 0x00, 0xEF], [0x00, 0x28, 0x01, 0x3F]], [[0x00, 0x34, 0x00, 0xBA], [0x00, 0x28, 0x01, 0x17]],
        [[0x00, 0xEF, 0x00, 0xEF], [0x01, 0x3F, 0x01, 0x3F]], [[0x00, 0x00, 0x00, 0xEF], [0x00, 0xC1, 0x01, 0x00]],
        [[0x00, 0x00, 0x00, 0xEF], [0x00, 0xFF, 0x01, 0x00]]] := by decide

-- T9f: SET_WINDOW as a list
theorem test_set_window :
    (setWindowChecked small 0 1 0 1).map listing =
      some "CS_A; DC_C; WR 2A; DC_D; WR 00 03 00 04; CS_R; CS_A; DC_C; WR 2B; DC_D; WR 00 01 00 02; CS_R; CS_A; DC_C; WR 2C".toList := by
  decide

-- T10 to T17: the bytes of a pixel and its fields
theorem test_pixel_bytes :
    [0xF800, 0x07E0, 0x001F, 0x1234, 0xFFFF, 0x0000, 0x00FF, 0xFF00].map (fun p => be16 p) =
      [[0xF8, 0x00], [0x07, 0xE0], [0x00, 0x1F], [0x12, 0x34], [0xFF, 0xFF], [0x00, 0x00], [0x00, 0xFF],
        [0xFF, 0x00]] := by decide
theorem test_pixel_fields :
    [0xF800, 0x07E0, 0x001F, 0x1234, 0xFFFF, 0x0000, 0x00FF, 0xFF00].map
        (fun p => ((pixelRed p).toNat, (pixelGreen p).toNat, (pixelBlue p).toNat)) =
      [(31, 0, 0), (0, 63, 0), (0, 0, 31), (2, 17, 20), (31, 63, 31), (0, 0, 0), (0, 7, 31), (31, 56, 0)] := by
  decide
-- T19: row-major
theorem test_row_major :
    [0, 2, 3, 5].map (fun i => (fbColumn (geometry 3 2 0 0) i, fbRow (geometry 3 2 0 0) i)) =
      [(0, 0), (2, 0), (0, 1), (2, 1)] := by decide

-- T50 to T55: the framing procedures
theorem test_send_command : listing (sendCommand 0x29) = "CS_A; DC_C; WR 29".toList := by decide
theorem test_send_data : listing (sendData [0x55]) = "DC_D; WR 55".toList := by decide
theorem test_group_bare : listing (group 0x29 [] 0) = "CS_A; DC_C; WR 29; CS_R".toList := by decide
theorem test_group_delay : listing (group 0x11 [] 120) = "CS_A; DC_C; WR 11; CS_R; WAIT 120".toList := by decide
theorem test_group_most :
    listing (group 0xB2 [0x0C, 0x0C, 0x00, 0x33, 0x33] 10) =
      "CS_A; DC_C; WR B2; DC_D; WR 0C 0C 00 33 33; CS_R; WAIT 10".toList := by decide
-- T56: the latches after a set that failed
theorem test_latch_after_error :
    latchOf .cs .u [.set .cs .low .ok, .set .dc .low (.err e1)] = .low ∧
      latchOf .dc .u [.set .cs .low .ok, .set .dc .low (.err e1)] = .u ∧
      latchOf .dc .u [.set .cs .low .ok, .set .dc .low (.err e1), .set .dc .low .ok] = .low := by decide
-- T57: a failed write delivered a prefix that nothing determines
theorem test_failed_write :
    wire small [.set .cs .low .ok, .set .dc .low .ok, .write [0x2A] .ok, .set .dc .high .ok,
        .write [0x00, 0x00, 0x00, 0xEF] (.err e1)] =
      [.byte ⟨.c, 0x2A⟩, .prefixOf .d [0x00, 0x00, 0x00, 0xEF]] ∧
      deliveredPrefixes [0x00, 0x00, 0x00, 0xEF] =
        [[], [0x00], [0x00, 0x00], [0x00, 0x00, 0x00], [0x00, 0x00, 0x00, 0xEF]] := by decide

-- T22: zero delays and an empty parameter list leave their calls out
theorem test_init_program :
    initProg { Cfg.ref with tRstPre := 0, tSlpout := 0, tuning := [⟨0x21, [], 0⟩, ⟨0xB2, [0x0C], 10⟩] } =
      ([[.rstR, .rstA, .wait 10, .rstR, .wait 120], [.csA, .dcC, .wr [0x01], .csR, .wait 150],
        [.csA, .dcC, .wr [0x11], .csR], [.csA, .dcC, .wr [0x3A], .dcD, .wr [0x55], .csR],
        [.csA, .dcC, .wr [0x36], .dcD, .wr [0x00], .csR], [.csA, .dcC, .wr [0x21], .csR],
        [.csA, .dcC, .wr [0xB2], .dcD, .wr [0x0C], .csR, .wait 10],
        [.csA, .dcC, .wr [0x29], .csR]] : List (List MicroOp)).flatten := by
  decide

-- T20, counted in its rows (its summary line says 8): WR 01, 11, 3A, 55, 36, 00, 29 (entry 29)
theorem test_init_writes :
    (initProg Cfg.ref).filter isWrite =
      [.wr [0x01], .wr [0x11], .wr [0x3A], .wr [0x55], .wr [0x36], .wr [0x00], .wr [0x29]] := by decide
-- T20: an INIT all of whose calls are answered, its wire view and its end
theorem test_init_ok :
    let t := after (exec .init (idleWith Cfg.ref (oks 27) (dones 5)))
    t.trace.length = 32 ∧ t.busy = false ∧ t.cs = .high ∧ t.dc = .low ∧ t.rst = .high ∧ t.ctrl = .ready ∧
      t.hostLog = [.req .init 0, .res .ok 32] := by decide
theorem test_init_wire :
    wireListing (wire Cfg.ref (after (exec .init (idleWith Cfg.ref (oks 27) (dones 5)))).trace) =
      "C:01 | C:11 | C:3A D:55 | C:36 D:00 | C:29 |".toList := by decide
-- T24, T26, T28, T29: an INIT that fails at call 1, 6, 16, 27; the latches and the number of events
theorem test_init_errors :
    [1, 6, 16, 27].map (fun n =>
        let t := after (exec .init (idleWith Cfg.ref (oks (n - 1) ++ [.err e1 0] ++ oks 9) (dones 5)))
        (t.trace.length, t.cs, t.dc, t.rst, t.ctrl, t.busy)) =
      [(1, .u, .u, .u, .indeterminate, false), (9, .low, .low, .high, .indeterminate, false),
        (21, .low, .high, .high, .indeterminate, false), (32, .u, .low, .high, .indeterminate, false)] := by
  decide
-- T49: call 6 is never answered
theorem test_init_hang :
    let t := after (exec .init (idleWith Cfg.ref (oks 5) (dones 5)))
    t.trace.length = 8 ∧ t.busy = true ∧ t.pending = some (.wr [0x01]) ∧ t.hostLog = [.req .init 0] := by
  decide

/-- The READY state a DRAW starts from in P1 and P2, with the answers to come. -/
def ready (c : Cfg) (rs : List (Reply BusError)) : State :=
  { idleWith c rs [] with ctrl := .ready, cs := .high, dc := .high, rst := .high }

-- T30: a DRAW, its wire view, its end, and the four cells
theorem test_draw_wire :
    wireListing (wire small (after (exec (.draw fb4 4) (ready small (oks 18)))).trace) =
      "C:2A D:00 D:03 D:00 D:04 | C:2B D:00 D:01 D:00 D:02 | C:2C D:F8 D:00 D:07 D:E0 D:00 D:1F D:FF D:FF |".toList := by
  decide
theorem test_draw_memory :
    let t := after (exec (.draw fb4 4) (ready small (oks 18)))
    t.ctl.pm = [(pmKey 3 1, 0xF800), (pmKey 4 1, 0x07E0), (pmKey 3 2, 0x001F), (pmKey 4 2, 0xFFFF)] ∧
      (t.ctl.xs, t.ctl.xe, t.ctl.ys, t.ctl.ye) = (3, 4, 1, 2) ∧ t.pix = 4 ∧
      t.hostLog = [.req .draw 0, .res .ok 18] := by decide
-- T31 to T36: a DRAW that fails at call 1, 3, 6, 17, 17 with the clean-up failing too, 18
theorem test_draw_errors :
    ([(1, [.ok], 2, .high, .high), (3, [.ok], 4, .high, .low), (6, [.ok], 7, .high, .high),
        (17, [.ok], 18, .high, .high), (17, [.err e2 0], 18, .u, .high), (18, [], 18, .u, .high)] :
        List (Nat × List (Reply BusError) × Nat × Latch × Latch)).all
        (fun (n, rest, events, cs, dc) =>
          let t := after (exec (.draw fb4 4) (ready small (oks (n - 1) ++ [.err e1 3] ++ rest)))
          decide (t.trace.length = events) && decide (t.cs = cs) && decide (t.dc = dc) &&
            decide (t.ferr = none) && decide (t.hostLog = [.req .draw 0, .res (.drawErr e1) events])) = true := by
  decide
-- T34, T57: of the eight pixel bytes three were delivered, so two pixels were read; no cell has a value
theorem test_draw_error_memory :
    let t := after (exec (.draw fb4 4) (ready small (oks 16 ++ [.err e1 3, .ok])))
    t.pix = 2 ∧ t.ctl.pm = [] := by decide
-- T40 to T43: a wrong length
theorem test_draw_length :
    [0, 67199, 67201, 76800].all (fun n =>
      let t := after (exec (.draw [] n) (idleWith Cfg.ref [] []))
      decide (t.trace = []) && decide (t.hostLog = [.req .draw 0, .res .lenErr 0]) && !t.busy) = true := by decide
-- P5: every polarity inverted
theorem test_inverted_wire :
    wireListing (wire inverted (after (exec (.draw [0x1234] 1) (ready inverted (oks 18)))).trace) =
      "C:2A D:00 D:EF D:00 D:EF | C:2B D:01 D:3F D:01 D:3F | C:2C D:12 D:34 |".toList := by decide
theorem test_inverted_init :
    let t := after (exec .init (idleWith inverted (oks 27) (dones 4)))
    t.trace.take 7 = [.set .rst .low .ok, .set .rst .high .ok, .delay 10, .set .rst .low .ok, .delay 120,
      .set .cs .high .ok, .set .dc .high .ok] ∧ t.trace.length = 31 ∧ t.cs = .low ∧ t.rst = .low := by decide
-- R47: while the payload write is unanswered one pixel more is read in each step
theorem test_read_ahead :
    (after (step { inDraw 16 [.silent] with cs := .low, dc := .high })).pix = 1 := by decide
-- R63: the sink takes a byte as a command while the lines say it is one
theorem test_sink_command :
    (deliver [0x2A] { inDraw 2 [] with cs := .low, dc := .low }).ctl.mode = .column := by decide
-- R153: a DRAW before the controller is READY issues the same calls, and nothing is known of the memory
theorem test_draw_not_ready :
    let t := after (exec (.draw fb4 4) (idleWith small (oks 18) []))
    t.trace = (after (exec (.draw fb4 4) (ready small (oks 18)))).trace ∧ t.ctl.pm = [] ∧
      t.ctrl = .unknown := by decide
-- R57: a failed DRAW leaves the cells outside its window as they were
theorem test_draw_error_outside :
    (after (exec (.draw fb4 4) { ready small (oks 16 ++ [.err e1 3, .ok]) with
      ctl := { Controller.atConstruction with pm := [(pmKey 3 1, 0x1111), (pmKey 5 1, 0x2222)] } })).ctl.pm =
      [(pmKey 5 1, 0x2222)] := by decide

/-- `n` calls answered, then these replies. -/
def oksThen (n : Nat) (rs : List (Reply BusError)) : List (Reply BusError) := oks n ++ rs

/-- A READY state, its window registers at 7 to 10, whose DRAW fails at the call of index `k`, `sent` bytes of
a write delivered. -/
def failingAt (k sent : Nat) : State :=
  { ready small (oksThen k [.err e1 sent, .ok]) with
    ctl := { Controller.atConstruction with xs := 7, xe := 8, ys := 9, ye := 10 } }

-- R55, K13: what XS, XE, YS, YE are after a DRAW that failed between two commands, by call and bytes sent
theorem test_draw_error_registers :
    ([(0, 0, 7, 8, 9, 10), (1, 0, 7, 8, 9, 10), (2, 0, 7, 8, 9, 10), (5, 0, 3, 4, 9, 10), (6, 0, 3, 4, 9, 10),
        (7, 0, 3, 4, 9, 10), (11, 0, 3, 4, 1, 2), (12, 0, 3, 4, 1, 2), (13, 0, 3, 4, 1, 2), (17, 0, 3, 4, 1, 2)] :
        List (Nat × Nat × Bound × Bound × Bound × Bound)).all (fun (k, sent, window) =>
      let t := (after (exec (.draw fb4 4) (failingAt k sent))).ctl
      decide ((t.xs, t.xe, t.ys, t.ye) = window)) = true := by decide
-- K13: left in the middle of CASET (its opcode delivered, no data), the controller is at free values
theorem test_draw_error_in_command :
    (after (exec (.draw fb4 4) (failingAt 3 0))).ctl.xs = Config.freeBound 0 ∧
      (after (exec (.draw fb4 4) (failingAt 3 0))).ctl.ye = Config.freeBound 3 ∧
      (after (exec (.draw fb4 4) (failingAt 3 0))).fresh = 6 := ⟨rfl, rfl, rfl⟩
-- D2, R55: with OP_RASET = OP_RAMWR the columns are still CASET's
theorem test_equal_opcodes_columns :
    let t := after (exec (.draw fb4 4) (ready { small with opRaset := 0x2C } (oks 18)))
    (t.ctl.xs, t.ctl.xe) = (3, 4) ∧ t.ctl.pm = [] := by decide

/-! ### Witnesses: a state and operands that meet the hypotheses of each obligation, clause by clause -/

/-- An outcome that is a next state has one. -/
theorem exists_next {o : Host.Outcome State Fault Refusal} (h : isNext o = true) : ∃ t, o = .next t := by
  cases o with
  | next s => exact ⟨s, rfl⟩
  | fault r => cases h
  | refused r => cases h

/-- A DRAW that waits for the answer to its payload write, with one reply to come. -/
def waitingDraw (r : Reply BusError) : State :=
  { after (exec (.draw fb4 4) { idleWith small (oks 16) [] with ctrl := .ready }) with transport := [r] }

/-- A DRAW that waits for the answer to its clean-up. -/
def waitingCleanup (r : Reply BusError) : State :=
  { after (exec (.draw fb4 4) { idleWith small (oks 4 ++ [.err e1 0]) [] with ctrl := .ready }) with
      transport := [r] }

/-- The invariant, clause by clause, as a check. -/
def invChecks (s : State) : Bool :=
  s.cfg.valid && decide (s.busy = false → s.pending = none ∧ s.ferr = none ∧ s.fb = []) &&
    decide (s.busy = true → s.op = .init → s.ferr = none) &&
    decide (s.busy = true → s.ferr ≠ none → s.upc = cleanupIndex) &&
    decide (s.busy = true → s.upc ≤ (prog s).length) &&
    decide (s.pending = none ∨ (prog s)[s.upc]? = s.pending) &&
    decide (s.busy = true → s.ferr = none → ((prog s).take s.upc).map (okEvent s.cfg) <:+ s.trace) &&
    decide (s.busy = true → s.ferr = none → writesMet s.cfg s.cs s.dc ((prog s).drop s.upc) = true) &&
    decide (s.cs = latchOf .cs .u s.trace ∧ s.dc = latchOf .dc .u s.trace ∧ s.rst = latchOf .rst .u s.trace) &&
    decide (WireItem.undefinedWrite ∉ wire s.cfg s.trace) && pmWf s.ctl.pm &&
    decide ((s.ctrl ≠ .ready ∨ sinkGiven s.cfg = false ∨ s.busy = true ∧ s.op = .init) → s.ctl.pm = []) &&
    decide (s.busy = true → controllerKnown s = true → s.ferr = none → windowSent s.cfg s.upc s.ctl) &&
    decide (requestCount s.hostLog = resultCount s.hostLog + s.busy.toNat)

theorem inv_of_checks {s : State} (h : invChecks s = true) : Inv s := by
  simp only [invChecks, Bool.and_eq_true, decide_eq_true_eq] at h
  obtain ⟨⟨⟨⟨⟨⟨⟨⟨⟨⟨⟨⟨⟨h1, h2⟩, h3⟩, h4⟩, h5⟩, h6⟩, h0⟩, h7⟩, h8, h9, h10⟩, h11⟩, h12⟩, h13⟩, h14⟩, h15⟩ := h
  refine ⟨h1, h2, h3, h4, h5, ?_, h0, h7, h8, h9, h10, h11, h12, h13, h14, h15⟩
  intro m hm
  rcases h6 with h6 | h6
  · rw [h6] at hm; cases hm
  · rw [h6, hm]

theorem witness_ConstructionChecksGeometry :
    [geometry 1 1 319 239, geometry 240 320 0 0].all (fun c => decide (c.w ≤ 240 ∧ c.h ≤ 320 ∧
      c.rOff + c.h ≤ 320 ∧ c.cOff + c.w ≤ 240 ∧ 1 ≤ c.w ∧ 1 ≤ c.h)) = true ∧
    [geometry 241 1 0 0, geometry 1 321 0 0, geometry 240 281 40 0, geometry 240 280 40 1, geometry 0 280 0 0,
      geometry 240 0 0 0].all (fun c => decide (¬(c.w ≤ 240 ∧ c.h ≤ 320 ∧
        c.rOff + c.h ≤ 320 ∧ c.cOff + c.w ≤ 240 ∧ 1 ≤ c.w ∧ 1 ≤ c.h))) = true := by decide

theorem witness_ConstructedStateIsIdle : ∃ t : State, construct inverted = .next t := ⟨_, rfl⟩

theorem witness_StepRunsDecodedInstruction :
    ((idleWith small [] []).busy = false ∧ (idleWith small [] []).host = []) ∧
    ((asking 0x02 fb4 4 [] []).busy = false ∧ (asking 0x02 fb4 4 [] []).host = [⟨0x02, fb4, 4⟩] ∧
      decodeRequest ⟨0x02, fb4, 4⟩ = .ok (.draw fb4 4)) ∧
    ((asking 0x03 [] 0 [] []).host = [⟨0x03, [], 0⟩] ∧
      decodeRequest ⟨0x03, [], 0⟩ = .error (.illegalRequest 0x03)) ∧
    ((inInit 6 [] []).busy = true ∧ (inInit 6 [] []).pending = none ∧ (inInit 6 [] []).ferr = none ∧
      currentCommand (inInit 6 [] []) = some .swreset) ∧
    ((waitingDraw .ok).busy = true ∧ (waitingDraw .ok).pending ≠ none) ∧
    ((waitingCleanup .ok).busy = true ∧ (waitingCleanup .ok).ferr ≠ none) ∧
    ((inDraw 17 []).busy = true ∧ currentCommand (inDraw 17 []) = none) := by decide

theorem witness_IllegalRequestRefused :
    [0x00, 0x03, 0xFF].all (fun code => decide ((asking code [] 0 [] []).busy = false ∧
      (asking code [] 0 [] []).host = [⟨code, [], 0⟩] ∧ code ≠ (0x01 : Byte) ∧ code ≠ (0x02 : Byte))) = true := by
  decide

theorem witness_NoRequestAcceptedWhileBusy : (inInit 0 [] []).busy = true := rfl

theorem witness_ExecutorIssuesAnswersFinishes :
    ((inInit 0 [] []).busy = true ∧ (inInit 0 [] []).op = .init ∧ (inInit 0 [] []).pending = none ∧
      (prog (inInit 0 [] []))[(inInit 0 [] []).upc]? = some .rstR) ∧
    ((waitingDraw .ok).busy = true ∧ (waitingDraw .ok).ferr = none ∧
      (waitingDraw .ok).pending = some (.wr (pixBytes small fb4)) ∧ (waitingDraw .ok).transport = [.ok]) ∧
    ((waitingDraw (.err e1 8)).ferr = none ∧
      (waitingDraw (.err e1 8)).pending = some (.wr (pixBytes small fb4)) ∧
      (waitingDraw (.err e1 8)).transport = [.err e1 8]) ∧
    ((issue (.wait 1) (inInit 1 [] [.done])).busy = true ∧
      (issue (.wait 1) (inInit 1 [] [.done])).pending = some (.wait 1) ∧
      (issue (.wait 1) (inInit 1 [] [.done])).timing = [.done]) ∧
    ((inDraw 18 []).pending = none ∧ (inDraw 18 []).ferr = none ∧
      (inDraw 18 []).upc = (prog (inDraw 18 [])).length) ∧
    [.ok, .err e2 0].all (fun r => decide ((waitingCleanup r).busy = true ∧ (waitingCleanup r).op = .draw ∧
      (waitingCleanup r).ferr = some e1 ∧ (waitingCleanup r).upc = 17 ∧
      (waitingCleanup r).pending = some .csR ∧ (waitingCleanup r).transport = [r] ∧
      replyAnswer r ≠ none)) = true := by decide

theorem witness_LineSetWritesItsLatch :
    (Level.low = small.csAssert ∧ Level.high ≠ small.csAssert) ∧
      (Level.low = small.dcCmd ∧ Level.high ≠ small.dcCmd) ∧
      (Level.low = small.rstActive ∧ Level.high ≠ small.rstActive) ∧
      (Level.high = inverted.csAssert ∧ Level.low ≠ inverted.csAssert) := by decide

theorem witness_UnansweredCallHangs :
    ((issue (.wr [0x01]) (inInit 8 [] [.done])).busy = true ∧
      (issue (.wr [0x01]) (inInit 8 [] [.done])).pending = some (.wr [0x01]) ∧
      (issue (.wr [0x01]) (inInit 8 [] [.done])).transport = [] ∧ fallible (.wr [0x01]) = true) ∧
    ((issue (.wait 1) (inInit 1 [.ok] [])).busy = true ∧
      (issue (.wait 1) (inInit 1 [.ok] [])).pending = some (.wait 1) ∧
      (issue (.wait 1) (inInit 1 [.ok] [])).timing = [] ∧ fallible (.wait 1) = false) := by decide

theorem witness_StepIsExecutorSteps :
    (Inv (waitingDraw .ok) ∧ (waitingDraw .ok).busy = true ∧ ∃ t, step (waitingDraw .ok) = .next t) ∧
    (Inv (asking 0x01 [] 0 [] []) ∧ (asking 0x01 [] 0 [] []).host ≠ [] ∧
      ∃ t, step (asking 0x01 [] 0 [] []) = .next t) ∧
    (Inv (asking 0x02 fb4 4 [] []) ∧ ∃ t, step (asking 0x02 fb4 4 [] []) = .next t) ∧
    (Inv (asking 0x02 fb4 5 [] []) ∧ ∃ t, step (asking 0x02 fb4 5 [] []) = .next t) :=
  ⟨⟨inv_of_checks (by decide), by decide, exists_next (by decide)⟩,
    ⟨inv_of_checks (by decide), by decide, exists_next (by decide)⟩, ⟨inv_of_checks (by decide), exists_next (by decide)⟩,
    ⟨inv_of_checks (by decide), exists_next (by decide)⟩⟩

theorem witness_StepKeepsInvariant :
    Inv (waitingDraw (.err e1 3)) ∧ ∃ t, step (waitingDraw (.err e1 3)) = .next t :=
  ⟨inv_of_checks (by decide), exists_next (by decide)⟩

theorem witness_ExecutorStepKeepsInvariant :
    Inv (waitingDraw .ok) ∧ (∃ t, executorStep (waitingDraw .ok) = .going t) ∧
      Inv (waitingDraw .silent) ∧ ∃ t, executorStep (waitingDraw .silent) = .stopped t :=
  ⟨inv_of_checks (by decide), ⟨_, rfl⟩, inv_of_checks (by decide), ⟨_, rfl⟩⟩

theorem witness_StepKeepsConfigurationAndTrace : ∃ t, step (asking 0x01 [] 0 (oks 5) (dones 5)) = .next t :=
  exists_next (by decide)

/-- An INIT that ends OK and one that ends INIT_ERR both move the controller's status. -/
theorem witness_ControllerStatusMovesOnlyAtInitEnd :
    (isNext (step (asking 0x01 [] 0 (oks 27) (dones 5))) = true ∧
      (after (step (asking 0x01 [] 0 (oks 27) (dones 5)))).ctrl = .ready) ∧
    (isNext (step (asking 0x01 [] 0 [.err e1 0] [])) = true ∧
      (after (step (asking 0x01 [] 0 [.err e1 0] []))).ctrl = .indeterminate) ∧
    (asking 0x01 [] 0 [] []).ctrl = .unknown := by decide

theorem witness_PixelIndexCountsUp :
    ∃ t, step (waitingDraw .silent) = .next t ∧ (waitingDraw .silent).pix ≤ 4 ∧
      (waitingDraw .silent).busy = true ∧ t.pix = 1 :=
  ⟨_, rfl, by decide, by decide, by decide⟩

theorem witness_SwresetCompletes :
    (inInit 6 (oks 4) [.done]).busy = true ∧ (inInit 6 (oks 4) [.done]).op = .init ∧
      (inInit 6 (oks 4) [.done]).pending = none ∧
      (inInit 6 (oks 4) [.done]).transport.take 4 = List.replicate 4 .ok ∧
      (0 < small.tSwreset ∧ (inInit 6 (oks 4) [.done]).timing.head? = some .done) := by decide

theorem witness_SlpoutCompletes :
    (inInit 11 (oks 4) [.done]).busy = true ∧ (inInit 11 (oks 4) [.done]).op = .init ∧
      (inInit 11 (oks 4) [.done]).pending = none ∧
      (inInit 11 (oks 4) [.done]).transport.take 4 = List.replicate 4 .ok ∧
      (0 < small.tSlpout ∧ (inInit 11 (oks 4) [.done]).timing.head? = some .done) := by decide

theorem witness_ColmodCompletes :
    (inInit 16 (oks 6) []).busy = true ∧ (inInit 16 (oks 6) []).op = .init ∧
      (inInit 16 (oks 6) []).pending = none ∧
      (inInit 16 (oks 6) []).transport.take 6 = List.replicate 6 .ok := by decide

theorem witness_MadctlCompletes :
    (inInit 22 (oks 6) []).busy = true ∧ (inInit 22 (oks 6) []).op = .init ∧
      (inInit 22 (oks 6) []).pending = none ∧
      (inInit 22 (oks 6) []).transport.take 6 = List.replicate 6 .ok := by decide

theorem witness_DisponCompletes :
    (inInit 28 (oks 4) []).busy = true ∧ (inInit 28 (oks 4) []).op = .init ∧
      (inInit 28 (oks 4) []).pending = none ∧
      (inInit 28 (oks 4) []).transport.take 4 = List.replicate 4 .ok := by decide

/-- With parameters and a delay, and with neither. -/
theorem witness_TuningCompletes :
    ((inInit 28 (oks 6) [.done]).busy = true ∧ (inInit 28 (oks 6) [.done]).op = .init ∧
      (inInit 28 (oks 6) [.done]).pending = none ∧ ([0x0C] : List Byte) ≠ [] ∧
      (inInit 28 (oks 6) [.done]).transport.take 6 = List.replicate 6 .ok ∧
      (inInit 28 (oks 6) [.done]).timing.head? = some .done) ∧
    ((inInit 28 (oks 4) []).busy = true ∧
      (inInit 28 (oks 4) []).transport.take 4 = List.replicate 4 .ok) := by decide

theorem witness_InitCompletes :
    (idleWith small (oks 27) (dones 5)).busy = false ∧
      AllAnswered (initProg small) (idleWith small (oks 27) (dones 5)) := by decide

/-- An INIT whose first call fails (T24), and one whose last call fails (T29). -/
def failingFirst : State := idleWith small [.err e1 0] []
def failingLast : State := idleWith small (oksThen 26 [.err e1 0]) (dones 5)

theorem witness_InitAbortsAtFirstError :
    (failingFirst.busy = false ∧ initProg small = [] ++ MicroOp.rstR :: (initProg small).drop 1 ∧
      fallible .rstR = true ∧ failingFirst.transport = oks (fallibleCount []) ++ Reply.err e1 0 :: [] ∧
      failingFirst.timing.take (waitCount []) = dones (waitCount [])) ∧
    (failingLast.busy = false ∧ initProg small = (initProg small).take 31 ++ MicroOp.csR :: [] ∧
      fallible .csR = true ∧
      failingLast.transport = oks (fallibleCount ((initProg small).take 31)) ++ Reply.err e1 0 :: [] ∧
      failingLast.timing.take (waitCount ((initProg small).take 31)) =
        dones (waitCount ((initProg small).take 31))) := by decide

-- T49
theorem witness_InitHangsAtUnansweredCall :
    (idleWith small (oks 5) (dones 5)).busy = false ∧
      initProg small = (initProg small).take 8 ++ MicroOp.wr [0x01] :: (initProg small).drop 9 ∧
      fallible (.wr [0x01]) = true ∧
      (idleWith small (oks 5) (dones 5)).transport =
        oks (fallibleCount ((initProg small).take 8)) ∧
      (idleWith small (oks 5) (dones 5)).timing.take (waitCount ((initProg small).take 8)) =
        dones (waitCount ((initProg small).take 8)) := by decide

/-- P3: an idle state after a failed INIT, with the answers of the next one. -/
def afterFailedInit : State :=
  { after (exec .init (idleWith small (oks 9 ++ [.err e1 0]) (dones 5))) with
      transport := oks 27, timing := dones 5 }

theorem witness_InitIndependentOfHistory :
    afterFailedInit.busy = false ∧ afterFailedInit.trace.length = 14 ∧
      (idleWith small (oks 27) (dones 5)).busy = false ∧ (idleWith small (oks 27) (dones 5)).cfg = afterFailedInit.cfg ∧
      (idleWith small (oks 27) (dones 5)).transport = afterFailedInit.transport ∧
      (idleWith small (oks 27) (dones 5)).timing = afterFailedInit.timing := by decide

theorem witness_CasetCompletes :
    (inDraw 0 (oks 6)).busy = true ∧ (inDraw 0 (oks 6)).op = .draw ∧ (inDraw 0 (oks 6)).pending = none ∧
      (inDraw 0 (oks 6)).ferr = none ∧ (inDraw 0 (oks 6)).upc = 0 ∧ (239 : Bound).toNat ≤ (239 : Bound).toNat ∧
      (239 : Bound).toNat ≤ 239 ∧ (inDraw 0 (oks 6)).transport.take 6 = List.replicate 6 .ok ∧
      (sinkRuns (inDraw 0 (oks 6)) = true ∧ small.opCaset ≠ small.opRaset ∧ small.opCaset ≠ small.opRamwr) ∧
      (sinkRuns { inDraw 0 (oks 6) with cfg := { small with opRaset := 0x2A } } = true ∧
        ({ small with opRaset := 0x2A } : Cfg).opCaset = 0x2A) ∧
      sinkRuns { inDraw 0 (oks 6) with ctrl := .unknown } = false := by decide

theorem witness_RasetCompletes :
    (inDraw 6 (oks 6)).busy = true ∧ (inDraw 6 (oks 6)).op = .draw ∧ (inDraw 6 (oks 6)).pending = none ∧
      (inDraw 6 (oks 6)).ferr = none ∧ (inDraw 6 (oks 6)).upc = 6 ∧ (0 : Bound).toNat ≤ (319 : Bound).toNat ∧
      (319 : Bound).toNat ≤ 319 ∧ (inDraw 6 (oks 6)).transport.take 6 = List.replicate 6 .ok ∧
      (sinkRuns (inDraw 6 (oks 6)) = true ∧ small.opRaset ≠ small.opCaset ∧ small.opRaset ≠ small.opRamwr) ∧
      (sinkRuns { inDraw 6 (oks 6) with cfg := { small with opRamwr := 0x2B } } = true ∧
        ({ small with opRamwr := 0x2B } : Cfg).opRaset = 0x2B) ∧
      sinkRuns { inDraw 6 (oks 6) with ctrl := .indeterminate } = false := by decide

theorem witness_RamwrCompletes :
    (inDraw 12 (oks 3)).busy = true ∧ (inDraw 12 (oks 3)).op = .draw ∧ (inDraw 12 (oks 3)).pending = none ∧
      (inDraw 12 (oks 3)).ferr = none ∧ (inDraw 12 (oks 3)).upc = 12 ∧
      (inDraw 12 (oks 3)).transport.take 3 = List.replicate 3 .ok ∧
      (sinkRuns (inDraw 12 (oks 3)) = true ∧ small.opRamwr ≠ small.opCaset ∧ small.opRamwr ≠ small.opRaset) ∧
      (sinkRuns { inDraw 12 (oks 3) with cfg := { small with opRamwr := 0x2A } } = true ∧
        ({ small with opRamwr := 0x2A } : Cfg).opCaset = 0x2A) ∧
      sinkRuns { inDraw 12 (oks 3) with cfg := { small with madctlParam := 0x60 } } = false := by decide

theorem witness_WindowOutOfRangeRefused :
    (¬((1 : Bound).toNat ≤ (0 : Bound).toNat ∧ (0 : Bound).toNat ≤ 239) ∧
      ¬((0 : Bound).toNat ≤ (240 : Bound).toNat ∧ (240 : Bound).toNat ≤ 239)) ∧
    (¬((1 : Bound).toNat ≤ (0 : Bound).toNat ∧ (0 : Bound).toNat ≤ 319) ∧
      ¬((0 : Bound).toNat ≤ (320 : Bound).toNat ∧ (320 : Bound).toNat ≤ 319)) := by decide

theorem witness_CommandsNeedRunningOperation :
    (Instr.caset 0 239).wf = true ∧ Instr.caset 0 239 ≠ .init ∧ (∀ fb len, Instr.caset 0 239 ≠ .draw fb len) ∧
      (idleWith small [] []).busy = false ∧
      ((waitingDraw .ok).busy = true ∧ (waitingDraw .ok).pending ≠ none) :=
  ⟨by decide, by decide, fun _ _ h => Instr.noConfusion h, rfl, by decide⟩

-- the last column and row of (2, 2, 1, 3), and one past them
theorem witness_SetWindowChecksArguments :
    (1 ≤ 1 ∧ 1 < small.w ∧ 0 ≤ 1 ∧ 1 < small.h) ∧ ¬(0 ≤ 2 ∧ 2 < small.w ∧ 0 ≤ 1 ∧ 1 < small.h) ∧
      ¬(1 ≤ 0 ∧ 0 < small.w ∧ 0 ≤ 1 ∧ 1 < small.h) ∧ ¬(0 ≤ 1 ∧ 1 < small.w ∧ 0 ≤ 2 ∧ 2 < small.h) := by decide

theorem witness_FullWindowBounds :
    (geometry 1 1 319 239).valid = true ∧ (geometry 240 320 0 0).valid = true := by decide

-- T41, T42
theorem witness_DrawRejectsWrongLength :
    (idleWith Cfg.ref [] []).busy = false ∧ 67199 ≠ Cfg.ref.w * Cfg.ref.h ∧ 67201 ≠ Cfg.ref.w * Cfg.ref.h := by
  decide

theorem witness_DrawCompletes :
    (idleWith small (oks 18) []).busy = false ∧ 4 = small.w * small.h ∧
      (idleWith small (oks 18) []).transport.take 18 = List.replicate 18 .ok ∧
      ((ready small (oks 18)).ctrl = .ready ∧ scanGiven small = true ∧ small.opCaset ≠ small.opRaset ∧
        small.opCaset ≠ small.opRamwr ∧ small.opRaset ≠ small.opRamwr) ∧
      (scanGiven { small with opRaset := 0x2C } = true ∧ sinkGiven { small with opRaset := 0x2C } = false) ∧
      (idleWith small [] []).ctrl ≠ .ready := by decide

/-- A DRAW whose first call fails (T31), and one whose payload write and clean-up fail (T35). -/
def failingOpen : State := idleWith small [.err e1 0, .ok] []
def failingTwice : State := idleWith small (oksThen 16 [.err e1 3, .err e2 0]) []

theorem witness_DrawCleansUpAfterError :
    (failingOpen.busy = false ∧ 4 = small.w * small.h ∧
      drawProg small fb4 = [] ++ MicroOp.csA :: (drawProg small fb4).drop 1 ∧ (drawProg small fb4).drop 1 ≠ [] ∧
      replyAnswer (.ok : Reply BusError) = some .ok ∧ failingOpen.transport = oks 0 ++ Reply.err e1 0 :: Reply.ok :: []) ∧
    (failingTwice.busy = false ∧
      drawProg small fb4 = (drawProg small fb4).take 16 ++ MicroOp.wr (pixBytes small fb4) :: [MicroOp.csR] ∧
      [MicroOp.csR] ≠ [] ∧ replyAnswer (.err e2 0) = some (.err e2) ∧
      failingTwice.transport =
        oks ((drawProg small fb4).take 16).length ++ Reply.err e1 3 :: Reply.err e2 0 :: []) := by decide

/-- The clauses about the window registers, each at the ends of its range of calls. -/
theorem witness_DrawCleansUpAfterError_registers :
    ([(0, 0), (1, 0), (2, 0), (4, 4), (5, 0), (7, 0), (8, 0), (10, 4), (11, 0), (13, 0), (14, 0), (16, 8)] :
        List (Nat × Nat)).all (fun (k, sent) =>
      let s := failingAt k sent
      !s.busy && decide (s.ctrl = .ready) && sinkGiven s.cfg && decide (((drawProg small fb4).take k).length = k) &&
        decide (drawProg small fb4 = (drawProg small fb4).take k ++
          ((drawProg small fb4)[k]?.getD .csA) :: (drawProg small fb4).drop (k + 1)) &&
        decide ((drawProg small fb4).drop (k + 1) ≠ []) &&
        decide (s.transport = oks k ++ Reply.err e1 sent :: Reply.ok :: [])) = true := by decide

/-- A DRAW whose last release fails (T36), and one whose fifth call fails and whose clean-up is not answered. -/
def failingRelease : State := idleWith small (oksThen 17 [.err e1 0]) []
def failingSilent : State := idleWith small (oksThen 4 [.err e1 2]) []

theorem witness_DrawFinalReleaseFails :
    failingRelease.busy = false ∧ 4 = small.w * small.h ∧
      failingRelease.transport = oks 17 ++ Reply.err e1 0 :: [] ∧
      (failingAt 17 0).ctrl = .ready ∧ sinkGiven (failingAt 17 0).cfg = true ∧
      (failingAt 17 0).transport = oks 17 ++ Reply.err e1 0 :: [.ok] := by decide

theorem witness_DrawCleanupWaitsWithFirstError :
    failingSilent.busy = false ∧ 4 = small.w * small.h ∧
      drawProg small fb4 =
        (drawProg small fb4).take 4 ++ MicroOp.wr [0x00, 0x03, 0x00, 0x04] :: (drawProg small fb4).drop 5 ∧
      (drawProg small fb4).drop 5 ≠ [] ∧
      failingSilent.transport = oks ((drawProg small fb4).take 4).length ++ [Reply.err e1 2] := by decide

/-- T37: an idle state after a failed DRAW, with the answers of the next one. -/
def afterFailedDraw : State :=
  { after (exec (.draw fb4 4) (idleWith small (oks 16 ++ [.err e1 3, .ok]) [])) with transport := oks 18 }

theorem witness_DrawIndependentOfHistory :
    afterFailedDraw.busy = false ∧ afterFailedDraw.trace.length = 18 ∧ (idleWith small (oks 18) []).busy = false ∧
      (idleWith small (oks 18) []).cfg = afterFailedDraw.cfg ∧
      (idleWith small (oks 18) []).transport = afterFailedDraw.transport ∧
      4 = afterFailedDraw.cfg.w * afterFailedDraw.cfg.h := by decide

theorem witness_PayloadIsPixelsHighByteFirst :
    fb4.length = small.w * small.h ∧ fb4[0]? = some 0xF800 ∧ fb4[3]? = some 0xFFFF := by decide

theorem witness_FramebufferIsRowMajor :
    (1 < small.w ∧ 1 < small.h) ∧ 3 < small.w * small.h := by decide

theorem witness_DrawNeverTouchesResetOrStatus :
    (∃ t, exec (.draw fb4 4) (ready small (oks 7)) = .next t) ∧
      (Inv (waitingDraw .ok) ∧ (waitingDraw .ok).busy = true ∧ (waitingDraw .ok).op = .draw ∧
        ∃ t, step (waitingDraw .ok) = .next t) :=
  ⟨⟨_, rfl⟩, inv_of_checks (by decide), by decide, by decide, exists_next (by decide)⟩

/-- A DRAW that goes on in this step, and one that ends in it. -/
theorem witness_FramebufferStableDuringDraw :
    ((waitingDraw .silent).busy = true ∧ (waitingDraw .silent).op = .draw ∧
      isNext (step (waitingDraw .silent)) = true ∧ (after (step (waitingDraw .silent))).busy = true) ∧
    ((waitingCleanup .ok).busy = true ∧ (waitingCleanup .ok).op = .draw ∧
      isNext (step (waitingCleanup .ok)) = true ∧ (after (step (waitingCleanup .ok))).busy = false) := by decide

theorem witness_ResultsNameTheirOperation :
    ((isNext (exec .init (idleWith small [.err e1 0] [])) = true ∧
      .res (.initErr e1) 1 ∈ (after (exec .init (idleWith small [.err e1 0] []))).hostLog.drop 0) ∧
    (isNext (exec (.draw fb4 4) (idleWith small (oks 18) [])) = true ∧
      .res .ok 18 ∈ (after (exec (.draw fb4 4) (idleWith small (oks 18) []))).hostLog.drop 0)) ∧
    (Inv (waitingCleanup .ok) ∧ (waitingCleanup .ok).busy = true ∧ isNext (step (waitingCleanup .ok)) = true ∧
      .res (.drawErr e1) 6 ∈ (after (step (waitingCleanup .ok))).hostLog.drop (waitingCleanup .ok).hostLog.length) :=
  ⟨by decide, inv_of_checks (by decide), by decide, by decide, by decide⟩

/-- An INIT every call of which is answered. -/
def answeredInit : State := idleWith small (oks 27) (dones 5)

theorem witness_AnsweredOperationEnds :
    (answeredInit.busy = false ∧
      fallibleCount (initProg small) ≤ answeredInit.transport.length ∧
      waitCount (initProg small) ≤ answeredInit.timing.length ∧
      (∀ r ∈ answeredInit.transport, r ≠ .silent) ∧
      ∀ k ∈ answeredInit.timing, k ≠ .silent) ∧
    (failingRelease.busy = false ∧
      18 ≤ failingRelease.transport.length ∧
      ∀ r ∈ failingRelease.transport, r ≠ .silent) := by decide

theorem witness_ProgramsKeepFraming : small.valid = true ∧ inverted.valid = true := by decide

theorem witness_DrawStoresFramebuffer :
    (ready small (oks 18)).busy = false ∧ (ready small (oks 18)).cfg.valid = true ∧
      (ready small (oks 18)).ctrl = .ready ∧ (ready small (oks 18)).cfg.madctlParam = 0x00 ∧
      small.opCaset ≠ small.opRaset ∧ small.opCaset ≠ small.opRamwr ∧ small.opRaset ≠ small.opRamwr ∧
      fb4.length = small.w * small.h ∧ (ready small (oks 18)).transport.take 18 = List.replicate 18 .ok ∧
      isNext (exec (.draw fb4 fb4.length) (ready small (oks 18))) = true ∧ 1 < small.w ∧ 1 < small.h ∧
      inWindow small (pmKey 5 1) = false := by decide

/-- A DRAW whose payload write fails (T34). -/
def failingDraw : State := ready small (oksThen 16 [.err e1 3, .ok])

/-- The DRAW in the step that starts it; one that goes on after a silent answer, ending well or badly. -/
theorem witness_DrawWritesOnlyItsWindow :
    ((isNext (exec (.draw fb4 4) failingDraw) = true ∧ small.valid = true ∧
      failingDraw.ctrl = .ready ∧ small.madctlParam = 0x00 ∧
      small.opCaset ≠ small.opRaset ∧ small.opCaset ≠ small.opRamwr ∧ small.opRaset ≠ small.opRamwr ∧
      inWindow small (pmKey 5 2) = false) ∧
    ((after (exec (.draw fb4 4) failingDraw)).busy = false ∧
      (after (exec (.draw fb4 4) failingDraw)).hostLog.getLast? =
        some (.res (.drawErr e1) 18) ∧ inWindow small (pmKey 4 2) = true)) ∧
    (Inv (waitingDraw .ok) ∧ (waitingDraw .ok).busy = true ∧ (waitingDraw .ok).op = .draw ∧
      controllerKnown (waitingDraw .ok) = true ∧ isNext (step (waitingDraw .ok)) = true) ∧
    (Inv (waitingCleanup .ok) ∧ (waitingCleanup .ok).op = .draw ∧
      (after (step (waitingCleanup .ok))).busy = false ∧
      (after (step (waitingCleanup .ok))).hostLog.getLast? = some (.res (.drawErr e1) 6)) :=
  ⟨by decide, ⟨inv_of_checks (by decide), by decide, by decide, by decide, by decide⟩,
    inv_of_checks (by decide), by decide, by decide, by decide⟩

theorem witness_MappedPixelsLieInside :
    (geometry 1 1 319 239).valid = true ∧ 0 < (geometry 1 1 319 239).w ∧ 0 < (geometry 1 1 319 239).h := by decide

/-- A command that goes on, and one whose fault ends the INIT. -/
theorem witness_InitCommandsFrame :
    ((inInit 16 (oks 6) []).op = .init ∧ isNext (exec .colmod (inInit 16 (oks 6) [])) = true ∧
      (after (exec .colmod (inInit 16 (oks 6) []))).busy = true) ∧
    (isNext (exec (.tuning 0xB2 [] 0) (inInit 28 [.err e1 0] [])) = true ∧
      (after (exec (.tuning 0xB2 [] 0) (inInit 28 [.err e1 0] []))).busy = false) := by decide

/-- A command that goes on, and one whose fault ends the DRAW. -/
theorem witness_DrawCommandsFrame :
    ((inDraw 0 (oks 6)).op = .draw ∧ isNext (exec (.caset 3 4) (inDraw 0 (oks 6))) = true ∧
      (after (exec (.caset 3 4) (inDraw 0 (oks 6)))).busy = true ∧
      (after (exec (.caset 3 4) (inDraw 0 (oks 6)))).ferr = none ∧ controllerKnown (inDraw 0 (oks 6)) = true ∧
      controllerKnown { inDraw 0 (oks 6) with ctrl := .unknown } = false) ∧
    (isNext (exec (.raset 1 2) (inDraw 6 [.err e1 0, .ok])) = true ∧
      (after (exec (.raset 1 2) (inDraw 6 [.err e1 0, .ok]))).busy = false ∧
      inWindow small (pmKey 5 2) = false) := by decide

theorem witness_OperationsFrame :
    (∃ t, exec .init (idleWith small (oks 3) (dones 5)) = .next t) ∧
      ∃ t, exec (.draw fb4 4) (ready small (oks 3)) = .next t := ⟨⟨_, rfl⟩, ⟨_, rfl⟩⟩

theorem witness_EncodeThenDecode :
    Cfg.ref.distinctOps = true ∧ (Instr.tuning 0xB2 [0x0C] 10).unambiguous Cfg.ref = true ∧
      (Instr.caset 0 239).unambiguous Cfg.ref = true ∧
      encode Cfg.ref (.caset 0 239) = .wire [⟨.c, 0x2A⟩, ⟨.d, 0x00⟩, ⟨.d, 0x00⟩, ⟨.d, 0x00⟩, ⟨.d, 0xEF⟩] ∧
      ([⟨.c, 0x2B⟩] : List TaggedByte).head?.map TaggedByte.tag ≠ some .d := by decide

end Sys2Proof.Tests
end

section
/-! Construction (R37, R186) and the machine after reset. -/

namespace Sys2Proof.Machine

variable {E : Type} {c : Cfg}

/-- R186: a configuration that keeps the bounds makes a block. -/
theorem construct_of_valid (h : c.valid = true) :
    construct (E := E) c = .next (State.constructed c) := by
  simp [construct, h]

/-- R184: no operation runs at construction. -/
theorem constructed_not_busy : (State.constructed (E := E) c).busy ≠ true := Bool.false_ne_true

/-- R37, R38: every state of construction meets the invariant. No operation runs, which leaves nothing to
show of a running one; no event was appended, which is what the latches and the wire are read from. -/
theorem constructed_inv (h : c.valid = true) : Inv (State.constructed (E := E) c) where
  config := h
  idle _ := ⟨rfl, rfl, rfl⟩
  initNoError hb := absurd hb constructed_not_busy
  cleanup hb := absurd hb constructed_not_busy
  position hb := absurd hb constructed_not_busy
  outstanding _ hm := nomatch hm
  answered hb := absurd hb constructed_not_busy
  framed hb := absurd hb constructed_not_busy
  latchCs := rfl
  latchDc := rfl
  latchRst := rfl
  wireDefined := by simp [State.constructed, wire, wireFrom]
  memory := rfl
  unclaimed _ := rfl
  window hb := absurd hb constructed_not_busy
  results := rfl

/-- R8, R9: the geometry of REF keeps the bounds. -/
theorem ref_valid : Cfg.ref.valid = true := by decide

end Sys2Proof.Machine

open Sys2Proof Sys2Proof.Machine

/-- Settles O3: the reset state is the construction of REF, whose configuration is valid. -/
theorem resetMeetsInvariant : Obligations.ResetMeetsInvariant :=
  ⟨construct_of_valid ref_valid, rfl, rfl, rfl, rfl, constructed_inv ref_valid⟩

end

section
/-! The programs of INIT and DRAW (R134, R147): the calls of DRAW one by one, the commands both are made of,
and the framing of both (R106 (c), (e)). -/

namespace Sys2Proof.Machine

variable {E : Type} {c : Cfg}

/-- R7, R8: the bounds of a configuration, in numbers. -/
theorem valid_bounds (h : c.valid = true) :
    1 ≤ c.w ∧ 1 ≤ c.h ∧ c.w ≤ 240 ∧ c.h ≤ 320 ∧ c.rOff + c.h ≤ 320 ∧ c.cOff + c.w ≤ 240 := by
  simp only [Cfg.valid, Bool.and_eq_true, decide_eq_true_eq, and_assoc] at h
  exact h

/-- R147: DRAW_PROG call by call. -/
theorem drawProg_eq (c : Cfg) (fb : List Pixel) :
    drawProg c fb =
      [.csA, .dcC, .wr [c.opCaset], .dcD,
        .wr (boundBytes (toBound (physColumn c 0)) (toBound (physColumn c (c.w - 1)))), .csR,
        .csA, .dcC, .wr [c.opRaset], .dcD,
        .wr (boundBytes (toBound (physRow c 0)) (toBound (physRow c (c.h - 1)))), .csR,
        .csA, .dcC, .wr [c.opRamwr], .dcD, .wr (pixBytes c fb), .csR] := by
  simp [drawProg, fullWindow, setWindow, casetOps, rasetOps, ramwrOps, payloadOps, group, sendCommand,
    sendParams, sendData, settle, boundBytes, be16]

@[simp] theorem drawProg_length (c : Cfg) (fb : List Pixel) : (drawProg c fb).length = 18 := by
  simp [drawProg_eq]

/-- R24, R147: the clean-up is the release at index 17. -/
theorem drawProg_cleanup (c : Cfg) (fb : List Pixel) : (drawProg c fb)[cleanupIndex]? = some .csR := by
  simp [drawProg_eq, cleanupIndex]

/-- R147: DRAW has no delay. -/
theorem drawProg_fallible {fb : List Pixel} {m : MicroOp} (h : m ∈ drawProg c fb) : fallible m = true := by
  have hall : (drawProg c fb).all fallible = true := by simp [drawProg_eq, fallible]
  exact List.all_eq_true.1 hall m h

/-- The six writes of DRAW_PROG (R147), each with its index and the tag its bytes have on the wire (R63). -/
def drawWrites (c : Cfg) (fb : List Pixel) : List (Nat × Tag × List Byte) :=
  [(2, .c, [c.opCaset]),
    (4, .d, boundBytes (toBound (physColumn c 0)) (toBound (physColumn c (c.w - 1)))),
    (8, .c, [c.opRaset]),
    (10, .d, boundBytes (toBound (physRow c 0)) (toBound (physRow c (c.h - 1)))),
    (14, .c, [c.opRamwr]),
    (16, .d, pixBytes c fb)]

/-- Every call of DRAW is a line set or one of its six writes. -/
theorem drawProg_call {fb : List Pixel} {u : Nat} {m : MicroOp} (h : (drawProg c fb)[u]? = some m) :
    (u ∉ [2, 4, 8, 10, 14, 16] ∧ ∃ line level, callOf c m = .sigSet line level) ∨
      ∃ tag bytes, m = .wr bytes ∧ (u, tag, bytes) ∈ drawWrites c fb := by
  have hu : u < 18 := by
    obtain ⟨hu, -⟩ := List.getElem?_eq_some_iff.1 h
    simpa using hu
  rw [drawProg_eq] at h
  interval_cases u <;> simp at h <;> simp [← h, callOf, drawWrites]

/-! R63: the tag of a byte in a group, before and after the selector is set to data. -/

@[simp] theorem tagOf_command (c : Cfg) : tagOf c (ofLevel c.csAssert) (ofLevel c.dcCmd) = some .c := by
  simp [tagOf]

@[simp] theorem tagOf_data (c : Cfg) :
    tagOf c (ofLevel c.csAssert) (ofLevel (invert c.dcCmd)) = some .d := by
  simp [tagOf, ofLevel_invert_ne]

/-- R58, R63: when the calls of DRAW before a write were answered `Ok`, the latches give its bytes the tag of
the write, whatever happened before this DRAW. -/
theorem tagOf_drawWrite {fb : List Pixel} {u : Nat} {tag : Tag} {bytes : List Byte}
    (h : (u, tag, bytes) ∈ drawWrites c fb) (older : List (Event E)) :
    tagOf c (latchOf .cs .u (older ++ ((drawProg c fb).take u).map (okEvent c)))
      (latchOf .dc .u (older ++ ((drawProg c fb).take u).map (okEvent c))) = some tag := by
  rw [latchOf_append, latchOf_append, drawProg_eq]
  simp only [drawWrites, List.mem_cons, Prod.mk.injEq, List.not_mem_nil, or_false] at h
  rcases h with ⟨rfl, rfl, -⟩ | ⟨rfl, rfl, -⟩ | ⟨rfl, rfl, -⟩ | ⟨rfl, rfl, -⟩ | ⟨rfl, rfl, -⟩ | ⟨rfl, rfl, -⟩ <;>
    simp [okEvent, callOf, latchOf, latchAfter]

/-! R106 (c), (e): every write of a program is made with chip-select asserted and the selector known. -/

/-- R104: a group sets both latches before it writes, so what follows it decides. -/
theorem writesMet_group {rest : List MicroOp} (h : ∀ cs dc, writesMet c cs dc rest = true) (op : Byte)
    (params : List Byte) (d : Nat) (cs dc : Latch) : writesMet c cs dc (group op params d ++ rest) = true := by
  by_cases hp : params = [] <;> by_cases hd : d = 0 <;>
    simp [group, sendCommand, sendParams, sendData, settle, writesMet, callOf, hp, hd, h, Nat.pos_iff_ne_zero]

theorem writesMet_entries (es : List Entry) (cs dc : Latch) : writesMet c cs dc (es.flatMap entryOps) = true := by
  induction es generalizing cs dc with
  | nil => rfl
  | cons e es ih => exact writesMet_group ih e.op e.params e.postDelay cs dc

/-- R108, R124: a delay that is sent is not 0. -/
theorem writesMet_settle (ms : Nat) (rest : List MicroOp) (cs dc : Latch) :
    writesMet c cs dc (settle ms ++ rest) = writesMet c cs dc rest := by
  unfold settle
  split
  · rfl
  · next h => simp [writesMet, callOf, Nat.pos_of_ne_zero h]

/-- R106, R134: INIT_PROG, from any latches. -/
theorem writesMet_initProg (c : Cfg) (cs dc : Latch) : writesMet c cs dc (initProg c) = true := by
  simp [initProg, hwReset, writesMet, callOf, writesMet_settle, writesMet_entries]

/-- R8, R146: the payload of a DRAW is not empty. -/
theorem pixBytes_ne_nil (h : c.valid = true) (fb : List Pixel) : pixBytes c fb ≠ [] := by
  obtain ⟨hw, hh, -⟩ := valid_bounds h
  have hwh : 0 < c.w * c.h := Nat.mul_pos hw hh
  simpa [pixBytes, be16] using ⟨0, hwh⟩

/-- R106, R147: DRAW_PROG, from any latches. -/
theorem writesMet_drawProg (h : c.valid = true) (fb : List Pixel) (cs dc : Latch) :
    writesMet c cs dc (drawProg c fb) = true := by
  simp [drawProg_eq, writesMet, callOf, pixBytes_ne_nil h, boundBytes, be16]

/-! R111, R133, R134: the programs are the lists of their commands. -/

theorem initProg_commands (c : Cfg) :
    initProg c = hwReset c ++ (initCommands c).flatMap (commandOps c) := by
  have hentry : entryOps = fun e => group e.op e.params e.postDelay := rfl
  simp [initProg, initCommands, tab, commandOps, hentry, swresetOps, slpoutOps, colmodOps, madctlOps,
    disponOps, tuningOps, List.flatMap_map, List.flatMap_append]

theorem drawProg_commands (c : Cfg) (fb : List Pixel) :
    drawProg c fb = (drawCommands c).flatMap (commandOps c) ++ payloadOps c fb := by
  simp [drawProg, fullWindow, setWindow, drawCommands, commandOps]

/-! R25: the program of the running operation. -/

theorem prog_init {s : State.Over E} (h : s.op = .init) : prog s = initProg s.cfg := by
  simp only [prog, h]

theorem prog_draw {s : State.Over E} (h : s.op = .draw) : prog s = drawProg s.cfg s.fb := by
  simp only [prog, h]

/-- R24: the command the sequencer has come to is what its program goes on with, and is no host request. -/
theorem currentCommand_prog {s : State.Over E} {i : Instr} (h : currentCommand s = some i) :
    commandOps s.cfg i <+: (prog s).drop s.upc ∧ i ≠ .init ∧ ∀ fb len, i ≠ .draw fb len := by
  unfold currentCommand at h
  split at h
  · next ho =>
    split at h
    · cases h
    · next hu =>
      obtain ⟨hi, rest, hr⟩ := commandAt_drop [] h
      rw [List.append_nil] at hr
      refine ⟨⟨rest, ?_⟩, ?_⟩
      · rw [prog_init ho, initProg_commands, List.drop_append, List.drop_eq_nil_of_le (Nat.le_of_not_lt hu), ← hr]
        rfl
      · simp only [initCommands, List.mem_append, List.mem_cons, List.mem_map, List.not_mem_nil] at hi
        constructor <;> (intros; rintro rfl; simp at hi)
  · next ho =>
    obtain ⟨hi, rest, hr⟩ := commandAt_drop (payloadOps s.cfg s.fb) h
    refine ⟨⟨rest, ?_⟩, ?_⟩
    · rw [prog_draw ho, drawProg_commands, hr]
    · simp only [drawCommands, List.mem_cons, List.not_mem_nil] at hi
      constructor <;> (intros; rintro rfl; simp at hi)

end Sys2Proof.Machine
end

section
/-! The window and the pointer of the sink in a running DRAW (R55, R56, R117), call by call. -/

namespace Sys2Proof.Machine

variable {c : Cfg} {k : Controller} {u : Nat}

/-- R115, D25: the bounds of the full window fit 16 bits. -/
theorem fullWindow_bounds (h : c.valid = true) :
    (toBound (physColumn c 0)).toNat = c.cOff ∧
      (toBound (physColumn c (c.w - 1))).toNat = c.cOff + c.w - 1 ∧
      (toBound (physRow c 0)).toNat = c.rOff ∧
      (toBound (physRow c (c.h - 1))).toNat = c.rOff + c.h - 1 := by
  have hb := valid_bounds h
  simp only [toBound, physColumn, physRow, BitVec.toNat_ofNat]
  omega

/-- A line set sends nothing: the window is as far as it was. -/
theorem windowSent_set (h : windowSent c u k) (hu : u ∉ [2, 4, 8, 10, 14, 16]) : windowSent c (u + 1) k := by
  obtain ⟨hcol, hx, hrow, hy, hpix⟩ := h
  simp only [List.mem_cons, List.not_mem_nil, or_false, not_or] at hu
  exact ⟨fun h => hcol (by omega), fun h => hx (by omega), fun h => hrow (by omega),
    fun h => hy (by omega), fun h => hpix (by omega)⟩

/-- R55, R56, R117: each write of DRAW takes the window one call further. -/
theorem windowSent_write {fb : List Pixel} {tag : Tag} {bytes : List Byte} (hv : c.valid = true)
    (hg : sinkGiven c = true) (h : windowSent c u k) (hw : (u, tag, bytes) ∈ drawWrites c fb) (n : Nat) :
    windowSent c (u + 1) (sinkBytes c n tag bytes k) := by
  obtain ⟨-, hcr, hcw, hrw⟩ := sinkGiven_iff.1 hg
  obtain ⟨hxs, hxe, hys, hye⟩ := fullWindow_bounds hv
  obtain ⟨hcol, hx, hrow, hy, hpix⟩ := h
  simp only [drawWrites, List.mem_cons, Prod.mk.injEq, List.not_mem_nil, or_false] at hw
  unfold windowSent
  rcases hw with ⟨rfl, rfl, rfl⟩ | ⟨rfl, rfl, rfl⟩ | ⟨rfl, rfl, rfl⟩ | ⟨rfl, rfl, rfl⟩ | ⟨rfl, rfl, rfl⟩ |
    ⟨rfl, rfl, rfl⟩
  · simp [sinkBytes, sinkByte, sinkCommand_caset hcr hcw]
  · obtain ⟨hm, ha⟩ := hcol (by omega)
    simp [sinkBytes_columns c n _ _ hm ha, hxs, hxe]
  · simp [sinkBytes, sinkByte, sinkCommand_raset hcr hrw, hx (by omega)]
  · obtain ⟨hm, ha⟩ := hrow (by omega)
    simp [sinkBytes_rows c n _ _ hm ha, hys, hye, hx (by omega)]
  · simp [sinkBytes, sinkByte, sinkCommand_ramwr hcw hrw, hx (by omega), hy (by omega)]
  · obtain ⟨hm, -⟩ := hpix (by omega)
    obtain ⟨kxs, kxe, -⟩ := sinkBytes_keepsColumns c n (pixBytes c fb) (k := k) (by simp [hm, keepsColumns])
    obtain ⟨kys, kye, -⟩ := sinkBytes_keepsRows c n (pixBytes c fb) (k := k) (by simp [hm, keepsRows])
    simp [kxs, kxe, kys, kye, hx (by omega), hy (by omega)]

end Sys2Proof.Machine
end

section
/-! What the invariant says at every moment of a call, between its answer and the next issue too (`Recorded`):
every answered call keeps it, and it is all that an end of the operation needs. -/

namespace Sys2Proof.Machine

variable {E : Type} {s t : State.Over E}

/-- The clauses of the invariant that do not speak of the sequencer's position: the configuration, the latches
as the trace leaves them, a wire view with no undefined write, the memory, one result per request. -/
structure Recorded (s : State.Over E) : Prop where
  config : s.cfg.valid = true
  latch : ∀ l, readLine s l = latchOf l .u s.trace
  wireDefined : WireItem.undefinedWrite ∉ wire s.cfg s.trace
  memory : pmWf s.ctl.pm = true
  unclaimed : (s.ctrl ≠ .ready ∨ sinkGiven s.cfg = false ∨ s.busy = true ∧ s.op = .init) → s.ctl.pm = []
  results : requestCount s.hostLog = resultCount s.hostLog + s.busy.toNat

theorem Inv.recorded (h : Inv s) : Recorded s :=
  { h with
    latch := fun
      | .cs => h.latchCs
      | .dc => h.latchDc
      | .rst => h.latchRst }

/-- While no operation runs the invariant says no more. -/
theorem Recorded.inv_of_idle (h : Recorded s) (hb : s.busy = false) (hp : s.pending = none)
    (hf : s.ferr = none) (hfb : s.fb = []) : Inv s :=
  { h with
    idle := fun _ => ⟨hp, hf, hfb⟩
    initNoError := by simp [hb]
    cleanup := by simp [hb]
    position := by simp [hb]
    outstanding := by simp [hp]
    answered := by simp [hb]
    framed := by simp [hb]
    latchCs := h.latch .cs
    latchDc := h.latch .dc
    latchRst := h.latch .rst
    window := by simp [hb] }

/-! ### An answered call -/

/-- R64: one event gives no undefined write, if the latches have a tag for it when it is a write. -/
theorem undefinedWrite_not_mem_wireFrom {c : Cfg} {cs dc : Latch} {ev : Event E}
    (h : ∀ bytes ans, ev = .write bytes ans → (tagOf c cs dc).isSome = true) :
    WireItem.undefinedWrite ∉ wireFrom c cs dc [ev] := by
  cases ev with
  | set line level ans =>
    cases line <;> cases ans <;> simp [wireFrom, wireRelease]
  | write bytes ans =>
    obtain ⟨tag, ht⟩ := Option.isSome_iff_exists.1 (h bytes ans rfl)
    cases ans <;> simp [wireFrom, wireWrite, ht]
  | delay ms => simp [wireFrom]

theorem isWrite_of_okEvent {c : Cfg} {m : MicroOp} {bytes : List Byte} {ans : Answer E}
    (h : okEvent c m = .write bytes ans) : isWrite m = true := by
  cases m with
  | wr _ => rfl
  | csA | csR | dcC | dcD | rstA | rstR | wait _ => cases h

theorem isWrite_of_errEvent {c : Cfg} {e : E} {m : MicroOp} {bytes : List Byte} {ans : Answer E}
    (h : errEvent c e m = .write bytes ans) : isWrite m = true := by
  cases m with
  | wr _ => rfl
  | csA | csR | dcC | dcD | rstA | rstR | wait _ => cases h

/-- Where the invariant claims no cell, PM is not claimed of the sink (entries 11, 12). -/
theorem controllerKnown_of_unclaimed
    (h : s.ctrl ≠ .ready ∨ sinkGiven s.cfg = false ∨ s.busy = true ∧ s.op = .init) :
    controllerKnown s = false := by
  rcases h with h | h | ⟨-, h⟩
  · simp [controllerKnown, h]
  · simp [controllerKnown, h]
  · exact controllerKnown_init h

/-- R30: an event appended, its latch written, and the memory as the event's call leaves it. -/
theorem Recorded.append {ev : Event E} (h : Recorded s) (hcfg : t.cfg = s.cfg) (hbusy : t.busy = s.busy)
    (hop : t.op = s.op) (hctrl : t.ctrl = s.ctrl) (hlog : t.hostLog = s.hostLog)
    (htrace : t.trace = s.trace ++ [ev]) (hlatch : ∀ l, readLine t l = latchOf l (readLine s l) [ev])
    (hwrite : ∀ bytes ans, ev = .write bytes ans → (tagOf s.cfg s.cs s.dc).isSome = true)
    (hmem : pmWf t.ctl.pm = true)
    (hpm : controllerKnown s = false → t.ctl.pm = s.ctl.pm ∨ t.ctl.pm = []) : Recorded t where
  config := hcfg ▸ h.config
  latch l := by rw [hlatch, h.latch, htrace, latchOf_append]
  wireDefined := by
    have hcs : latchOf .cs .u s.trace = s.cs := (h.latch .cs).symm
    have hdc : latchOf .dc .u s.trace = s.dc := (h.latch .dc).symm
    rw [hcfg, htrace, wire_append, hcs, hdc, List.mem_append, not_or]
    exact ⟨h.wireDefined, undefinedWrite_not_mem_wireFrom hwrite⟩
  memory := hmem
  unclaimed hu := by
    rw [hctrl, hcfg, hbusy, hop] at hu
    exact (hpm (controllerKnown_of_unclaimed hu)).elim (·.trans (h.unclaimed hu)) id
  results := by rw [hlog, hbusy]; exact h.results

theorem Recorded.after_effectOk {m : MicroOp} (h : Recorded s)
    (hw : isWrite m = true → (tagOf s.cfg s.cs s.dc).isSome = true) : Recorded (effectOk m s) :=
  h.append (by simp) (by simp) (by simp) (by simp) (by simp) (effectOk_trace m s) (effectOk_latch m s)
    (fun _ _ he => hw (isWrite_of_okEvent he)) (pmWf_effectOk h.memory m) (effectOk_unclaimed · m)

theorem Recorded.after_effectErr {m : MicroOp} (h : Recorded s)
    (hw : isWrite m = true → (tagOf s.cfg s.cs s.dc).isSome = true) (e : E) (n : Nat) :
    Recorded (effectErr m e n s) :=
  h.append (by simp) (by simp) (by simp) (by simp) (by simp) (effectErr_trace m e n s)
    (effectErr_latch m e n s) (fun _ _ he => hw (isWrite_of_errEvent he)) (pmWf_effectErr h.memory m e n)
    (effectErr_unclaimed · m e n)

/-! ### The end of an operation -/

@[simp] theorem requestCount_append (xs ys : List (HostEvent E)) :
    requestCount (xs ++ ys) = requestCount xs + requestCount ys := List.countP_append

@[simp] theorem resultCount_append (xs ys : List (HostEvent E)) :
    resultCount (xs ++ ys) = resultCount xs + resultCount ys := List.countP_append

@[simp] theorem requestCount_req (op : Op) (n : Nat) (log : List (HostEvent E)) :
    requestCount (.req op n :: log) = requestCount log + 1 := List.countP_cons_of_pos rfl

@[simp] theorem requestCount_res (r : Result E) (n : Nat) (log : List (HostEvent E)) :
    requestCount (.res r n :: log) = requestCount log := List.countP_cons_of_neg Bool.false_ne_true

@[simp] theorem resultCount_req (op : Op) (n : Nat) (log : List (HostEvent E)) :
    resultCount (.req op n :: log) = resultCount log := List.countP_cons_of_neg Bool.false_ne_true

@[simp] theorem resultCount_res (r : Result E) (n : Nat) (log : List (HostEvent E)) :
    resultCount (.res r n :: log) = resultCount log + 1 := List.countP_cons_of_pos rfl

@[simp] theorem requestCount_nil : requestCount ([] : List (HostEvent E)) = 0 := rfl
@[simp] theorem resultCount_nil : resultCount ([] : List (HostEvent E)) = 0 := rfl

/-- K14: where nothing is known of the controller `ctrl` may be anything. -/
theorem Recorded.after_controllerUnknown (h : Recorded s) (status : Ctrl) :
    Recorded (controllerUnknown { s with ctrl := status }) :=
  { h with
    latch := fun
      | .cs => h.latch .cs
      | .dc => h.latch .dc
      | .rst => h.latch .rst
    memory := rfl
    unclaimed := fun _ => rfl }

theorem Recorded.after_windowLost (h : Recorded s) : Recorded (windowLost s) :=
  { h with
    latch := fun
      | .cs => h.latch .cs
      | .dc => h.latch .dc
      | .rst => h.latch .rst
    memory := pmWf_forgetWindow h.memory _
    unclaimed := fun hu => by simp [forgetWindow, h.unclaimed hu] }

/-- R206: the result is delivered and the block is idle. -/
theorem Recorded.inv_respond (h : Recorded s) (hb : s.busy = true) (r : Result E) : Inv (respond r s) := by
  have hr : Recorded (respond r s) :=
    { h with
      latch := fun
        | .cs => h.latch .cs
        | .dc => h.latch .dc
        | .rst => h.latch .rst
      unclaimed := fun hu => h.unclaimed (hu.imp_right (·.imp_right fun ⟨hb', _⟩ => nomatch hb'))
      results := by simp [h.results, hb] }
  exact hr.inv_of_idle rfl rfl rfl rfl

/-- R99: FINISH. -/
theorem Recorded.inv_finish (h : Recorded s) (hb : s.busy = true) : Inv (finish s) := by
  unfold finish
  split
  · exact (h.after_controllerUnknown .ready).inv_respond hb .ok
  · exact h.inv_respond hb .ok

/-- R150, R165: the end of the clean-up. -/
theorem Recorded.inv_endCleanup (h : Recorded s) (hb : s.busy = true) (e : E) : Inv (endCleanup e s) :=
  h.after_windowLost.inv_respond hb (.drawErr e)

/-- R163: taking the fault, after which a DRAW that is not over is at its clean-up (R165). -/
theorem Recorded.inv_takeBusFault (h : Recorded s) (hb : s.busy = true) (hp : s.pending = none) (e : E) :
    Inv (takeBusFault e s) := by
  cases ho : s.op with
  | init =>
    rw [takeBusFault_init ho]
    exact (h.after_controllerUnknown .indeterminate).inv_respond hb (.initErr e)
  | draw =>
    by_cases hu : s.upc < 17
    · rw [takeBusFault_draw ho hu]
      have hw := h.after_windowLost
      exact
        { hw with
          idle := by simp [hb]
          initNoError := by simp [ho]
          cleanup := fun _ _ => rfl
          position := by simp [prog, ho]
          outstanding := by simp [hp]
          answered := by simp
          framed := by simp
          latchCs := hw.latch .cs
          latchDc := hw.latch .dc
          latchRst := hw.latch .rst
          window := by simp }
    · rw [takeBusFault_draw_last ho hu]
      exact h.after_windowLost.inv_respond hb (.drawErr e)

end Sys2Proof.Machine
end

section
/-! Every piece of the executor keeps the invariant (R38, R99): ISSUE, the three answers, the clean-up, the
fault; then a list of calls that the program goes on with. -/

namespace Sys2Proof.Machine

variable {E : Type} {s t : State.Over E} {m : MicroOp}

/-! ### What the invariant says of an outstanding call -/

theorem Inv.busy_of_pending (h : Inv s) (hm : s.pending = some m) : s.busy = true := by
  by_contra hb
  simp [(h.idle (by simpa using hb)).1] at hm

/-- R35: outside the clean-up of a DRAW no error is held. -/
theorem Inv.no_error_of_cleaning (h : Inv s) (hb : s.busy = true) (hc : cleaning s = none) : s.ferr = none := by
  cases ho : s.op with
  | init => exact h.initNoError hb ho
  | draw => simpa [cleaning, ho] using hc

/-- R24, R150, R165: in the clean-up the sequencer is at the last release. -/
theorem Inv.at_cleanup (h : Inv s) (hb : s.busy = true) {e : E} (hc : cleaning s = some e) :
    (prog s)[s.upc]? = some .csR := by
  obtain ⟨ho, he⟩ := cleaning_some hc
  rw [h.cleanup hb (by simp [he])]
  simpa [prog, ho] using drawProg_cleanup s.cfg s.fb

/-- R106 (c): a write is outstanding only with chip-select asserted and the selector known. -/
theorem Inv.write_tagged (h : Inv s) (hm : s.pending = some m) (hw : isWrite m = true) :
    (tagOf s.cfg s.cs s.dc).isSome = true := by
  have hb := h.busy_of_pending hm
  have hat := h.outstanding m hm
  cases hc : cleaning s with
  | some e =>
    rw [h.at_cleanup hb hc] at hat
    cases hat
    cases hw
  | none =>
    obtain ⟨hu, hget⟩ := List.getElem?_eq_some_iff.1 hat
    have hf := h.framed hb (h.no_error_of_cleaning hb hc)
    rw [List.drop_eq_getElem_cons hu, hget] at hf
    cases m with
    | wr bytes =>
      simp only [writesMet, callOf, Bool.and_eq_true] at hf
      exact hf.1.2
    | csA | csR | dcC | dcD | rstA | rstR | wait _ => cases hw

/-! ### One call -/

theorem Inv.after_issue (h : Inv s) (hb : s.busy = true) (hm : (prog s)[s.upc]? = some m) : Inv (issue m s) :=
  { h with
    idle := by simp [hb]
    outstanding := fun m' hm' => by
      obtain rfl : m = m' := by simpa using hm'
      exact hm }

/-- The invariant does not speak of what the outside will do, nor of the pixels read. -/
theorem Inv.with_inputs (h : Inv s) (hs : List HostRequest) (rs : List (Reply E)) (ts : List Tick) (k : Nat) :
    Inv { s with host := hs, transport := rs, timing := ts, pix := k } := { h with }

/-- R170: no answer yet. -/
theorem Inv.of_waiting (h : Inv s) (ha : answer m s = .waiting t) : Inv t := by
  obtain ⟨rs, ts, k, rfl⟩ := waiting_eq ha
  exact h.with_inputs s.host rs ts k

theorem Inv.recorded_of_ok (h : Inv s) (hm : s.pending = some m) (ha : answer m s = .ok t) :
    Recorded t ∧ t.busy = true := by
  obtain ⟨rs, ts, -, rfl⟩ := answer_ok_inv ha
  have hr : Inv { s with transport := rs, timing := ts } := h.with_inputs s.host rs ts s.pix
  exact ⟨hr.recorded.after_effectOk (h.write_tagged hm), by simpa using h.busy_of_pending hm⟩

theorem Inv.recorded_of_err (h : Inv s) (hm : s.pending = some m) {e : E} (ha : answer m s = .err e t) :
    Recorded t ∧ t.busy = true ∧ t.pending = none := by
  obtain ⟨n, rs, -, rfl, -⟩ := answer_err_inv ha
  have hr : Inv { s with transport := rs } := h.with_inputs s.host rs s.timing s.pix
  exact ⟨hr.recorded.after_effectErr (h.write_tagged hm) e n, by simpa using h.busy_of_pending hm, by simp⟩

/-- R106: after the answer `Ok` to a call the rest of the program is framed from the new latches. -/
theorem writesMet_effectOk {rest : List MicroOp} (h : writesMet s.cfg s.cs s.dc (m :: rest) = true) :
    writesMet s.cfg (effectOk m s).cs (effectOk m s).dc rest = true := by
  have hcs := effectOk_latch m s .cs
  have hdc := effectOk_latch m s .dc
  simp only [readLine] at hcs hdc
  rw [hcs, hdc]
  cases m <;> simp_all [writesMet, callOf, okEvent, latchOf, latchAfter]

/-- R58, R63: a write of a running DRAW has the tag its place in DRAW_PROG gives it. -/
theorem Inv.draw_tag (h : Inv s) (hb : s.busy = true) (hf : s.ferr = none) (ho : s.op = .draw) {tag : Tag}
    {bytes : List Byte} (hw : (s.upc, tag, bytes) ∈ drawWrites s.cfg s.fb) :
    tagOf s.cfg s.cs s.dc = some tag := by
  obtain ⟨older, htrace⟩ := h.answered hb hf
  simp only [prog, ho] at htrace
  rw [h.latchCs, h.latchDc, ← htrace]
  exact tagOf_drawWrite hw older

/-- R55, R56, R117: a call of DRAW answered `Ok` takes the sink's window as far as `upc` says next. -/
theorem Inv.windowSent_effectOk (h : Inv s) (hm : s.pending = some m) (hf : s.ferr = none)
    (hk : controllerKnown s = true) : windowSent s.cfg (s.upc + 1) (effectOk m s).ctl := by
  obtain ⟨hrun, hg⟩ := controllerKnown_iff.1 hk
  have hb := h.busy_of_pending hm
  have ho : s.op = .draw := by
    by_contra ho
    simp [controllerKnown, ho] at hk
  have hat : (drawProg s.cfg s.fb)[s.upc]? = some m := by simpa [prog, ho] using h.outstanding m hm
  have hsent := h.window hb hk hf
  rcases drawProg_call hat with ⟨hu, line, level, hset⟩ | ⟨tag, bytes, rfl, hw⟩
  · rw [(effectOk_set hset hrun).1]
    exact windowSent_set hsent hu
  · rw [(effectOk_write hrun (h.draw_tag hb hf ho hw)).1, claimedPm_given hg]
    exact windowSent_write h.config hg hsent hw s.fresh

/-- R99: a call answered `Ok` or `done`, outside a clean-up. -/
theorem Inv.advance_effectOk (h : Inv s) (hm : s.pending = some m) (hf : s.ferr = none) :
    Inv (advance (effectOk m s)) := by
  have hb := h.busy_of_pending hm
  have hr := h.recorded.after_effectOk (h.write_tagged hm)
  have hprog : prog (advance (effectOk m s)) = prog s := by simp [prog]
  obtain ⟨hu, hget⟩ := List.getElem?_eq_some_iff.1 (h.outstanding m hm)
  refine
    { hr with
      idle := by simp [hb]
      initNoError := by simp [hf]
      cleanup := by simp [hf]
      position := fun _ => ?_
      outstanding := by simp
      answered := fun _ _ => ?_
      framed := fun _ _ => ?_
      latchCs := hr.latch .cs
      latchDc := hr.latch .dc
      latchRst := hr.latch .rst
      window := fun _ hk _ => ?_ }
  · rw [hprog, advance_upc, effectOk_upc]
    exact hu
  · obtain ⟨older, htrace⟩ := h.answered hb hf
    refine ⟨older, ?_⟩
    rw [hprog, advance_upc, effectOk_upc, List.take_succ_eq_append_getElem hu, hget]
    simp [← htrace]
  · have hmet := h.framed hb hf
    rw [List.drop_eq_getElem_cons hu, hget] at hmet
    rw [hprog]
    simpa using writesMet_effectOk hmet
  · have hk' : controllerKnown s = true := by
      rw [← hk]
      exact (controllerKnown_congr (by simp) (by simp) (by simp)).symm
    simpa using h.windowSent_effectOk hm hf hk'

theorem Inv.advance_of_ok (h : Inv s) (hm : s.pending = some m) (hf : s.ferr = none)
    (ha : answer m s = .ok t) : Inv (advance t) := by
  obtain ⟨rs, ts, -, rfl⟩ := answer_ok_inv ha
  have hr : Inv { s with transport := rs, timing := ts } := h.with_inputs s.host rs ts s.pix
  exact hr.advance_effectOk hm hf

/-- R99, letter by letter: every single step of the executor, ISSUE, ANSWER or FINISH. -/
theorem Inv.after_executorStep (h : Inv s) : Inv (executorStep s).state := by
  unfold executorStep
  split
  · next hb =>
    split
    · split
      · next m hm => exact h.after_issue hb hm
      · exact h.recorded.inv_finish hb
    · next m hm =>
      split
      · next t ha => exact h.of_waiting ha
      · next t ha =>
        obtain ⟨hr, hbt⟩ := h.recorded_of_ok hm ha
        split
        · exact hr.inv_endCleanup hbt _
        · next hc => exact h.advance_of_ok hm (h.no_error_of_cleaning hb hc) ha
      · next e t ha =>
        obtain ⟨hr, hbt, hpt⟩ := h.recorded_of_err hm ha
        split
        · exact hr.inv_endCleanup hbt _
        · exact hr.inv_takeBusFault hbt hpt e
  · exact h

/-! ### A run of calls -/

theorem Inv.after_completeCleanup (h : Inv s) (hm : s.pending = some m) (e : E) : Inv (completeCleanup e m s) := by
  unfold completeCleanup
  split
  · next t ha => exact h.of_waiting ha
  · next t ha =>
    obtain ⟨hr, hb⟩ := h.recorded_of_ok hm ha
    exact hr.inv_endCleanup hb e
  · next e' t ha =>
    obtain ⟨hr, hb, -⟩ := h.recorded_of_err hm ha
    exact hr.inv_endCleanup hb e

/-- R150: after a fault of DRAW its clean-up is issued. -/
theorem Inv.after_afterFault (h : Inv s) : Inv (afterFault s) := by
  unfold afterFault
  split
  · next e hb hc => exact (h.after_issue hb (h.at_cleanup hb hc)).after_completeCleanup rfl e
  · exact h
  · exact h

/-- R99: the answer to the outstanding call and what follows from it. -/
theorem Inv.after_complete (h : Inv s) (hm : s.pending = some m) : Inv (complete m s).state := by
  unfold complete
  split
  · exact h.after_completeCleanup hm _
  · next hc =>
    split
    · next t ha => exact h.of_waiting ha
    · next t ha => exact h.advance_of_ok hm (h.no_error_of_cleaning (h.busy_of_pending hm) hc) ha
    · next e t ha =>
      obtain ⟨hr, hb, hp⟩ := h.recorded_of_err hm ha
      exact (hr.inv_takeBusFault hb hp e).after_afterFault

/-- R18, R99: where a call that goes on leaves the sequencer: one further in the same program. -/
theorem complete_going_inv (h : complete m s = .going t) :
    t.busy = s.busy ∧ prog t = prog s ∧ t.upc = s.upc + 1 := by
  unfold complete at h
  split at h
  · cases h
  · split at h
    · cases h
    · next u ha =>
      obtain ⟨rs, ts, -, rfl⟩ := answer_ok_inv ha
      cases h
      simp [prog]
    · cases h

/-- A run of calls that the program goes on with. -/
theorem Inv.after_runOps {ms : List MicroOp} (h : Inv s) (hb : s.busy = true)
    (hms : ms <+: (prog s).drop s.upc) : Inv (runOps ms s).state := by
  induction ms generalizing s with
  | nil => exact h
  | cons m ms ih =>
    obtain ⟨rest, hrest⟩ := hms
    have hm : (prog s)[s.upc]? = some m := by
      rw [← List.head?_drop, ← hrest]
      rfl
    have hc := (h.after_issue hb hm).after_complete (m := m) rfl
    unfold runOps call
    split
    · next t ht =>
      obtain ⟨hbt, hprog, hu⟩ := complete_going_inv ht
      rw [ht] at hc
      have hleft : (prog t).drop t.upc = ((prog s).drop s.upc).drop 1 := by
        rw [List.drop_drop, hprog, hu]
        rfl
      exact ih hc (hbt.trans hb) ⟨rest, by rw [hleft, ← hrest]; rfl⟩
    · next t ht =>
      rw [ht] at hc
      exact hc

theorem Inv.after_finishRun {ms : List MicroOp} (h : Inv s) (hb : s.busy = true)
    (hms : ms <+: (prog s).drop s.upc) : Inv (finishRun (runOps ms s)) := by
  have hr := h.after_runOps hb hms
  unfold finishRun
  split
  · next t ht =>
    rw [ht] at hr
    exact hr.recorded.inv_finish ((within_runOps hb).2 t ht)
  · next t ht =>
    rw [ht] at hr
    exact hr

/-- R99: the running operation gone on with. -/
theorem Inv.after_continueOp (h : Inv s) (hb : s.busy = true) : Inv (continueOp s) := by
  unfold continueOp
  split
  · exact h.after_finishRun hb List.prefix_rfl
  · next m hm =>
    have hc := h.after_complete hm
    split
    · next t ht =>
      rw [ht] at hc
      exact hc
    · next t ht =>
      rw [ht] at hc
      exact hc.after_finishRun ((complete_going_inv ht).1.trans hb) List.prefix_rfl

end Sys2Proof.Machine
end

section
/-! One step of the machine, case by case, and what every step keeps. -/

namespace Sys2Proof.Machine

variable {E : Type}

/-! ### The start of an operation -/

theorem Inv.with_host {s : State.Over E} (h : Inv s) (rest : List HostRequest) : Inv { s with host := rest } :=
  h.with_inputs rest s.transport s.timing s.pix

/-- R106: the program of the running operation is framed, from any latches. -/
theorem writesMet_prog {s : State.Over E} (h : s.cfg.valid = true) (cs dc : Latch) :
    writesMet s.cfg cs dc (prog s) = true := by
  cases ho : s.op with
  | init =>
    rw [prog_init ho]
    exact writesMet_initProg s.cfg cs dc
  | draw =>
    rw [prog_draw ho]
    exact writesMet_drawProg h s.fb cs dc

/-- R73, R135, R144: acceptance of a request. -/
theorem Inv.after_accept {s : State.Over E} (h : Inv s) (hb : s.busy = false) (op : Op) (fb : List Pixel) :
    Inv (accept op fb s) where
  config := by simpa using h.config
  idle := by simp
  initNoError := by simp
  cleanup := by simp
  position := by simp
  outstanding := by simp [(h.idle hb).1]
  answered := by simp
  framed _ _ := by simpa using writesMet_prog (s := accept op fb s) (by simpa using h.config) _ _
  latchCs := by simpa using h.latchCs
  latchDc := by simpa using h.latchDc
  latchRst := by simpa using h.latchRst
  wireDefined := by simpa using h.wireDefined
  memory := by
    cases op with
    | init => rfl
    | draw => exact h.memory
  unclaimed hu := by
    cases op with
    | init => rfl
    | draw => exact h.unclaimed (by simpa [hb] using hu)
  window _ _ _ := by simp [windowSent]
  results := by simp [h.results, hb]

/-- R143: a DRAW of the wrong length is a request and its result. -/
theorem Inv.after_rejectLength {s : State.Over E} (h : Inv s) : Inv (rejectLength s) :=
  { h with
    results := by simp [rejectLength, h.results, Nat.add_right_comm] }

/-! ### One step -/

/-- What each thing fetched says of the state (R73, R99). -/
def Fetched.Guard (s : State.Over E) : Fetched → Prop
  | .nothing => s.busy = false ∧ s.host = []
  | .request i rest => s.busy = false ∧ ∃ r, s.host = r :: rest ∧ decodeRequest r = .ok i
  | .illegal _ => s.busy = false
  | .command i => s.busy = true ∧ s.pending = none ∧ s.ferr = none ∧ currentCommand s = some i
  | .resume => s.busy = true ∧ (s.pending ≠ none ∨ s.ferr ≠ none ∨ currentCommand s = none)

theorem fetch_guard (s : State.Over E) : (fetch s).Guard s := by
  unfold fetch
  split
  · next hb =>
    split
    · next hp hf hi => exact ⟨hb, hp, hf, hi⟩
    · next hi => exact ⟨hb, .inr (.inr hi)⟩
    · next hf => exact ⟨hb, .inr (.inl (by simp [hf]))⟩
    · next hp => exact ⟨hb, .inl (by simp [hp])⟩
  · next hb =>
    have hb : s.busy = false := by simpa using hb
    split
    · next hh => exact ⟨hb, hh⟩
    · next r rest hh =>
      split
      · next i hd => exact ⟨hb, r, hh, hd⟩
      · exact hb

/-- The state in which a step that runs calls begins to run them: the running operation, or the state after
the acceptance of the request. -/
inductive Started (s : State) : State → Prop
  | running (hb : s.busy = true) : Started s s
  | init (r : HostRequest) (rest : List HostRequest) (hb : s.busy = false) (hh : s.host = r :: rest)
      (hr : r.code = 0x01) : Started s (accept .init [] { s with host := rest })
  | draw (r : HostRequest) (rest : List HostRequest) (hb : s.busy = false) (hh : s.host = r :: rest)
      (hr : r.code = 0x02) (hl : r.len = s.cfg.w * s.cfg.h) :
      Started s (accept .draw r.fb { s with host := rest })

/-- Everything a step that answers a next state can be (entry 6). -/
inductive Stepped (s : State) : State → Prop
  /-- R37: the host asks for nothing. -/
  | nothing (hb : s.busy = false) (hh : s.host = []) : Stepped s s
  /-- R143: a DRAW of the wrong length. -/
  | rejected (r : HostRequest) (rest : List HostRequest) (hb : s.busy = false) (hh : s.host = r :: rest)
      (hr : r.code = 0x02) (hl : r.len ≠ s.cfg.w * s.cfg.h) : Stepped s (rejectLength { s with host := rest })
  /-- R135, R144: an operation starts. -/
  | request (u : State) (hu : Started s u) (hb : s.busy = false) : Stepped s (finishRun (runOps (prog u) u))
  /-- R134, R147: a command of the running operation. -/
  | command (i : Instr) (hb : s.busy = true) (hp : s.pending = none) (hf : s.ferr = none)
      (hi : currentCommand s = some i) : Stepped s (runOps (commandOps s.cfg i) s).state
  /-- R99: the running operation goes on. -/
  | resume (hb : s.busy = true) (hr : s.pending ≠ none ∨ s.ferr ≠ none ∨ currentCommand s = none) :
      Stepped s (continueOp s)

/-- R143, R159: a DRAW of the wrong length. -/
theorem exec_draw_rejected {s : State} {fb : List Pixel} {len : Nat} (hb : s.busy = false)
    (hl : len ≠ s.cfg.w * s.cfg.h) : exec (.draw fb len) s = .next (rejectLength s) := by
  simp [exec, execDraw, hb, hl]

/-- R73: the request taken by an idle block. -/
theorem stepped_of_request {s t : State} {r : HostRequest} {rest : List HostRequest} {i : Instr}
    (hb : s.busy = false) (hh : s.host = r :: rest) (hd : decodeRequest r = .ok i)
    (h : exec i { s with host := rest } = .next t) : Stepped s t := by
  unfold decodeRequest at hd
  split at hd
  · next hr =>
    cases hd
    rw [exec_init_eq (s := { s with host := rest }) hb] at h
    cases h
    exact .request _ (.init r rest hb hh hr) hb
  · split at hd
    · next hr =>
      cases hd
      by_cases hl : r.len = s.cfg.w * s.cfg.h
      · rw [exec_draw_eq (s := { s with host := rest }) hb hl] at h
        cases h
        exact .request _ (.draw r rest hb hh hr hl) hb
      · rw [exec_draw_rejected (s := { s with host := rest }) hb hl] at h
        cases h
        exact .rejected r rest hb hh hr hl
    · cases hd

/-- What a step can do, said once. -/
theorem step_cases {s t : State} (h : step s = .next t) : Stepped s t := by
  have hg := fetch_guard s
  unfold step at h
  cases hf : fetch s <;> rw [hf] at h hg
  case nothing =>
    obtain ⟨hb, hh⟩ := hg
    cases h
    exact .nothing hb hh
  case request i rest =>
    obtain ⟨hb, r, hh, hd⟩ := hg
    exact stepped_of_request hb hh hd h
  case illegal => cases h
  case command i =>
    obtain ⟨hb, hp, hn, hi⟩ := hg
    obtain ⟨-, hinit, hdraw⟩ := currentCommand_prog hi
    obtain ⟨-, -, rfl⟩ := exec_command_inv h hinit hdraw
    exact .command i hb hp hn hi
  case resume =>
    obtain ⟨hb, hr⟩ := hg
    cases h
    exact .resume hb hr

/-- The start of a run leaves the configuration, the trace and the controller's status; it sets `pix` to 0 or
leaves it (R36). -/
theorem Started.frame {s u : State} (h : Started s u) :
    u.busy = true ∧ u.cfg = s.cfg ∧ u.trace = s.trace ∧ u.ctrl = s.ctrl ∧
      (u.pix = s.pix ∨ s.busy = false ∧ u.pix = 0) := by
  cases h with
  | running hb => exact ⟨hb, rfl, rfl, rfl, .inl rfl⟩
  | init => exact ⟨rfl, rfl, rfl, rfl, .inl rfl⟩
  | draw r rest hb => exact ⟨rfl, rfl, rfl, rfl, .inr ⟨hb, rfl⟩⟩

/-- R135, R144: an operation starts at index 0. -/
theorem Started.upc_zero {s u : State} (h : Started s u) (hb : s.busy = false) : u.upc = 0 := by
  cases h with
  | running hb' => simp [hb] at hb'
  | init | draw => rfl

/-- A run of INIT: it was running, or the host asks for it (code 0x01). -/
theorem Started.of_init {s u : State} (h : Started s u) (ho : u.op = .init) :
    (s.busy = true ∧ s.op = .init) ∨ (s.busy = false ∧ ∃ r rest, s.host = r :: rest ∧ r.code = 0x01) := by
  cases h with
  | running hb => exact .inl ⟨hb, ho⟩
  | init r rest hb hh hr => exact .inr ⟨hb, r, rest, hh, hr⟩
  | draw => cases ho

/-- A step that is no wait and no rejection runs calls inside one operation. -/
theorem Stepped.within {s t : State} (h : Stepped s t) :
    t = s ∨ (s.busy = false ∧ ∃ rest, t = rejectLength { s with host := rest }) ∨
      ∃ u, Started s u ∧ Within u t := by
  cases h with
  | nothing => exact .inl rfl
  | rejected r rest hb => exact .inr (.inl ⟨hb, rest, rfl⟩)
  | request u hu => exact .inr (.inr ⟨u, hu, within_finishRun hu.frame.1⟩)
  | command i hb => exact .inr (.inr ⟨s, .running hb, (within_runOps hb).1⟩)
  | resume hb => exact .inr (.inr ⟨s, .running hb, within_continueOp hb⟩)

theorem Inv.of_started {s u : State} (h : Inv s) (hu : Started s u) : Inv u := by
  cases hu with
  | running => exact h
  | init r rest hb => exact (h.with_host rest).after_accept hb .init []
  | draw r rest hb => exact (h.with_host rest).after_accept hb .draw r.fb

/-- R38: every step keeps the invariant. -/
theorem Inv.after_step {s t : State} (h : Inv s) (ht : Stepped s t) : Inv t := by
  cases ht with
  | nothing => exact h
  | rejected r rest => exact (h.with_host rest).after_rejectLength
  | request u hu hb => exact (h.of_started hu).after_finishRun hu.frame.1 (by simp [hu.upc_zero hb])
  | command i hb hp hf hi => exact h.after_runOps hb (currentCommand_prog hi).1
  | resume hb => exact h.after_continueOp hb

end Sys2Proof.Machine
end

section
/-! The six line sets (R90 to R95), and a DRAW that fails before its last release (R150, R165). -/

namespace Sys2Proof.Machine

variable {E : Type}

/-- R14: a level that is not the other one is its opposite. -/
theorem eq_invert_of_ne {a b : Level} (h : a ≠ b) : a = invert b := by
  cases a <;> cases b <;> simp_all [invert]

/-- R90 to R95: the line and the level of each of the six sets. -/
theorem callOf_lineSet {c : Cfg} {m : MicroOp} {line : Line} {level : Level}
    (h : (m = .csA ∧ line = .cs ∧ level = c.csAssert) ∨ (m = .csR ∧ line = .cs ∧ level ≠ c.csAssert) ∨
      (m = .dcC ∧ line = .dc ∧ level = c.dcCmd) ∨ (m = .dcD ∧ line = .dc ∧ level ≠ c.dcCmd) ∨
      (m = .rstA ∧ line = .rst ∧ level = c.rstActive) ∨ (m = .rstR ∧ line = .rst ∧ level ≠ c.rstActive)) :
    callOf c m = .sigSet line level := by
  rcases h with ⟨rfl, rfl, hl⟩ | ⟨rfl, rfl, hl⟩ | ⟨rfl, rfl, hl⟩ | ⟨rfl, rfl, hl⟩ | ⟨rfl, rfl, hl⟩ | ⟨rfl, rfl, hl⟩
  · simp [callOf, hl]
  · simp [callOf, eq_invert_of_ne hl]
  · simp [callOf, hl]
  · simp [callOf, eq_invert_of_ne hl]
  · simp [callOf, hl]
  · simp [callOf, eq_invert_of_ne hl]

/-- Where every call can fail, none is a delay (R109). -/
theorem fallibleCount_of_fallible {ops : List MicroOp} (h : ∀ m ∈ ops, fallible m = true) :
    fallibleCount ops = ops.length ∧ waitCount ops = 0 :=
  ⟨List.countP_eq_length.2 h, List.countP_eq_zero.2 (by simpa using h)⟩

/-- R170: with no reply left a set or a write stays outstanding. -/
theorem answer_unanswered {m : MicroOp} {s : State.Over E} (hf : fallible m = true) (h : s.transport = []) :
    answer m s = .waiting s := by
  simp [answer, hf, answerTransport, h]

/-- R150, R163, R165: a DRAW whose first error comes before the last release stops there and issues that
release. -/
theorem runOps_draw_fault {s : State.Over E} {pre post : List MicroOp} {m : MicroOp} {e : E} {n : Nat}
    {rs : List (Reply E)} (hb : s.busy = true) (ho : s.op = .draw) (hf : s.ferr = none)
    (hu : s.upc + pre.length < 17) (hpre : AllAnswered pre s) (hm : fallible m = true)
    (hr : (okRun pre s).transport = .err e n :: rs) :
    runOps (pre ++ m :: post) s = .stopped (completeCleanup e .csR (issue .csR
      { windowLost (effectErr m e n { issue m (okRun pre s) with transport := rs }) with
        ferr := some e, upc := 17 })) := by
  have hc := cleaning_no_error hf
  have ha : answer m (issue m (okRun pre s)) =
      .err e (effectErr m e n { issue m (okRun pre s) with transport := rs }) := answer_err hm hr
  simp only [runOps_prefix hc hpre, runOps, call, complete, cleaning_issue, cleaning_okRun, hc, ha]
  rw [afterFault_draw (by simpa using ho) (by simpa using hb) (by simpa using hu)]

end Sys2Proof.Machine
end

section
/-! The obligations of the state and its invariant (10_state.md). -/

open Sys2Proof Sys2Proof.Machine

/-- Settles O11: a step is the start of an operation, a command the program goes on with, or the rest of the
program, and every call of a run keeps the invariant. -/
theorem stepKeepsInvariant : Obligations.StepKeepsInvariant :=
  fun _ _ h ht => h.after_step (step_cases ht)

/-- Settles O12: ISSUE, the three answers and FINISH, one by one. -/
theorem executorStepKeepsInvariant : Obligations.ExecutorStepKeepsInvariant := by
  intro s t h ht
  have hs := h.after_executorStep
  rcases ht with ht | ht <;> (rw [ht] at hs; exact hs)

/-- Settles O13: inside an operation by `Within`; a start or a rejection adds no event. -/
theorem stepKeepsConfigurationAndTrace : Obligations.StepKeepsConfigurationAndTrace := by
  intro s t h
  rcases (step_cases h).within with rfl | ⟨-, rest, rfl⟩ | ⟨u, hu, hw⟩
  · exact ⟨rfl, List.prefix_rfl⟩
  · exact ⟨rfl, List.prefix_rfl⟩
  · obtain ⟨-, hcfg, htrace, -, -⟩ := hu.frame
    exact ⟨hw.cfg.trans hcfg, htrace ▸ hw.trace⟩

/-- Settles O14: inside an operation `ctrl` can change only at its end, and in a DRAW not at all. -/
theorem controllerStatusMovesOnlyAtInitEnd : Obligations.ControllerStatusMovesOnlyAtInitEnd := by
  intro s t h hne
  rcases (step_cases h).within with rfl | ⟨-, rest, rfl⟩ | ⟨u, hu, hw⟩
  · exact absurd rfl hne
  · exact absurd rfl hne
  · obtain ⟨-, -, -, hctrl, -⟩ := hu.frame
    rw [← hctrl] at hne
    have hop : u.op = .init := by
      cases ho : u.op with
      | init => rfl
      | draw => exact absurd (hw.inDraw ho) hne
    have hidle : t.busy = false := by
      cases hb : t.busy with
      | false => rfl
      | true => exact absurd (hw.going hb).1 hne
    refine ⟨hu.of_init hop, hidle, ?_⟩
    obtain ⟨-, r, hlog, hinit, -⟩ := hw.ended hidle
    rcases (hinit hop).2 with ⟨rfl, hready⟩ | ⟨e, rfl, hind, -⟩
    · exact .inl ⟨hready, by simp [hlog]⟩
    · exact .inr ⟨hind, e, by simp [hlog]⟩

/-- Settles O15: by `Within` from the state where the run starts; only the start of a DRAW sets `pix` back. -/
theorem pixelIndexCountsUp : Obligations.PixelIndexCountsUp := by
  intro s t h hpix
  rcases (step_cases h).within with rfl | ⟨hb, rest, rfl⟩ | ⟨u, hu, hw⟩
  · exact ⟨hpix, fun _ => Nat.le_refl _⟩
  · exact ⟨hpix, fun _ => Nat.le_refl _⟩
  · obtain ⟨-, hcfg, -, -, hstart⟩ := hu.frame
    rw [hw.cfg, hcfg]
    rcases hstart with hsame | ⟨hb, hzero⟩
    · obtain ⟨hle, hmax⟩ := hw.pix (by rw [hcfg, hsame]; exact hpix)
      rw [hcfg] at hmax
      exact ⟨hmax, fun _ => hsame ▸ hle⟩
    · obtain ⟨-, hmax⟩ := hw.pix (by rw [hzero]; exact Nat.zero_le _)
      rw [hcfg] at hmax
      exact ⟨hmax, fun hb' => by simp [hb] at hb'⟩

/-- Settles O2: a construction that answers is the constructed state of a valid configuration. -/
theorem constructedStateIsIdle : Obligations.ConstructedStateIsIdle := by
  intro c t h
  by_cases hv : c.valid = true
  · rw [construct_of_valid hv] at h
    cases h
    exact ⟨rfl, rfl, rfl, rfl, rfl, rfl, rfl, rfl, rfl, hv, fun _ => rfl⟩
  · simp [construct, hv] at h

/-- Settles O8: each of the six sets is the call of its line and level, and an answered call writes what its
event says. -/
theorem lineSetWritesItsLatch : Obligations.LineSetWritesItsLatch := by
  intro s m line level e n h
  have hcall := callOf_lineSet h
  have hok : (okEvent s.cfg m : Event BusError) = .set line level .ok := by simp [okEvent, hcall]
  have herr : errEvent s.cfg e m = .set line level (.err e) := by simp [errEvent, hcall]
  simp only [effectOk_latch, effectErr_latch, effectOk_trace, effectErr_trace, hok, herr]
  refine ⟨by simp [latchOf, latchAfter], by simp [latchOf, latchAfter], trivial, trivial, fun l hl => ?_⟩
  simp [latchOf, hl.symm]

/-- Settles O40: the calls before the failing one are answered, the fault puts the sequencer at index 17, and
the release issued there finds no reply left. -/
theorem drawCleanupWaitsWithFirstError : Obligations.DrawCleanupWaitsWithFirstError := by
  intro s fb len pre post m e n hb hlen hprog hpost hreplies
  have hall : ∀ m' ∈ pre ++ m :: post, fallible m' = true := by
    rw [← hprog]
    exact fun _ => drawProg_fallible
  obtain ⟨hcount, hwait⟩ := fallibleCount_of_fallible fun m' hm' => hall m' (List.mem_append_left _ hm')
  have hpre : AllAnswered pre (accept .draw fb s) := by
    simp [AllAnswered, hcount, hwait, hreplies]
  have hlast : (okRun pre (accept .draw fb s)).transport = [.err e n] := by
    simp [okRun_transport, hcount, hreplies]
  have hupc : pre.length < 17 := by
    have htotal := congrArg List.length hprog
    have := List.length_pos_iff.2 hpost
    simp only [drawProg_length, List.length_append, List.length_cons] at htotal
    omega
  rw [exec_draw_eq hb hlen, hprog, runOps_draw_fault (by simp) (by simp) (by simp) (by simpa using hupc) hpre
    (hall m (by simp)) hlast, finishRun, completeCleanup, answer_unanswered rfl (by simp)]
  exact ⟨_, rfl, by simp⟩
end

section
/-! The framebuffer's indexing and the cells its pixels belong at (R42, R52). -/

namespace Sys2Proof.Machine

variable {c : Cfg} {x y i : Nat}

/-- R42: the index of a pixel is one of the framebuffer's. -/
theorem fbIndex_lt (hx : x < c.w) (hy : y < c.h) : fbIndex c x y < c.w * c.h :=
  calc y * c.w + x < (y + 1) * c.w := by rw [Nat.succ_mul]; omega
    _ ≤ c.h * c.w := Nat.mul_le_mul_right _ hy
    _ = c.w * c.h := Nat.mul_comm ..

@[simp] theorem fbColumn_fbIndex (hx : x < c.w) : fbColumn c (fbIndex c x y) = x := by
  rw [fbColumn, fbIndex, Nat.mul_add_mod_self_right, Nat.mod_eq_of_lt hx]

@[simp] theorem fbRow_fbIndex (hx : x < c.w) : fbRow c (fbIndex c x y) = y := by
  rw [fbRow, fbIndex, Nat.add_comm, Nat.add_mul_div_right _ _ (by omega), Nat.div_eq_of_lt hx, Nat.zero_add]

theorem fbColumn_lt (hi : i < c.w * c.h) : fbColumn c i < c.w :=
  Nat.mod_lt _ (Nat.pos_of_mul_pos_right (Nat.zero_lt_of_lt hi))

theorem fbRow_lt (hi : i < c.w * c.h) : fbRow c i < c.h := Nat.div_lt_of_lt_mul hi

theorem fbIndex_fbColumn_fbRow (c : Cfg) (i : Nat) : fbIndex c (fbColumn c i) (fbRow c i) = i :=
  Nat.div_add_mod' i c.w

/-- R42: the next pixel of a row. -/
theorem fbColumn_succ (h : fbColumn c i + 1 < c.w) :
    fbColumn c (i + 1) = fbColumn c i + 1 ∧ fbRow c (i + 1) = fbRow c i := by
  have hi : i + 1 = fbIndex c (fbColumn c i + 1) (fbRow c i) := by
    have := fbIndex_fbColumn_fbRow c i
    unfold fbIndex at *
    omega
  rw [hi]
  exact ⟨fbColumn_fbIndex h, fbRow_fbIndex h⟩

/-- R42: after the last pixel of a row comes the first of the next. -/
theorem fbColumn_succ_last (h : fbColumn c i + 1 = c.w) :
    fbColumn c (i + 1) = 0 ∧ fbRow c (i + 1) = fbRow c i + 1 := by
  have hi : i + 1 = fbIndex c 0 (fbRow c i + 1) := by
    have := fbIndex_fbColumn_fbRow c i
    unfold fbIndex at *
    rw [Nat.succ_mul]
    omega
  rw [hi]
  exact ⟨fbColumn_fbIndex (by omega), fbRow_fbIndex (by omega)⟩

/-! R52, R115: where a pixel belongs, and that it is inside the native area and the window. -/

theorem physColumn_lt (hv : c.valid = true) (hx : x < c.w) : physColumn c x < Cfg.pw := by
  obtain ⟨-, -, -, -, -, hcol⟩ := valid_bounds hv
  simp only [physColumn, Cfg.pw]
  omega

theorem physRow_lt (hv : c.valid = true) (hy : y < c.h) : physRow c y < Cfg.ph := by
  obtain ⟨-, -, -, -, hrow, -⟩ := valid_bounds hv
  simp only [physRow, Cfg.ph]
  omega

/-- R51: the column and the row of a cell, from its key. -/
theorem pmKey_mod {col : Nat} (row : Nat) (h : col < Cfg.pw) : pmKey col row % Cfg.pw = col := by
  rw [pmKey, Nat.mul_add_mod_self_right, Nat.mod_eq_of_lt h]

theorem pmKey_div {col : Nat} (row : Nat) (h : col < Cfg.pw) : pmKey col row / Cfg.pw = row := by
  rw [pmKey, Nat.add_comm, Nat.add_mul_div_right _ _ (Nat.zero_lt_of_lt h), Nat.div_eq_of_lt h, Nat.zero_add]

theorem inWindow_physCell (hv : c.valid = true) (hx : x < c.w) (hy : y < c.h) :
    inWindow c (pmKey (physColumn c x) (physRow c y)) = true := by
  have hcol := physColumn_lt hv hx
  simp only [inWindow, pmKey_mod _ hcol, pmKey_div _ hcol, Bool.and_eq_true, decide_eq_true_eq]
  unfold physColumn physRow
  omega

/-- R52: the cell of PM the pixel at an index belongs at. -/
def pixelCell (c : Cfg) (i : Nat) : Nat := pmKey (physColumn c (fbColumn c i)) (physRow c (fbRow c i))

theorem pixelCell_fbIndex (hx : x < c.w) : pixelCell c (fbIndex c x y) = pmKey (c.cOff + x) (c.rOff + y) := by
  simp [pixelCell, hx, physColumn, physRow, Nat.add_comm]

theorem inWindow_pixelCell (hv : c.valid = true) (hi : i < c.w * c.h) : inWindow c (pixelCell c i) = true :=
  inWindow_physCell hv (fbColumn_lt hi) (fbRow_lt hi)

/-- R52: two pixels do not share a cell. -/
theorem pixelCell_injective (hv : c.valid = true) {j : Nat} (hi : i < c.w * c.h) (hj : j < c.w * c.h)
    (h : pixelCell c i = pixelCell c j) : i = j := by
  have hci := physColumn_lt hv (fbColumn_lt hi)
  have hcj := physColumn_lt hv (fbColumn_lt hj)
  have hcol : physColumn c (fbColumn c i) = physColumn c (fbColumn c j) :=
    (pmKey_mod _ hci).symm.trans ((congrArg (· % Cfg.pw) h).trans (pmKey_mod _ hcj))
  have hrow : physRow c (fbRow c i) = physRow c (fbRow c j) :=
    (pmKey_div _ hci).symm.trans ((congrArg (· / Cfg.pw) h).trans (pmKey_div _ hcj))
  rw [← fbIndex_fbColumn_fbRow c i, Nat.add_right_cancel hcol, Nat.add_right_cancel hrow,
    fbIndex_fbColumn_fbRow]

end Sys2Proof.Machine
end

section
/-! The payload at the sink (R56, R146): the write pointer goes through the window, pixel by pixel. -/

namespace Sys2Proof.Machine

variable {c : Cfg} {k : Controller} {i : Nat}

/-- R56, R117: the sink receives pixels, its window holds the columns of the full window, and its pointer is at
the cell of pixel `i`. -/
structure PointerAt (c : Cfg) (i : Nat) (k : Controller) : Prop where
  mode : k.mode = .pixels
  args : k.args = []
  xs : k.xs.toNat = c.cOff
  xe : k.xe.toNat = c.cOff + c.w - 1
  col : k.col.toNat = physColumn c (fbColumn c i)
  row : k.row.toNat = physRow c (fbRow c i)

/-- R114, R117: after RAMWR the pointer is at the first pixel's cell. -/
theorem windowSent.pointerAt (h : windowSent c payloadIndex k) : PointerAt c 0 k := by
  obtain ⟨-, hx, -, hy, hpix⟩ := h
  simp only [payloadIndex] at hx hy hpix
  obtain ⟨hm, ha, hcol, hrow⟩ := hpix (by omega)
  obtain ⟨hxs, hxe⟩ := hx (by omega)
  obtain ⟨hys, -⟩ := hy (by omega)
  exact ⟨hm, ha, hxs, hxe, by simp [hcol, hxs, physColumn, fbColumn], by simp [hrow, hys, physRow, fbRow]⟩

theorem PointerAt.key (h : PointerAt c i k) : pmKey k.col.toNat k.row.toNat = pixelCell c i := by
  rw [h.col, h.row, pixelCell]

/-- A register below its last value counts up by one. -/
theorem toNat_add_one {b : Bound} (h : b.toNat < Cfg.ph) : (b + 1).toNat = b.toNat + 1 := by
  have : b.toNat < 320 := h
  bv_omega

/-- R56: the pointer after a pixel, while it is inside the native area. -/
theorem PointerAt.after_advancePointer (h : PointerAt c i k) (hv : c.valid = true) (hi : i < c.w * c.h) :
    PointerAt c (i + 1) (advancePointer k) := by
  have hcol := fbColumn_lt hi
  have hcolLt := physColumn_lt hv hcol
  have hrowLt := physRow_lt hv (fbRow_lt hi)
  unfold advancePointer
  split
  · next hlast =>
    have hw : fbColumn c i + 1 = c.w := by
      have hxe := h.xe
      rw [← hlast, h.col, physColumn] at hxe
      omega
    obtain ⟨hc, hr⟩ := fbColumn_succ_last hw
    exact { h with
      col := by simp [hc, h.xs, physColumn]
      row := by
        have hnext := toNat_add_one (h.row ▸ hrowLt)
        rwa [h.row, physRow, Nat.add_right_comm, ← hr] at hnext }
  · next hne =>
    have hw : fbColumn c i + 1 < c.w := by
      have hne' : k.col.toNat ≠ k.xe.toNat := fun he => hne (BitVec.eq_of_toNat_eq he)
      rw [h.col, h.xe, physColumn] at hne'
      omega
    obtain ⟨hc, hr⟩ := fbColumn_succ hw
    exact { h with
      col := by
        have hnext := toNat_add_one (h.col ▸ hcolLt.trans (by decide))
        rwa [h.col, physColumn, Nat.add_right_comm, ← hc] at hnext
      row := by rw [hr]; exact h.row }

/-- R56: storing a pixel moves the pointer to the next pixel's cell. -/
theorem PointerAt.after_storePixel (h : PointerAt c i k) (hv : c.valid = true) (hi : i < c.w * c.h) (p : Pixel) :
    PointerAt c (i + 1) (storePixel p k) := by
  unfold storePixel
  split
  · have hk : PointerAt c i { k with pm := pmWrite k.pm (pmKey k.col.toNat k.row.toNat) p } := { h with }
    exact hk.after_advancePointer hv hi
  · exact h.after_advancePointer hv hi

/-- R45, R56: the two bytes of a pixel store it at the pointer. -/
theorem PointerAt.sinkBytes_be16 (h : PointerAt c i k) (n : Nat) (p : Pixel) :
    sinkBytes c n .d (be16 p) k = storePixel p k := by
  have hk : { k with args := [] } = k := by rw [← h.args]
  rw [sinkBytes_pixel c n p h.mode h.args, hk]

/-- R56: a payload, delivered whole or in part, writes no cell but those of its pixels. -/
theorem PointerAt.pmRead_other {ps : List Pixel} (h : PointerAt c i k) (hv : c.valid = true)
    (hi : i + ps.length ≤ c.w * c.h) (n sent : Nat) {q : Nat}
    (hq : ∀ j, i ≤ j → j < i + ps.length → q ≠ pixelCell c j) :
    pmRead (sinkBytes c n .d ((ps.flatMap be16).take sent) k).pm q = pmRead k.pm q := by
  induction ps generalizing i k sent with
  | nil => simp [sinkBytes]
  | cons p ps ih =>
    rw [List.length_cons] at hi hq
    match sent with
    | 0 => rfl
    | 1 => simp [be16, sinkBytes, sinkByte, sinkData, h.mode, h.args]
    | sent + 2 =>
      have hsplit : ((p :: ps).flatMap be16).take (sent + 2) = be16 p ++ (ps.flatMap be16).take sent := by
        simp [be16]
      have hne : q ≠ pmKey k.col.toNat k.row.toNat := h.key ▸ hq i (by omega) (by omega)
      rw [hsplit, sinkBytes_append, h.sinkBytes_be16,
        ih (h.after_storePixel hv (by omega) p) (by omega) _ fun j h1 h2 => hq j (by omega) (by omega),
        pmRead_storePixel p k hne]

/-- R56, R57: a payload delivered whole leaves each of its pixels in its cell. -/
theorem PointerAt.pmRead_pixel {ps : List Pixel} (h : PointerAt c i k) (hv : c.valid = true)
    (hi : i + ps.length ≤ c.w * c.h) (n : Nat) {j : Nat} (hj : j < ps.length) :
    pmRead (sinkBytes c n .d (ps.flatMap be16) k).pm (pixelCell c (i + j)) = some ps[j] := by
  induction ps generalizing i k j with
  | nil => simp at hj
  | cons p ps ih =>
    rw [List.length_cons] at hi hj
    have hnext := h.after_storePixel hv (by omega) p
    rw [List.flatMap_cons, sinkBytes_append, h.sinkBytes_be16]
    cases j with
    | zero =>
      have hother := hnext.pmRead_other (ps := ps) hv (by omega) n (ps.flatMap be16).length
        (q := pixelCell c i) fun j h1 h2 he => by
          have := pixelCell_injective hv (by omega) (by omega) he
          omega
      rw [List.take_length] at hother
      rw [Nat.add_zero, hother, ← h.key]
      exact pmRead_storePixel_same p (h.col ▸ physColumn_lt hv (fbColumn_lt (by omega)))
        (h.row ▸ physRow_lt hv (fbRow_lt (by omega)))
    | succ j =>
      rw [← Nat.add_assoc, Nat.add_right_comm, ih hnext (by omega) (by omega)]
      rfl

/-- R146: the payload is the bytes of `W*H` pixels. -/
theorem pixBytes_eq (c : Cfg) (fb : List Pixel) :
    pixBytes c fb = ((List.range (c.w * c.h)).map (fbRead fb)).flatMap be16 := by
  simp [pixBytes, List.flatMap_map]

/-- R56: a write of DRAW, delivered whole or in part, changes no cell outside the window. -/
theorem pmRead_drawWrite_outside {u : Nat} {fb : List Pixel} {tag : Tag} {bytes : List Byte}
    (hv : c.valid = true) (h : windowSent c u k) (hw : (u, tag, bytes) ∈ drawWrites c fb) (n sent : Nat)
    {q : Nat} (hq : inWindow c q = false) :
    pmRead (sinkBytes c n tag (bytes.take sent) k).pm q = pmRead k.pm q := by
  have ⟨hcol, _, hrow, _, _⟩ := h
  simp only [drawWrites, List.mem_cons, Prod.mk.injEq, List.not_mem_nil, or_false] at hw
  rcases hw with ⟨rfl, rfl, rfl⟩ | ⟨rfl, rfl, rfl⟩ | ⟨rfl, rfl, rfl⟩ | ⟨rfl, rfl, rfl⟩ | ⟨rfl, rfl, rfl⟩ |
    ⟨rfl, rfl, rfl⟩
  · rw [pm_sinkBytes_command]
  · obtain ⟨hm, ha⟩ := hcol (by omega)
    rw [pm_sinkBytes_bounds c n (.inl hm) ha]
  · rw [pm_sinkBytes_command]
  · obtain ⟨hm, ha⟩ := hrow (by omega)
    rw [pm_sinkBytes_bounds c n (.inr hm) ha]
  · rw [pm_sinkBytes_command]
  · rw [pixBytes_eq]
    refine h.pointerAt.pmRead_other hv (by simp) n sent fun j _ hj he => ?_
    rw [he, inWindow_pixelCell hv (by simpa using hj)] at hq
    cases hq

end Sys2Proof.Machine
end

section
/-! A DRAW whose sink the spec gives, up to its first error and through its clean-up: what no call of it changes
(R57, R53, K10). -/

namespace Sys2Proof.Machine

variable {E : Type} {s t u : State.Over E} {m : MicroOp}

/-- R53, R57: every cell outside the window of `s` reads in `t` as in `s`. -/
def KeepsOutside (s t : State.Over E) : Prop :=
  ∀ k, inWindow s.cfg k = false → pmRead t.ctl.pm k = pmRead s.ctl.pm k

theorem KeepsOutside.of_pm_eq (h : t.ctl.pm = s.ctl.pm) : KeepsOutside s t := fun _ _ => by rw [h]

theorem KeepsOutside.trans (h : KeepsOutside s t) (hc : t.cfg = s.cfg) (h' : KeepsOutside t u) :
    KeepsOutside s u := fun k hk => (h' k (hc ▸ hk)).trans (h k hk)

/-- K10: what a failed DRAW loses is in the window. -/
theorem keepsOutside_windowLost (s : State.Over E) : KeepsOutside s (windowLost s) := fun k hk =>
  pmRead_filter_keep s.ctl.pm (fun k => !inWindow s.cfg k) (by simp [hk])

/-! ### The calls before the first error -/

/-- What holds between two calls of a DRAW whose sink is given and whose calls so far were answered `Ok`: the
latches are those its calls left, from whatever they held before it, and the window is as far as `upc` says. -/
structure DrawFollowed (s : State.Over E) : Prop where
  config : s.cfg.valid = true
  known : controllerKnown s = true
  latches : ∃ before : Line → Latch, ∀ l,
    readLine s l = latchOf l (before l) (((drawProg s.cfg s.fb).take s.upc).map (okEvent (E := E) s.cfg))
  window : windowSent s.cfg s.upc s.ctl

theorem DrawFollowed.sink_runs (h : DrawFollowed s) : sinkRuns s = true := (controllerKnown_iff.1 h.known).1

theorem DrawFollowed.sink_given (h : DrawFollowed s) : sinkGiven s.cfg = true := (controllerKnown_iff.1 h.known).2

theorem op_of_controllerKnown (h : controllerKnown s = true) : s.op = .draw := by
  by_contra ho
  simp [controllerKnown, ho] at h

/-- R58: the first two calls of DRAW set both latches of a write, whatever they held before. -/
theorem latchOf_drawProg_take {c : Cfg} (fb : List Pixel) {n : Nat} (hn : 2 ≤ n) {l : Line} (hl : l ≠ .rst)
    (v : Latch) :
    latchOf l v (((drawProg c fb).take n).map (okEvent (E := E) c)) =
      latchOf l .u (((drawProg c fb).take n).map (okEvent (E := E) c)) := by
  obtain ⟨n, rfl⟩ := Nat.exists_eq_add_of_le' hn
  rw [drawProg_eq]
  cases l with
  | cs | dc => simp [okEvent, callOf, latchOf]
  | rst => exact absurd rfl hl

/-- R63: a write has the tag its place in DRAW_PROG gives it. -/
theorem DrawFollowed.tag (h : DrawFollowed s) {tag : Tag} {bytes : List Byte}
    (hw : (s.upc, tag, bytes) ∈ drawWrites s.cfg s.fb) : tagOf s.cfg s.cs s.dc = some tag := by
  obtain ⟨before, hl⟩ := h.latches
  have hu : 2 ≤ s.upc := by
    simp [drawWrites] at hw
    omega
  have hcs := (hl .cs).trans (latchOf_drawProg_take s.fb hu (by decide) _)
  have hdc := (hl .dc).trans (latchOf_drawProg_take s.fb hu (by decide) _)
  have htag := tagOf_drawWrite (E := E) hw []
  rwa [List.nil_append, ← hcs, ← hdc] at htag

/-- R56, D2: the default scan order and three different opcodes are what the sink model asks for. -/
theorem sinkGiven_of_opcodes {c : Cfg} (hscan : c.madctlParam = 0x00) (hcr : c.opCaset ≠ c.opRaset)
    (hcw : c.opCaset ≠ c.opRamwr) (hrw : c.opRaset ≠ c.opRamwr) : sinkGiven c = true :=
  sinkGiven_iff.2 ⟨decide_eq_true hscan, hcr, hcw, hrw⟩

/-- R144: a DRAW just accepted. -/
theorem drawFollowed_accept (hv : s.cfg.valid = true) (hr : s.ctrl = .ready) (hg : sinkGiven s.cfg = true)
    (fb : List Pixel) : DrawFollowed (accept .draw fb s) where
  config := by simpa using hv
  known := by simp [controllerKnown, hr, hg]
  latches := ⟨readLine s, fun l => by cases l <;> simp [readLine, latchOf]⟩
  window := by simp [windowSent]

/-- The invariant says it of a running DRAW. -/
theorem Inv.drawFollowed (h : Inv s) (hb : s.busy = true) (hf : s.ferr = none) (hk : controllerKnown s = true) :
    DrawFollowed s where
  config := h.config
  known := hk
  latches := by
    obtain ⟨older, htrace⟩ := h.answered hb hf
    rw [prog_draw (op_of_controllerKnown hk)] at htrace
    refine ⟨fun l => latchOf l .u older, fun l => ?_⟩
    rw [← latchOf_append, htrace, h.recorded.latch l]
  window := h.window hb hk hf

/-- Neither the call issued nor what the transport will answer matters to it. -/
theorem DrawFollowed.with_pending (h : DrawFollowed s) (p : Option MicroOp) (rs : List (Reply E)) :
    DrawFollowed { s with pending := p, transport := rs } := { h with }

theorem okCall_ctl_set {line : Line} {level : Level} (hm : callOf s.cfg m = .sigSet line level)
    (hr : sinkRuns s = true) : (okCall m s).ctl = s.ctl := by
  simpa [okCall] using (effectOk_set (s := takeReply m (issue m s)) (by simpa using hm)
    (by rwa [sinkRuns_congr (s := s) (by simp) (by simp) (by simp)])).1

theorem okCall_ctl_write {bytes : List Byte} {tag : Tag} (hr : sinkRuns s = true)
    (ht : tagOf s.cfg s.cs s.dc = some tag) :
    (okCall (.wr bytes) s).ctl = claimedPm s.cfg (sinkBytes s.cfg s.fresh tag bytes s.ctl) := by
  simpa [okCall] using (effectOk_write (s := takeReply (.wr bytes) (issue (.wr bytes) s))
    (by rwa [sinkRuns_congr (s := s) (by simp) (by simp) (by simp)]) (by simpa using ht)).1

/-- R18, R99: one more call of the DRAW answered `Ok`. -/
theorem DrawFollowed.after_okCall (h : DrawFollowed s) (hm : (drawProg s.cfg s.fb)[s.upc]? = some m) :
    DrawFollowed (okCall m s) ∧ KeepsOutside s (okCall m s) := by
  have hctl : windowSent s.cfg (s.upc + 1) (okCall m s).ctl ∧ KeepsOutside s (okCall m s) := by
    rcases drawProg_call hm with ⟨hu, line, level, hset⟩ | ⟨tag, bytes, rfl, hw⟩
    · have hkeep := okCall_ctl_set hset h.sink_runs
      exact ⟨hkeep ▸ windowSent_set h.window hu, .of_pm_eq (by rw [hkeep])⟩
    · have hsent := okCall_ctl_write (bytes := bytes) h.sink_runs (h.tag hw)
      rw [claimedPm_given h.sink_given] at hsent
      refine ⟨hsent ▸ windowSent_write h.config h.sink_given h.window hw s.fresh, fun k hk => ?_⟩
      have hout := pmRead_drawWrite_outside h.config h.window hw s.fresh bytes.length hk
      rwa [List.take_length, ← hsent] at hout
  refine ⟨⟨by simpa using h.config, ?_, ?_, by simpa using hctl.1⟩, hctl.2⟩
  · rw [controllerKnown_congr (s := s) (by simp) (by simp) (by simp), h.known]
  · obtain ⟨before, hl⟩ := h.latches
    refine ⟨before, fun l => ?_⟩
    rw [readLine_okCall, hl, ← latchOf_append, okCall_cfg, okCall_fb, okCall_upc, List.take_add_one, hm]
    simp

/-- R18: a list of its calls answered. -/
theorem DrawFollowed.after_okRun {ops : List MicroOp} (h : DrawFollowed s)
    (hops : ops <+: (drawProg s.cfg s.fb).drop s.upc) :
    DrawFollowed (okRun ops s) ∧ KeepsOutside s (okRun ops s) := by
  induction ops generalizing s with
  | nil => exact ⟨h, .of_pm_eq rfl⟩
  | cons m ms ih =>
    obtain ⟨rest, hrest⟩ := hops
    have hm : (drawProg s.cfg s.fb)[s.upc]? = some m := by
      rw [← List.head?_drop, ← hrest]
      rfl
    obtain ⟨hcall, hkeep⟩ := h.after_okCall hm
    have hleft : ms <+: (drawProg (okCall m s).cfg (okCall m s).fb).drop (okCall m s).upc := by
      refine ⟨rest, ?_⟩
      rw [okCall_cfg, okCall_fb, okCall_upc, ← List.drop_drop, ← hrest]
      rfl
    obtain ⟨hrun, hkeep'⟩ := ih hcall hleft
    exact ⟨hrun, hkeep.trans (by simp) hkeep'⟩

/-! ### The first error and the clean-up -/

/-- R39: a call that fails delivers at most what it would have delivered. -/
theorem DrawFollowed.keepsOutside_effectErr (h : DrawFollowed s)
    (hm : (drawProg s.cfg s.fb)[s.upc]? = some m) (e : E) (n : Nat) : KeepsOutside s (effectErr m e n s) := by
  rcases drawProg_call hm with ⟨-, line, level, hset⟩ | ⟨tag, bytes, rfl, hw⟩
  · exact .of_pm_eq (effectErr_set_pm hset h.sink_runs)
  · intro k hk
    rw [effectErr_write_pm h.sink_runs (h.tag hw), claimedPm_given h.sink_given]
    exact pmRead_drawWrite_outside h.config h.window hw s.fresh n hk

/-- R150, R165: the clean-up, whatever its answer. -/
theorem keepsOutside_completeCleanup (hr : sinkRuns s = true) (e : E) :
    KeepsOutside s (completeCleanup e .csR s) := by
  unfold completeCleanup
  rcases answer_cases .csR s with ⟨rs, ts, k, ha⟩ | ⟨rs, ts, ha⟩ | ⟨-, e', n, rs, ha⟩ <;> rw [ha]
  · exact .of_pm_eq rfl
  · have hset : KeepsOutside s (effectOk .csR { s with transport := rs, timing := ts }) :=
      .of_pm_eq (by rw [(effectOk_set (s := { s with transport := rs, timing := ts }) rfl hr).1])
    exact hset.trans (by simp) (keepsOutside_windowLost _)
  · have hset : KeepsOutside s (effectErr .csR e' n { s with transport := rs }) :=
      .of_pm_eq (effectErr_set_pm (s := { s with transport := rs }) rfl hr)
    exact hset.trans (by simp) (keepsOutside_windowLost _)

/-- R163 to R165: the fault taken, and the clean-up that follows it. -/
theorem keepsOutside_afterFault (hb : s.busy = true) (hr : sinkRuns s = true) (ho : s.op = .draw) (e : E) :
    KeepsOutside s (afterFault (takeBusFault e s)) := by
  have hlost := keepsOutside_windowLost s
  by_cases hu : s.upc < 17
  · rw [afterFault_draw ho hb hu]
    exact hlost.trans rfl (keepsOutside_completeCleanup
      (s := issue .csR { windowLost s with ferr := some e, upc := 17 }) hr e)
  · rw [afterFault_draw_last ho hu, takeBusFault_draw_last ho hu]
    exact hlost

/-! ### A run of calls -/

theorem DrawFollowed.keepsOutside_runOps {ops : List MicroOp} (h : DrawFollowed s) (hb : s.busy = true)
    (hf : s.ferr = none) (hops : ops <+: (drawProg s.cfg s.fb).drop s.upc) :
    KeepsOutside s (runOps ops s).state := by
  rcases runOps_cases ops (cleaning_no_error hf) with ⟨-, hrun⟩ | ⟨pre, m, post, rfl, -, hstop⟩
  · rw [hrun]
    exact (h.after_okRun hops).2
  · obtain ⟨hpre, hkeep⟩ := h.after_okRun ((List.prefix_append ..).trans hops)
    rcases hstop with ⟨t, ht, hrun⟩ | ⟨-, e, n, rs, -, hrun⟩
    · obtain ⟨rs, ts, k, rfl⟩ := waiting_eq ht
      rw [hrun]
      exact hkeep
    · have hm : (drawProg (okRun pre s).cfg (okRun pre s).fb)[(okRun pre s).upc]? = some m := by
        obtain ⟨rest, hrest⟩ := hops
        rw [okRun_cfg, okRun_fb, okRun_upc, ← List.getElem?_drop, ← hrest]
        simp
      have hissued := hpre.with_pending (some m) rs
      have herr := hissued.keepsOutside_effectErr hm e n
      rw [hrun]
      refine hkeep.trans (by simp) (herr.trans (by simp) (keepsOutside_afterFault (by simpa using hb) ?_ ?_ e))
      · rw [sinkRuns_congr (s := s) (by simp) (by simp) (by simp), h.sink_runs]
      · simpa using op_of_controllerKnown h.known

/-- R74: the end of a DRAW does nothing to the controller. -/
theorem finishRun_ctl {p : Progress E} (hp : p.state.op = .draw) : (finishRun p).ctl = p.state.ctl := by
  cases p with
  | going t => simp only [finishRun, finish, show t.op = .draw from hp, respond_ctl, Progress.state]
  | stopped t => rfl

theorem keepsOutside_finishRun {p : Progress E} (hp : p.state.op = .draw) (h : KeepsOutside s p.state) :
    KeepsOutside s (finishRun p) := fun k hk => by rw [finishRun_ctl hp, h k hk]

/-- R26, R99: a call outstanding is the next of the program, so going on is running what is left of it. -/
theorem continueOp_eq (h : ∀ m, s.pending = some m → (prog s)[s.upc]? = some m) :
    continueOp s = finishRun (runOps ((prog s).drop s.upc) s) := by
  unfold continueOp
  cases hp : s.pending with
  | none => rfl
  | some m =>
    obtain ⟨hu, hget⟩ := List.getElem?_eq_some_iff.1 (h m hp)
    have hissue : issue m s = s := by rw [issue, ← hp]
    rw [List.drop_eq_getElem_cons hu, hget, runOps, call, hissue]
    dsimp only
    split
    · next t ht => rw [ht, finishRun]
    · next t ht =>
      obtain ⟨-, hprog, hupc⟩ := complete_going_inv ht
      rw [ht, hprog, hupc]

/-- R150, R165: what is left of a DRAW in its clean-up is the release. -/
theorem Inv.keepsOutside_cleanup (h : Inv s) (hb : s.busy = true) {e : E} (hc : cleaning s = some e)
    (hr : sinkRuns s = true) : KeepsOutside s (runOps ((prog s).drop s.upc) s).state := by
  obtain ⟨hu, hget⟩ := List.getElem?_eq_some_iff.1 (h.at_cleanup hb hc)
  rw [List.drop_eq_getElem_cons hu, hget, runOps, call, complete, cleaning_issue, hc]
  exact keepsOutside_completeCleanup (s := issue .csR s) hr e

/-! ### One step of a running DRAW -/

/-- A step of a running operation stays inside it. -/
theorem Stepped.within_of_busy {s t : State} (h : Stepped s t) (hb : s.busy = true) : Within s t := by
  cases h with
  | nothing hb' | rejected _ _ hb' | request _ _ hb' => simp [hb] at hb'
  | command => exact (within_runOps hb).1
  | resume => exact within_continueOp hb

theorem Stepped.keepsOutside_of_known {s t : State} (ht : Stepped s t) (h : Inv s) (hb : s.busy = true)
    (hk : controllerKnown s = true) : KeepsOutside s t := by
  have ho := op_of_controllerKnown hk
  have hprog := prog_draw ho
  cases ht with
  | nothing hb' | rejected _ _ hb' | request _ _ hb' => simp [hb] at hb'
  | command i _ _ hf hi =>
    exact (h.drawFollowed hb hf hk).keepsOutside_runOps hb hf (hprog ▸ (currentCommand_prog hi).1)
  | resume =>
    rw [continueOp_eq h.outstanding]
    refine keepsOutside_finishRun ((within_runOps hb).1.op.trans ho) ?_
    cases hc : cleaning s with
    | none =>
      have hf := h.no_error_of_cleaning hb hc
      exact (h.drawFollowed hb hf hk).keepsOutside_runOps hb hf (hprog ▸ List.prefix_rfl)
    | some e => exact h.keepsOutside_cleanup hb hc (controllerKnown_iff.1 hk).1

/-- R57: where PM is not claimed there is no cell to change, before the step and after it. -/
theorem Stepped.keepsOutside {s t : State} (ht : Stepped s t) (h : Inv s) (hb : s.busy = true)
    (ho : s.op = .draw) : KeepsOutside s t := by
  cases hk : controllerKnown s with
  | true => exact ht.keepsOutside_of_known h hb hk
  | false =>
    have hu : s.ctrl ≠ .ready ∨ sinkGiven s.cfg = false := by
      by_contra hn
      simp_all [controllerKnown]
    have hw := ht.within_of_busy hb
    refine .of_pm_eq ?_
    rw [h.unclaimed (hu.imp_right .inl), (h.after_step ht).unclaimed]
    rw [hw.inDraw ho, hw.cfg]
    exact hu.imp_right .inl

/-- R57, K10: a DRAW that ended with its error left no value in its window. -/
theorem Within.window_lost (h : Within s t) (ho : s.op = .draw) (hb : t.busy = false) {e : E} {n k : Nat}
    (hlast : t.hostLog.getLast? = some (.res (.drawErr e) n)) (hk : inWindow s.cfg k = true) :
    pmRead t.ctl.pm k = none := by
  obtain ⟨-, r, hlog, -, hdraw⟩ := h.ended hb
  have hr : r = .drawErr e := by
    rw [hlog, List.getLast?_concat] at hlast
    cases hlast
    rfl
  rcases hdraw ho with hok | ⟨-, -, -, hlost⟩
  · rw [hok] at hr
    cases hr
  · exact hlost k hk

/-- R143, R144: a DRAW that answers was rejected for its length, or ran. -/
theorem exec_draw_inv {s t : State} {fb : List Pixel} {len : Nat} (h : exec (.draw fb len) s = .next t) :
    t = rejectLength s ∨ t = finishRun (runOps (drawProg s.cfg fb) (accept .draw fb s)) := by
  simp only [exec, execDraw] at h
  split at h
  · cases h
  · split at h
    · exact .inl (by cases h; rfl)
    · exact .inr (by cases h; rfl)

/-- R57, R144: the step that starts a DRAW. -/
theorem keepsOutside_exec_draw {s t : State} {fb : List Pixel} {len : Nat}
    (h : exec (.draw fb len) s = .next t) (hv : s.cfg.valid = true) (hr : s.ctrl = .ready)
    (hg : sinkGiven s.cfg = true) : KeepsOutside s t := by
  rcases exec_draw_inv h with rfl | rfl
  · exact .of_pm_eq rfl
  · have hbusy : (accept .draw fb s).busy = true := accept_busy ..
    have hop : (accept .draw fb s).op = .draw := accept_op ..
    have hkeep := (drawFollowed_accept hv hr hg fb).keepsOutside_runOps hbusy (accept_ferr ..)
      (ops := drawProg s.cfg fb) (by simp)
    exact keepsOutside_finishRun ((within_runOps hbusy).1.op.trans hop) hkeep

/-! ### A DRAW that ends well -/

/-- R56, R146, R147: the payload, answered `Ok`, and the release after it leave each pixel in its cell. -/
theorem DrawFollowed.pmRead_payload (h : DrawFollowed s) (hu : s.upc = payloadIndex) {i : Nat}
    (hi : i < s.cfg.w * s.cfg.h) :
    pmRead (okRun [.wr (pixBytes s.cfg s.fb), .csR] s).ctl.pm (pixelCell s.cfg i) = some (fbRead s.fb i) := by
  have hw : (s.upc, Tag.d, pixBytes s.cfg s.fb) ∈ drawWrites s.cfg s.fb := by
    simp [drawWrites, hu, payloadIndex]
  have hm : (drawProg s.cfg s.fb)[s.upc]? = some (.wr (pixBytes s.cfg s.fb)) := by
    rw [hu, drawProg_eq]
    rfl
  obtain ⟨hsent, -⟩ := h.after_okCall hm
  have hrelease := okCall_ctl_set (m := .csR) rfl hsent.sink_runs
  have hstart := (hu ▸ h.window : windowSent s.cfg payloadIndex s.ctl).pointerAt
  have hpixel := hstart.pmRead_pixel (ps := (List.range (s.cfg.w * s.cfg.h)).map (fbRead s.fb)) h.config
    (by simp) s.fresh (j := i) (by simpa using hi)
  rw [okRun_cons, okRun_cons, okRun_nil, hrelease, okCall_ctl_write h.sink_runs (h.tag hw),
    claimedPm_given h.sink_given, pixBytes_eq]
  simpa using hpixel

/-- R144, R147: so does the whole program, since its first calls set the window. -/
theorem DrawFollowed.pmRead_drawProg (h : DrawFollowed s) (hu : s.upc = 0) {i : Nat}
    (hi : i < s.cfg.w * s.cfg.h) :
    pmRead (okRun (drawProg s.cfg s.fb) s).ctl.pm (pixelCell s.cfg i) = some (fbRead s.fb i) := by
  have hsplit : drawProg s.cfg s.fb =
      (drawProg s.cfg s.fb).take payloadIndex ++ [.wr (pixBytes s.cfg s.fb), .csR] := by
    simp [drawProg_eq, payloadIndex]
  obtain ⟨hpre, -⟩ := h.after_okRun (ops := (drawProg s.cfg s.fb).take payloadIndex)
    (by rw [hu]; exact List.take_prefix ..)
  have hpixel := hpre.pmRead_payload (by simp [hu, payloadIndex]) (i := i) (by simpa using hi)
  rw [hsplit, okRun_append]
  simpa using hpixel

/-- R147: the transport answers a whole DRAW with 18 times `Ok`. -/
theorem allAnswered_drawProg {c : Cfg} {fb : List Pixel} (h : s.transport.take 18 = List.replicate 18 .ok) :
    AllAnswered (drawProg c fb) s := by
  obtain ⟨hcount, hwait⟩ := fallibleCount_of_fallible (ops := drawProg c fb) fun _ => drawProg_fallible
  rw [drawProg_length] at hcount
  rw [AllAnswered, hcount, hwait]
  exact ⟨h, rfl⟩

/-- R43: a pixel the host handed over is read as it is. -/
theorem fbRead_eq {fb : List Pixel} {i : Nat} (h : i < fb.length) : some (fbRead fb i) = fb[i]? := by
  simp [fbRead, h]

end Sys2Proof.Machine
end

section
/-! The obligations of the memory (20_memory.md). -/

open Sys2Proof Sys2Proof.Machine

/-- Settles O44: division with remainder by the width, one way and the other. -/
theorem framebufferIsRowMajor : Obligations.FramebufferIsRowMajor := fun c _ _ i =>
  ⟨fun hx hy => ⟨rfl, fbIndex_lt hx hy, fbColumn_fbIndex hx, fbRow_fbIndex hx⟩,
    fun hi => ⟨fbColumn_lt hi, fbRow_lt hi, fbIndex_fbColumn_fbRow c i⟩⟩

/-- Settles O46: a step of a running DRAW stays inside it (`Within`). -/
theorem framebufferStableDuringDraw : Obligations.FramebufferStableDuringDraw := by
  intro s t hb ho h
  have hw := (step_cases h).within_of_busy hb
  refine ⟨fun ht => ?_, fun ht => ?_⟩
  · obtain ⟨-, hfb, -⟩ := hw.going ht
    exact ⟨hfb, hw.op.trans ho⟩
  · obtain ⟨hfb, -⟩ := hw.ended ht
    exact hfb

/-- Settles O52: the calls before the payload set the window, the payload stores pixel by pixel from its first
cell, and no call writes outside. -/
theorem drawStoresFramebuffer : Obligations.DrawStoresFramebuffer := by
  intro s t fb hb hv hr hscan hcr hcw hrw hlen hok h
  have hg := sinkGiven_of_opcodes hscan hcr hcw hrw
  refine ⟨fun x y hx hy => ?_, keepsOutside_exec_draw h hv hr hg⟩
  have hi : fbIndex s.cfg x y < s.cfg.w * s.cfg.h := fbIndex_lt hx hy
  have hpixel := (drawFollowed_accept hv hr hg fb).pmRead_drawProg rfl hi
  have hrun := runOps_allAnswered (s := accept .draw fb s) (cleaning_no_error rfl)
    (allAnswered_drawProg (c := s.cfg) (fb := fb) hok)
  rw [exec_draw_eq hb hlen, hrun] at h
  obtain rfl := Host.Outcome.next.inj h
  simp only [accept_cfg, accept_fb, fbRead_eq (hlen ▸ hi)] at hpixel
  rw [← pixelCell_fbIndex hx, finishRun_ctl (by simp [Progress.state])]
  exact hpixel

/-- Settles O53: every call of a DRAW, answered or failed, its clean-up too, keeps what lies outside the window;
an end with DRAW_ERR loses the window. -/
theorem drawWritesOnlyItsWindow : Obligations.DrawWritesOnlyItsWindow := by
  constructor
  · intro s t fb len h
    refine ⟨fun hv hr hscan hcr hcw hrw =>
      keepsOutside_exec_draw h hv hr (sinkGiven_of_opcodes hscan hcr hcw hrw), ?_⟩
    intro e n k hidle hlast hk
    rcases exec_draw_inv h with rfl | rfl
    · simp at hlast
    · exact (within_finishRun (s := accept .draw fb s) rfl).window_lost rfl hidle hlast hk
  · intro s t hinv hb ho h
    have hstep := step_cases h
    exact ⟨hstep.keepsOutside hinv hb ho, fun _ _ _ hidle hlast =>
      (hstep.within_of_busy hb).window_lost ho hidle hlast⟩

/-- Settles O54: the offsets keep a pixel inside the bounds of the configuration. -/
theorem mappedPixelsLieInside : Obligations.MappedPixelsLieInside := fun _ _ _ hv hx hy =>
  ⟨Nat.add_comm .., Nat.add_comm .., physColumn_lt hv hx, physRow_lt hv hy, inWindow_physCell hv hx hy⟩

end

section
/-! Encoding and decoding (30_encoding.md): the bytes of one command as the reader of the wire finds them, the
command they are, and that the words of an instruction name it alone. -/

namespace Sys2Proof

open Machine

variable {c : Cfg} {op : Byte}

/-! ### One command on the wire (R65 to R69, R77) -/

section

variable {rest : List TaggedByte} (h : rest.head?.map TaggedByte.tag ≠ some .d)

include h

theorem dataPrefix_of_head : dataPrefix rest = [] := by
  match rest with
  | [] | ⟨.c, _⟩ :: _ => rfl
  | ⟨.d, _⟩ :: _ => exact absurd rfl h

theorem afterData_of_head : afterData rest = rest := by
  match rest with
  | [] | ⟨.c, _⟩ :: _ => rfl
  | ⟨.d, _⟩ :: _ => exact absurd rfl h

theorem dataPrefix_append (params : List Byte) :
    dataPrefix (params.map (fun b => ⟨.d, b⟩) ++ rest) = params := by
  induction params with
  | nil => exact dataPrefix_of_head h
  | cons b params ih => exact congrArg (b :: ·) ih

theorem afterData_append (params : List Byte) :
    afterData (params.map (fun b => ⟨.d, b⟩) ++ rest) = rest := by
  induction params with
  | nil => exact afterData_of_head h
  | cons _ _ ih => exact ih

/-- R77: a command ends where the next one begins. -/
theorem decodeWire_wireCommand (hop : c.opRamwr ≠ op) (params : List Byte) :
    decodeWire c (wireCommand op params ++ rest) = .ok (commandOf c op params, rest) := by
  simp [wireCommand, decodeWire, hop.symm, dataPrefix_append h, afterData_append h]

end

/-- R69, R114: the opcode of RAMWR is the whole command, whatever follows. -/
theorem decodeWire_ramwr (c : Cfg) (rest : List TaggedByte) :
    decodeWire c (wireCommand c.opRamwr [] ++ rest) = .ok (.ramwr, rest) := by
  simp [wireCommand, decodeWire]

/-! ### The command of an opcode and its data bytes (R65 to R68)

A hypothesis names an opcode that `commandOf` asks for earlier with data of the same shape. -/

theorem commandOf_swreset (c : Cfg) : commandOf c c.opSwreset [] = .swreset := by
  simp [commandOf]

theorem commandOf_slpout (h : c.opSlpout ≠ c.opSwreset) : commandOf c c.opSlpout [] = .slpout := by
  simp [commandOf, h]

theorem commandOf_colmod (c : Cfg) : commandOf c c.opColmod [c.colmodParam] = .colmod := by
  simp [commandOf]

theorem commandOf_madctl (h : c.opMadctl ≠ c.opColmod) :
    commandOf c c.opMadctl [c.madctlParam] = .madctl := by
  simp [commandOf, h]

theorem commandOf_dispon (h : c.opDispon ≠ c.opSwreset) (h' : c.opDispon ≠ c.opSlpout) :
    commandOf c c.opDispon [] = .dispon := by
  simp [commandOf, h, h']

theorem commandOf_caset (c : Cfg) (xs xe : Bound) :
    commandOf c c.opCaset (boundBytes xs xe) = .caset xs xe := by
  simp [commandOf, boundBytes, be16, ofBytes_be16]

theorem commandOf_raset (h : c.opRaset ≠ c.opCaset) (ys ye : Bound) :
    commandOf c c.opRaset (boundBytes ys ye) = .raset ys ye := by
  simp [commandOf, boundBytes, be16, ofBytes_be16, h]

/-- R68, R79: an opcode that is none of the structural ones starts a tuning command, whatever its data. -/
theorem commandOf_tuning (h : c.structural op = false) (params : List Byte) :
    commandOf c op params = .tuning op params 0 := by
  simp only [Cfg.structural, List.contains_eq_mem, decide_eq_false_iff_not, List.mem_cons, not_or] at h
  obtain ⟨hswreset, hslpout, hcolmod, hmadctl, hdispon, hcaset, hraset, -⟩ := h
  simp only [commandOf, hswreset, hslpout, hcolmod, hmadctl, hdispon, hcaset, hraset, false_and, if_false]
  split <;> rfl

/-! ### The words of an instruction -/

/-- The opcodes from the last to the first, so that each is said to differ from those before it. -/
theorem Cfg.distinctOps_iff :
    c.distinctOps = true ↔ [c.opRamwr, c.opRaset, c.opCaset, c.opDispon, c.opMadctl, c.opColmod, c.opSlpout,
      c.opSwreset].Nodup := by
  rw [← List.nodup_reverse]
  exact decide_eq_true_iff

/-- An instruction on the wire is the opcode of RAMWR, or an opcode with all of its data bytes, which decode to
it. -/
theorem encode_wire_cases {i : Instr} {bytes : List TaggedByte} (hd : c.distinctOps = true)
    (hu : i.unambiguous c = true) (h : encode c i = .wire bytes) :
    (i = .ramwr ∧ bytes = wireCommand c.opRamwr []) ∨
      ∃ op params, c.opRamwr ≠ op ∧ bytes = wireCommand op params ∧ commandOf c op params = i.onWire := by
  simp only [Cfg.distinctOps_iff, List.nodup_cons, List.mem_cons, not_or] at hd
  obtain ⟨hramwr, ⟨hraset, -⟩, -, hdispon, ⟨hmadctl, -⟩, -, ⟨hslpout, -⟩, -⟩ := hd
  obtain ⟨-, -, hdisponSlpout, hdisponSwreset, -⟩ := hdispon
  cases i <;> cases h
  case ramwr => exact .inl ⟨rfl, rfl⟩
  case swreset => exact .inr ⟨_, _, by simp [hramwr], rfl, commandOf_swreset c⟩
  case slpout => exact .inr ⟨_, _, by simp [hramwr], rfl, commandOf_slpout hslpout⟩
  case colmod => exact .inr ⟨_, _, by simp [hramwr], rfl, commandOf_colmod c⟩
  case madctl => exact .inr ⟨_, _, by simp [hramwr], rfl, commandOf_madctl hmadctl⟩
  case dispon => exact .inr ⟨_, _, by simp [hramwr], rfl, commandOf_dispon hdisponSwreset hdisponSlpout⟩
  case caset xs xe => exact .inr ⟨_, _, by simp [hramwr], rfl, commandOf_caset c xs xe⟩
  case raset ys ye => exact .inr ⟨_, _, by simp [hramwr], rfl, commandOf_raset hraset ys ye⟩
  case tuning op params d =>
    have hop : c.structural op = false := by simpa [Instr.unambiguous] using hu
    have hne : c.opRamwr ≠ op := by
      rintro rfl
      simp [Cfg.structural] at hop
    exact .inr ⟨op, params, hne, rfl, commandOf_tuning hop params⟩

/-- R65 to R70: the words of a wire command, read back with what follows them. -/
theorem decodeWire_encode {i : Instr} {bytes rest : List TaggedByte} (hd : c.distinctOps = true)
    (hu : i.unambiguous c = true) (h : encode c i = .wire bytes)
    (hrest : rest.head?.map TaggedByte.tag ≠ some .d) :
    decodeWire c (bytes ++ rest) = .ok (i.onWire, rest) := by
  rcases encode_wire_cases hd hu h with ⟨rfl, rfl⟩ | ⟨op, params, hop, rfl, hi⟩
  · exact decodeWire_ramwr c rest
  · rw [decodeWire_wireCommand hrest hop, hi]

/-- R73, R75: the words of a request, read back. -/
theorem decodeRequest_encode {i : Instr} {r : HostRequest} (h : encode c i = .request r) :
    decodeRequest r = .ok i.onWire := by
  cases i <;> cases h
  case init => rfl
  case draw => rfl

/-- R78: the codes that are no request. -/
theorem decodeRequest_illegal {r : HostRequest} (h1 : r.code ≠ 0x01) (h2 : r.code ≠ 0x02) :
    decodeRequest r = .error (.illegalRequest r.code) :=
  (if_neg h1).trans (if_neg h2)

end Sys2Proof
end

section
/-! What a step runs, case by case (R73, R78, R99), and when an instruction is refused (R26, R73). -/

namespace Sys2Proof.Machine

variable {E : Type}

section

variable {s : State} {i : Instr} {r : HostRequest} {rest : List HostRequest}

/-- R37: the host asks for nothing. -/
theorem step_nothing (hb : s.busy = false) (hh : s.host = []) : step s = .next s := by
  simp [step, fetch, hb, hh]

/-- R73: the request taken off the port. -/
theorem step_request (hb : s.busy = false) (hh : s.host = r :: rest) (hr : decodeRequest r = .ok i) :
    step s = exec i { s with host := rest } := by
  simp [step, fetch, hb, hh, hr]

/-- R78: a request that decodes to nothing. -/
theorem step_illegal {err : DecodeError} (hb : s.busy = false) (hh : s.host = r :: rest)
    (hr : decodeRequest r = .error err) : step s = .refused (.illegalRequest r.code) := by
  simp [step, fetch, hb, hh, hr]

/-- R134, R147: the wire command the sequencer has come to. -/
theorem step_command (hb : s.busy = true) (hp : s.pending = none) (hf : s.ferr = none)
    (hi : currentCommand s = some i) : step s = exec i s := by
  simp [step, fetch, hb, hp, hf, hi]

/-- R99: anywhere else in an operation. -/
theorem step_resume (hb : s.busy = true) (h : s.pending ≠ none ∨ s.ferr ≠ none ∨ currentCommand s = none) :
    step s = .next (continueOp s) := by
  have hfetch : fetch s = .resume := by
    simp only [fetch, hb, if_true]
    split
    case h_1 hp hf hi => simp [hp, hf, hi] at h
    all_goals rfl
  simp [step, hfetch]

end

/-- R73: no wire command outside an operation. -/
theorem runCommand_idle {s : State.Over E} (hb : s.busy = false) (ops : List MicroOp) :
    runCommand ops s = .refused .noOperation := by
  simp [runCommand, hb]

/-- R26: no wire command over an outstanding call. -/
theorem runCommand_outstanding {s : State.Over E} (hb : s.busy = true) (hp : s.pending ≠ none)
    (ops : List MicroOp) : runCommand ops s = .refused .callOutstanding := by
  obtain ⟨m, hm⟩ := Option.ne_none_iff_exists'.1 hp
  simp [runCommand, hb, hm]

/-- A well-formed wire command is its list, run by the operation in progress. -/
theorem exec_command_eq {i : Instr} (hw : i.wf = true) (hi : i ≠ .init) (hd : ∀ fb len, i ≠ .draw fb len)
    (s : State) : exec i s = runCommand (commandOps s.cfg i) s := by
  cases i with
  | init => exact absurd rfl hi
  | draw fb len => exact absurd rfl (hd fb len)
  | caset xs xe => exact if_pos hw
  | raset ys ye => exact if_pos hw
  | swreset | slpout | colmod | madctl | dispon | ramwr | tuning => rfl

end Sys2Proof.Machine
end

section
/-! The obligations of the encodings (30_encoding.md) and of what a step decodes. -/

open Sys2Proof Sys2Proof.Machine

/-- Settles O58: a request by its two codes; a wire command as its opcode with the data bytes up to the next
command, where the opcodes tell the commands apart. -/
theorem encodeThenDecode : Obligations.EncodeThenDecode := by
  intro c i hd hu
  refine ⟨?_, fun _ _ => decodeWire_encode hd hu⟩
  cases he : encode c i with
  | request r => simp [decode, decodeRequest_encode he, Except.map]
  | wire bytes => simpa [decode] using decodeWire_encode (rest := []) hd hu he (by simp)

/-- Settles O4: the five things a step can fetch. -/
theorem stepRunsDecodedInstruction : Obligations.StepRunsDecodedInstruction := fun _ =>
  ⟨step_nothing, fun _ _ _ => step_request, fun _ _ _ => step_illegal, fun _ => step_command, step_resume⟩

/-- Settles O5: a code that is neither of the two decodes to an error, which the step refuses. -/
theorem illegalRequestRefused : Obligations.IllegalRequestRefused :=
  fun _ _ _ hb hh h1 h2 => step_illegal hb hh (decodeRequest_illegal h1 h2)

/-- Settles O6: both requests look at `busy` first. -/
theorem noRequestAcceptedWhileBusy : Obligations.NoRequestAcceptedWhileBusy :=
  fun _ _ _ hb => ⟨if_pos hb, if_pos hb⟩

/-- Settles O33: every well-formed wire command is a run of its list, and such a run is refused in both cases. -/
theorem commandsNeedRunningOperation : Obligations.CommandsNeedRunningOperation := by
  intro s i hw hi hd
  rw [exec_command_eq hw hi hd]
  exact ⟨fun hb => runCommand_idle hb _, fun hb hp => runCommand_outstanding hb hp _⟩

/-- Settles O59: the decoder, run on each of the five words. -/
theorem wordsDecodeAsTheSpecSays : Obligations.WordsDecodeAsTheSpecSays :=
  ⟨rfl, rfl, rfl, rfl, rfl⟩

/-- Settles O60: the table of R74, one entry after the other. -/
theorem resultCodes : Obligations.ResultCodes := fun _ _ =>
  ⟨rfl, rfl, rfl, rfl, rfl, rfl, rfl, rfl⟩

end

section
/-! The executor of R99, step by step: ISSUE, ANSWER and FINISH, each by what the state and the outside
offer. -/

namespace Sys2Proof.Machine

variable {E : Type} {s t : State.Over E} {m : MicroOp} {e first : E}

/-- ISSUE: nothing outstanding and `m` next in the program. -/
theorem executorStep_issue (hb : s.busy = true) (hp : s.pending = none) (hm : (prog s)[s.upc]? = some m) :
    executorStep s = .going (issue m s) := by
  simp [executorStep, hb, hp, hm]

/-- FINISH: nothing outstanding and nothing left of the program. -/
theorem executorStep_finish (hb : s.busy = true) (hp : s.pending = none) (hm : (prog s)[s.upc]? = none) :
    executorStep s = .going (finish s) := by
  simp [executorStep, hb, hp, hm]

/-- No answer yet: no step is enabled (R170). -/
theorem executorStep_waiting (hb : s.busy = true) (hm : s.pending = some m) (ha : answer m s = .waiting t) :
    executorStep s = .stopped t := by
  simp [executorStep, hb, hm, ha]

/-- ANSWER `Ok` or `done`, outside a clean-up. -/
theorem executorStep_ok (hb : s.busy = true) (hm : s.pending = some m) (hc : cleaning s = none)
    (ha : answer m s = .ok t) : executorStep s = .going (advance t) := by
  simp [executorStep, hb, hm, hc, ha]

/-- ANSWER `Err(e)`, outside a clean-up: the fault is taken (R163). -/
theorem executorStep_err (hb : s.busy = true) (hm : s.pending = some m) (hc : cleaning s = none)
    (ha : answer m s = .err e t) : executorStep s = .going (takeBusFault e t) := by
  simp [executorStep, hb, hm, hc, ha]

/-- R150, R165: any answer in the clean-up ends the operation. -/
theorem executorStep_cleanup (hb : s.busy = true) (hm : s.pending = some m) (hc : cleaning s = some first)
    (ha : answer m s = .ok t ∨ ∃ e, answer m s = .err e t) : executorStep s = .going (endCleanup first t) := by
  rcases ha with ha | ⟨e, ha⟩ <;> simp [executorStep, hb, hm, hc, ha]

theorem completeCleanup_answered (ha : answer m s = .ok t ∨ ∃ e, answer m s = .err e t) :
    completeCleanup first m s = endCleanup first t := by
  rcases ha with ha | ⟨e, ha⟩ <;> simp [completeCleanup, ha]

/-! R91, R165: the answer to the clean-up's release. -/

/-- R17, R98: a reply that is an answer answers the release of chip-select: its event, its latch, one reply
used, and the operation as it was. -/
theorem answer_csR {r : Reply E} {rs : List (Reply E)} {a : Answer E} (hr : s.transport = r :: rs)
    (ha : replyAnswer r = some a) :
    ∃ t, (answer .csR s = .ok t ∨ ∃ e, answer .csR s = .err e t) ∧
      t.trace = s.trace ++ [.set .cs (invert s.cfg.csAssert) a] ∧
      t.cs = latchAfter (invert s.cfg.csAssert) a ∧ t.dc = s.dc ∧ t.transport = rs ∧ t.hostLog = s.hostLog := by
  cases r with
  | silent => cases ha
  | ok =>
    cases ha
    refine ⟨_, .inl (answer_ok_transport rfl hr), ?_⟩
    simp [effectOk, callOf]
  | err e n =>
    cases ha
    refine ⟨_, .inr ⟨e, answer_err rfl hr⟩, ?_⟩
    simp [effectErr, callOf]

/-- FINISH leaves the block idle (R206). -/
@[simp] theorem finish_busy (s : State.Over E) : (finish s).busy = false := by
  cases ho : s.op <;> simp [finish, ho]

theorem takeBusFault_pending (hp : s.pending = none) : (takeBusFault e s).pending = none := by
  unfold takeBusFault
  split
  · rfl
  · split
    · exact hp
    · rfl

end Sys2Proof.Machine
end

section
/-! A run of the model's executor is a run of steps of R99 (entry 6): `runOps` issues and completes a call at
once where `executorStep` takes two steps, and takes the clean-up with the fault. -/

namespace Sys2Proof.Machine

variable {E : Type} {s t u : State.Over E} {m : MicroOp}

/-- `t` is the state after some number of steps of the executor from `s`. -/
def ExecutorReaches (s t : State.Over E) : Prop := ∃ n, t = executorRun n s

theorem executorReaches_refl (s : State.Over E) : ExecutorReaches s s := ⟨0, rfl⟩

theorem ExecutorReaches.of_going (h : ExecutorReaches u t) (hs : executorStep s = .going u) :
    ExecutorReaches s t := by
  obtain ⟨n, rfl⟩ := h
  exact ⟨n + 1, by rw [executorRun, hs]⟩

theorem executorReaches_going (hs : executorStep s = .going t) : ExecutorReaches s t :=
  (executorReaches_refl t).of_going hs

theorem executorReaches_stopped (hs : executorStep s = .stopped t) : ExecutorReaches s t :=
  ⟨1, by rw [executorRun, hs]⟩

/-! ### One call -/

/-- R26, R99: the call that `runOps` begins with is outstanding already, or ISSUE makes it so. -/
theorem Inv.executorReaches_issue (h : Inv s) (hb : s.busy = true) (hm : (prog s)[s.upc]? = some m)
    (ht : ExecutorReaches (issue m s) t) : ExecutorReaches s t := by
  cases hp : s.pending with
  | none => exact ht.of_going (executorStep_issue hb hp hm)
  | some m' =>
    obtain rfl : m' = m := by simpa [h.outstanding m' hp] using hm
    have hissue : issue m' s = s := by rw [issue, ← hp]
    rwa [hissue] at ht

/-- R150, R165: the answer to the clean-up is one step. -/
theorem executorReaches_completeCleanup {first : E} (hb : s.busy = true) (hm : s.pending = some m)
    (hc : cleaning s = some first) : ExecutorReaches s (completeCleanup first m s) := by
  cases ha : answer m s with
  | waiting u =>
    have hu : completeCleanup first m s = u := by simp [completeCleanup, ha]
    exact hu ▸ executorReaches_stopped (executorStep_waiting hb hm ha)
  | ok u =>
    rw [completeCleanup_answered (.inl ha)]
    exact executorReaches_going (executorStep_cleanup hb hm hc (.inl ha))
  | err e u =>
    rw [completeCleanup_answered (.inr ⟨e, ha⟩)]
    exact executorReaches_going (executorStep_cleanup hb hm hc (.inr ⟨e, ha⟩))

/-- R150: what follows a fault is the ISSUE of the clean-up and its answer, or nothing. -/
theorem Inv.executorReaches_afterFault (h : Inv s) (hp : s.pending = none) : ExecutorReaches s (afterFault s) := by
  unfold afterFault
  split
  · next first hb hc =>
    exact (executorReaches_completeCleanup (s := issue .csR s) hb rfl hc).of_going
      (executorStep_issue hb hp (h.at_cleanup hb hc))
  · exact executorReaches_refl s
  · exact executorReaches_refl s

/-- R99: a call that goes on is one ANSWER. -/
theorem executorStep_of_complete_going (hb : s.busy = true) (hm : s.pending = some m)
    (h : complete m s = .going t) : executorStep s = .going t := by
  unfold complete at h
  split at h
  · cases h
  · next hc =>
    split at h
    · cases h
    · next u ha =>
      cases h
      exact executorStep_ok hb hm hc ha
    · cases h

/-- R99, R163: a call that stops the run is no answer, the end of a clean-up, or a fault and what follows. -/
theorem Inv.executorReaches_of_complete_stopped (h : Inv s) (hm : s.pending = some m)
    (ht : complete m s = .stopped t) : ExecutorReaches s t := by
  have hb := h.busy_of_pending hm
  unfold complete at ht
  split at ht
  · next first hc =>
    cases ht
    exact executorReaches_completeCleanup hb hm hc
  · next hc =>
    split at ht
    · next u ha =>
      cases ht
      exact executorReaches_stopped (executorStep_waiting hb hm ha)
    · cases ht
    · next e u ha =>
      cases ht
      obtain ⟨hr, hbu, hpu⟩ := h.recorded_of_err hm ha
      exact ((hr.inv_takeBusFault hbu hpu e).executorReaches_afterFault (takeBusFault_pending hpu)).of_going
        (executorStep_err hb hm hc ha)

/-! ### A run of calls -/

/-- R18, R99: where a run that goes on leaves the sequencer: past the list, in the same program. -/
theorem runOps_going_inv {ms : List MicroOp} (h : runOps ms s = .going t) :
    t.busy = s.busy ∧ prog t = prog s ∧ t.upc = s.upc + ms.length := by
  induction ms generalizing s with
  | nil =>
    cases h
    exact ⟨rfl, rfl, rfl⟩
  | cons m ms ih =>
    unfold runOps call at h
    split at h
    · next u hu =>
      obtain ⟨hb, hprog, hupc⟩ := complete_going_inv hu
      obtain ⟨hb', hprog', hupc'⟩ := ih h
      refine ⟨hb'.trans hb, hprog'.trans hprog, ?_⟩
      rw [hupc', hupc, issue_upc, List.length_cons]
      omega
    · cases h

/-- R18, R99: a run of calls that the program goes on with, and whatever the executor reaches from its end. -/
theorem Inv.executorReaches_runOps {ms : List MicroOp} (h : Inv s) (hb : s.busy = true)
    (hms : ms <+: (prog s).drop s.upc) (hgoing : ∀ u, runOps ms s = .going u → ExecutorReaches u t)
    (hstopped : ∀ u, runOps ms s = .stopped u → u = t) : ExecutorReaches s t := by
  induction ms generalizing s with
  | nil => exact hgoing s rfl
  | cons m ms ih =>
    obtain ⟨rest, hrest⟩ := hms
    have hm : (prog s)[s.upc]? = some m := by
      rw [← List.head?_drop, ← hrest]
      rfl
    have hi := h.after_issue hb hm
    refine h.executorReaches_issue hb hm ?_
    cases hc : complete m (issue m s) with
    | going u =>
      obtain ⟨hbu, hprog, hupc⟩ := complete_going_inv hc
      have hrun : runOps (m :: ms) s = runOps ms u := by rw [runOps, call, hc]
      have hleft : (prog u).drop u.upc = ms ++ rest := by
        rw [hprog, hupc, ← List.drop_drop]
        exact congrArg (List.drop 1) hrest.symm
      have hu : Inv u := by simpa [hc, Progress.state] using hi.after_complete (m := m) rfl
      exact (ih hu (hbu.trans hb) ⟨rest, hleft.symm⟩ (hrun ▸ hgoing) (hrun ▸ hstopped)).of_going
        (executorStep_of_complete_going hb rfl hc)
    | stopped u =>
      have hrun : runOps (m :: ms) s = .stopped u := by rw [runOps, call, hc]
      exact hstopped u hrun ▸ hi.executorReaches_of_complete_stopped rfl hc

/-- A command that the program goes on with. -/
theorem Inv.executorReaches_runOps_state {ms : List MicroOp} (h : Inv s) (hb : s.busy = true)
    (hms : ms <+: (prog s).drop s.upc) : ExecutorReaches s (runOps ms s).state := by
  refine h.executorReaches_runOps hb hms (fun u hu => ?_) (fun u hu => ?_) <;> rw [hu]
  · exact executorReaches_refl u
  · rfl

/-- R99: the rest of the program, then FINISH. -/
theorem Inv.executorReaches_finishRun (h : Inv s) (hb : s.busy = true) :
    ExecutorReaches s (finishRun (runOps ((prog s).drop s.upc) s)) := by
  refine h.executorReaches_runOps hb List.prefix_rfl (fun u hu => ?_) (fun u hu => ?_) <;> rw [hu]
  · obtain ⟨hbu, hprog, hupc⟩ := runOps_going_inv hu
    have hend : (prog u)[u.upc]? = none := by
      rw [List.getElem?_eq_none_iff, hprog, hupc, List.length_drop]
      omega
    have hi : Inv u := by simpa [hu, Progress.state] using h.after_runOps hb List.prefix_rfl
    have hp : u.pending = none := by
      by_contra hp
      obtain ⟨m, hm⟩ := Option.ne_none_iff_exists'.1 hp
      simp [hi.outstanding m hm] at hend
    exact executorReaches_going (executorStep_finish (hbu.trans hb) hp hend)
  · rfl

/-- R99: the operation that a request starts runs from index 0 of its program. -/
theorem Inv.executorReaches_started {s u : State} (h : Inv s) (hu : Started s u) (hb : s.busy = false) :
    ExecutorReaches u (finishRun (runOps (prog u) u)) := by
  simpa [hu.upc_zero hb] using (h.of_started hu).executorReaches_finishRun hu.frame.1

end Sys2Proof.Machine
end

section
/-! The framing of the programs (R106). -/

namespace Sys2Proof.Machine

variable {c : Cfg}

/-- R104, R106: a group is closed at its end and sets the selector before it writes, so what follows it
decides, whatever the selector is then. -/
theorem framing_group {rest : List MicroOp} (h : ∀ sel, framing .closed sel rest = true) (op : Byte)
    (params : List Byte) (d : Nat) (sel : Option Tag) :
    framing .closed sel (group op params d ++ rest) = true := by
  by_cases hp : params = [] <;> by_cases hd : d = 0 <;>
    simp [group, sendCommand, sendParams, sendData, settle, framing, hp, hd, h, Nat.pos_iff_ne_zero]

theorem framing_entries (es : List Entry) (sel : Option Tag) :
    framing .closed sel (es.flatMap entryOps) = true := by
  induction es generalizing sel with
  | nil => rfl
  | cons e es ih => exact framing_group ih e.op e.params e.postDelay sel

/-- R108: a delay that is sent is not 0. -/
theorem framing_settle (ms : Nat) (rest : List MicroOp) (ph : Phase) (sel : Option Tag) :
    framing ph sel (settle ms ++ rest) = framing ph sel rest := by
  unfold settle
  split
  · rfl
  · next h => simp [framing, Nat.pos_of_ne_zero h]

/-- R106, R134: INIT_PROG. -/
theorem framing_initProg (c : Cfg) : framing .closed none (initProg c) = true := by
  simp [initProg, hwReset, framing, framing_settle, framing_entries]

/-- R106, R147: DRAW_PROG. -/
theorem framing_drawProg (h : c.valid = true) (fb : List Pixel) : framing .closed none (drawProg c fb) = true := by
  simp [drawProg_eq, framing, pixBytes_ne_nil h, boundBytes, be16]

end Sys2Proof.Machine
end

section
/-! The obligations of the command protocol (40_command_protocol.md). -/

open Sys2Proof Sys2Proof.Machine

/-- Settles O10: what a step runs is a part of the program the invariant has at `upc`, so each of its calls is
an ISSUE, where it is not outstanding yet, and an ANSWER of the executor. -/
theorem stepIsExecutorSteps : Obligations.StepIsExecutorSteps := by
  intro s t h hst
  refine ⟨fun hb => ?_, fun hb hne => ?_⟩
  · cases step_cases hst with
    | nothing hb' | rejected _ _ hb' | request _ _ hb' => simp [hb] at hb'
    | command i _ _ _ hi => exact h.executorReaches_runOps_state hb (currentCommand_prog hi).1
    | resume =>
      rw [continueOp_eq h.outstanding]
      exact h.executorReaches_finishRun hb
  · cases step_cases hst with
    | command _ hb' | resume hb' => simp [hb] at hb'
    | nothing _ hh => exact absurd hh hne
    | rejected r rest _ hh hr hl => exact ⟨r, rest, hh, .inr (.inr ⟨hr, hl, rfl⟩)⟩
    | request u hu =>
      have hreach := h.executorReaches_started hu hb
      cases hu with
      | running hb' => simp [hb] at hb'
      | init r rest _ hh hr => exact ⟨r, rest, hh, .inl ⟨hr, hreach⟩⟩
      | draw r rest _ hh hr hl => exact ⟨r, rest, hh, .inr (.inl ⟨hr, hl, hreach⟩)⟩

/-- Settles O49: every command is a group, DRAW_PROG is its 18 calls. -/
theorem programsKeepFraming : Obligations.ProgramsKeepFraming := fun c fb cs dc hv =>
  ⟨framing_initProg c, framing_drawProg hv fb, writesMet_initProg c cs dc, writesMet_drawProg hv fb cs dc⟩

/-- Settles O7: ISSUE, the three answers and FINISH, one by one; then the answer in the clean-up, which the
machine's step gives the same way. -/
theorem executorIssuesAnswersFinishes : Obligations.ExecutorIssuesAnswersFinishes := by
  intro s hb
  refine ⟨fun hdraw => ?_, ?_⟩
  · have hc : cleaning s = none := by
      cases ho : s.op with
      | init => exact cleaning_init ho
      | draw => exact cleaning_no_error (hdraw ho)
    refine ⟨fun m hp hm => executorStep_issue hb hp hm, ?_, ?_, ?_, ?_⟩
    · intro m rs hp hm hr
      refine ⟨_, executorStep_ok hb hp hc (answer_ok_transport hm hr), by simp, by simp, by simp, by simpa, ?_⟩
      exact fun l => effectOk_latch m { s with transport := rs } l
    · intro ms ts hp ht
      exact executorStep_ok hb hp hc (answer_done rfl ht)
    · intro m e n rs hp hm hr
      refine ⟨_, executorStep_err hb hp hc (answer_err hm hr), by simp, by simp, by simp, ?_⟩
      exact fun l => effectErr_latch m e n { s with transport := rs } l
    · intro hp hu
      exact ⟨executorStep_finish hb hp (by simp [hu]), finish_busy s⟩
  · intro e r rs a ho he _ hp hr ha
    have hc : cleaning s = some e := by simpa [cleaning, ho] using he
    obtain ⟨u, hans, htrace, hcs, hdc, hrs, hlog⟩ := answer_csR hr ha
    have hstep : step s = .next (endCleanup e u) := by
      rw [step_resume hb (.inl (by simp [hp]))]
      simp [continueOp, hp, complete, hc, completeCleanup_answered hans]
    exact ⟨endCleanup e u, executorStep_cleanup hb hp hc hans, hstep, htrace, hcs, hdc, hrs, rfl, rfl, rfl,
      by simp [endCleanup, htrace, hlog]⟩

end

section
/-! The state after a list of calls of a DRAW before its payload, every call answered `Ok`. -/

namespace Sys2Proof.Machine

variable {E : Type} {s : State.Over E}

@[simp] theorem okCall_cs (m : MicroOp) (s : State.Over E) :
    (okCall m s).cs = latchOf .cs s.cs [(okEvent s.cfg m : Event E)] := readLine_okCall m s .cs

@[simp] theorem okCall_dc (m : MicroOp) (s : State.Over E) :
    (okCall m s).dc = latchOf .dc s.dc [(okEvent s.cfg m : Event E)] := readLine_okCall m s .dc

@[simp] theorem okCall_rst (m : MicroOp) (s : State.Over E) :
    (okCall m s).rst = latchOf .rst s.rst [(okEvent s.cfg m : Event E)] := readLine_okCall m s .rst

/-- R47: no pixel is read but by the payload write. -/
theorem effectOk_pix_before (h : s.upc < payloadIndex) (m : MicroOp) : (effectOk m s).pix = s.pix := by
  unfold effectOk
  split
  · simp
  · simp [writeDone, allRead, isPayload, h.ne]
  · simp

theorem okRun_pix_before {ops : List MicroOp} (h : s.upc + ops.length ≤ payloadIndex) :
    (okRun ops s).pix = s.pix := by
  induction ops generalizing s with
  | nil => rfl
  | cons m ms ih =>
    rw [List.length_cons] at h
    rw [okRun_cons, ih (by rw [okCall_upc]; omega)]
    simpa [okCall] using effectOk_pix_before (s := takeReply m (issue m s)) (by simp; omega) m

/-- Before the payload an answered list of sets and writes is its events, the latches they leave, the replies
taken, and what the controller made of it. -/
theorem okRun_eq {ops : List MicroOp} (hf : ∀ m ∈ ops, fallible m = true) (hp : s.pending = none)
    (hu : s.upc + ops.length ≤ payloadIndex) :
    okRun ops s =
      { s with
        cs := latchOf .cs s.cs (ops.map (okEvent (E := E) s.cfg))
        dc := latchOf .dc s.dc (ops.map (okEvent (E := E) s.cfg))
        rst := latchOf .rst s.rst (ops.map (okEvent (E := E) s.cfg))
        upc := s.upc + ops.length
        trace := s.trace ++ ops.map (okEvent s.cfg)
        ctl := (okRun ops s).ctl, fresh := (okRun ops s).fresh
        transport := s.transport.drop ops.length } := by
  obtain ⟨hcount, hwait⟩ := fallibleCount_of_fallible hf
  have hpending : (okRun ops s).pending = none := by
    by_cases hne : ops = []
    · rwa [hne]
    · exact okRun_pending hne s
  apply state_eq <;>
    simp [okRun_transport, okRun_timing, hcount, hwait, hpending, hp, okRun_pix_before hu]
  · exact readLine_okRun ops s .cs
  · exact readLine_okRun ops s .dc
  · exact readLine_okRun ops s .rst

/-- R112 to R114, R18: a wire command of a DRAW every call of which is answered `Ok`. -/
theorem exec_command_answered {s : State} {i : Instr} (hw : i.wf = true) (hi : i ≠ .init)
    (hd : ∀ fb len, i ≠ .draw fb len) (hb : s.busy = true) (hp : s.pending = none) (hferr : s.ferr = none)
    (hf : ∀ m ∈ commandOps s.cfg i, fallible m = true)
    (hr : s.transport.take (commandOps s.cfg i).length = List.replicate (commandOps s.cfg i).length .ok) :
    exec i s = .next (okRun (commandOps s.cfg i) s) := by
  obtain ⟨hcount, hwait⟩ := fallibleCount_of_fallible hf
  have hall : AllAnswered (commandOps s.cfg i) s := by
    rw [AllAnswered, hcount, hwait]
    exact ⟨hr, rfl⟩
  rw [exec_command_eq hw hi hd]
  simp [runCommand, hb, hp, runOps_allAnswered (cleaning_no_error hferr) hall, Progress.state]

end Sys2Proof.Machine
end

section
/-! The controller after a command of a DRAW (R55, R56), its opcode its own or another's too (D2, entry 12). -/

namespace Sys2Proof.Machine

variable {E : Type} {s : State.Over E} {c : Cfg}

theorem claimedPm_eq (c : Cfg) (k : Controller) :
    claimedPm c k = { k with pm := if sinkGiven c then k.pm else [] } := by
  unfold claimedPm
  split <;> rfl

/-- D2: the opcode is two or all of OP_CASET, OP_RASET, OP_RAMWR. -/
def severalOpcodes (c : Cfg) (op : Byte) : Prop :=
  op = c.opCaset ∧ op = c.opRaset ∨ op = c.opCaset ∧ op = c.opRamwr ∨ op = c.opRaset ∧ op = c.opRamwr

/-- D2: an opcode byte that is two or all of the three is none of them in particular (entry 12). -/
theorem sinkCommand_several {op : Byte} (h : severalOpcodes c op) (n : Nat) (k : Controller) :
    sinkCommand c n op k =
      { unsettle (decide (op = c.opCaset)) (decide (op = c.opRaset)) (decide (op = c.opRamwr)) n k with
        mode := .several (decide (op = c.opCaset)) (decide (op = c.opRaset)) (decide (op = c.opRamwr))
        args := [] } := by
  unfold sinkCommand
  split
  case h_5 => rfl
  all_goals simp_all [severalOpcodes]

/-- Of two draws of the same registers the later one counts, whatever else changed between them. -/
theorem unsettle_unsettle (column row pixels : Bool) (m n : Nat) (k : Controller) (mode : SinkMode)
    (args : List Byte) (pm : List (Nat × Pixel)) :
    unsettle column row pixels n { unsettle column row pixels m k with mode := mode, args := args, pm := pm } =
      { unsettle column row pixels n k with mode := mode, args := args, pm := pm } := by
  cases column <;> cases row <;> cases pixels <;> rfl

/-- Every data byte after such an opcode frees the same registers (entry 12). -/
theorem sinkBytes_several {k : Controller} {column row pixels : Bool} (hm : k.mode = .several column row pixels)
    (n : Nat) (b : Byte) (bytes : List Byte) :
    sinkBytes c n .d (b :: bytes) k = unsettle column row pixels n k := by
  induction bytes generalizing b k with
  | nil => simp [sinkBytes, sinkByte, sinkData, hm]
  | cons b' bytes ih =>
    have hb : sinkByte c n .d k b = unsettle column row pixels n k := by simp [sinkByte, sinkData, hm]
    calc sinkBytes c n .d (b :: b' :: bytes) k
        = sinkBytes c n .d (b' :: bytes) (sinkByte c n .d k b) := rfl
      _ = unsettle column row pixels n (unsettle column row pixels n k) := by
        rw [hb]
        exact ih (k := unsettle column row pixels n k) hm b'
      _ = unsettle column row pixels n k := unsettle_unsettle column row pixels n n k k.mode k.args k.pm

theorem okCall_fresh_set {m : MicroOp} {line : Line} {level : Level} (hm : callOf s.cfg m = .sigSet line level)
    (hr : sinkRuns s = true) : (okCall m s).fresh = s.fresh := by
  simpa [okCall] using (effectOk_set (s := takeReply m (issue m s)) (by simpa using hm)
    (by rwa [sinkRuns_congr (s := s) (by simp) (by simp) (by simp)])).2

theorem okCall_fresh_write {bytes : List Byte} {tag : Tag} (hr : sinkRuns s = true)
    (ht : tagOf s.cfg s.cs s.dc = some tag) :
    (okCall (.wr bytes) s).fresh = s.fresh + if sinkGiven s.cfg then 0 else 6 := by
  have h := (effectOk_write (s := takeReply (.wr bytes) (issue (.wr bytes) s)) (bytes := bytes) (t := tag)
    (by rwa [sinkRuns_congr (s := s) (by simp) (by simp) (by simp)]) (by simpa using ht)).2
  simp only [okCall, advance_fresh, h, takeReply_cfg, takeReply_fresh, issue_cfg, issue_fresh]
  split <;> rfl

@[simp] theorem sinkRuns_okCall (m : MicroOp) (s : State.Over E) : sinkRuns (okCall m s) = sinkRuns s :=
  sinkRuns_congr (by simp) (by simp) (by simp)

@[simp] theorem sinkRuns_okRun (ops : List MicroOp) (s : State.Over E) : sinkRuns (okRun ops s) = sinkRuns s :=
  sinkRuns_congr (by simp) (by simp) (by simp)

/-- R55, R56: a line set and a write after it deliver the bytes to a controller the spec gives, with the tag the
latches have then. -/
theorem okRun_set_write {m : MicroOp} {line : Line} {level : Level} {tag : Tag} (hr : sinkRuns s = true)
    (hm : callOf s.cfg m = .sigSet line level)
    (ht : tagOf s.cfg (okCall m s).cs (okCall m s).dc = some tag) (bytes : List Byte) :
    (okRun [m, .wr bytes] s).ctl = claimedPm s.cfg (sinkBytes s.cfg s.fresh tag bytes s.ctl) ∧
      (okRun [m, .wr bytes] s).fresh = s.fresh + if sinkGiven s.cfg then 0 else 6 := by
  have hr' : sinkRuns (okCall m s) = true := (sinkRuns_okCall ..).trans hr
  rw [← okCall_cfg m s] at ht
  simp only [okRun_cons, okRun_nil, okCall_ctl_write hr' ht, okCall_fresh_write hr' ht, okCall_cfg,
    okCall_ctl_set hm hr, okCall_fresh_set hm hr, and_self]

/-- R55, R56, R102: SEND_COMMAND sets both latches and delivers its opcode byte. -/
theorem okRun_sendCommand (hr : sinkRuns s = true) (op : Byte) :
    (okRun (sendCommand op) s).ctl = claimedPm s.cfg (sinkCommand s.cfg s.fresh op s.ctl) ∧
      (okRun (sendCommand op) s).fresh = s.fresh + (if sinkGiven s.cfg then 0 else 6) ∧
      (okRun (sendCommand op) s).cs = ofLevel s.cfg.csAssert := by
  have hcs : callOf s.cfg .csA = .sigSet .cs s.cfg.csAssert := rfl
  have htag : tagOf (okCall .csA s).cfg (okCall .dcC (okCall .csA s)).cs (okCall .dcC (okCall .csA s)).dc =
      some .c := by
    simp [okEvent, callOf, latchOf, latchAfter]
  obtain ⟨hctl, hfresh⟩ := okRun_set_write (m := .dcC) ((sinkRuns_okCall ..).trans hr) rfl htag [op]
  rw [okCall_ctl_set hcs hr, okCall_fresh_set hcs hr, okCall_cfg] at hctl
  rw [okCall_fresh_set hcs hr, okCall_cfg] at hfresh
  rw [sendCommand, okRun_cons, hctl, hfresh]
  exact ⟨rfl, rfl, by simp [okEvent, callOf, latchOf, latchAfter]⟩

/-- R55, R104: a group of an opcode and its parameters delivers the opcode, then the parameters as data. -/
theorem okRun_group (hr : sinkRuns s = true) (op : Byte) {params : List Byte} (hp : params ≠ []) :
    (okRun (group op params 0) s).ctl = claimedPm s.cfg (sinkBytes s.cfg
        (s.fresh + if sinkGiven s.cfg then 0 else 6) .d params
        (claimedPm s.cfg (sinkCommand s.cfg s.fresh op s.ctl))) ∧
      (okRun (group op params 0) s).fresh = s.fresh + if sinkGiven s.cfg then 0 else 12 := by
  obtain ⟨hctl, hfresh, hcs⟩ := okRun_sendCommand hr op
  have hsplit : group op params 0 = sendCommand op ++ [.dcD, .wr params] ++ [.csR] := by
    simp [group, sendParams, sendData, settle, hp]
  have hsent : sinkRuns (okRun (sendCommand op) s) = true := (sinkRuns_okRun ..).trans hr
  obtain ⟨hctl', hfresh'⟩ := okRun_set_write (m := .dcD) (tag := .d) hsent rfl
    (by simp [hcs, okEvent, callOf, latchOf, latchAfter]) params
  rw [hctl, hfresh, okRun_cfg] at hctl'
  rw [hfresh, okRun_cfg] at hfresh'
  have hdata : sinkRuns (okRun (sendCommand op ++ [.dcD, .wr params]) s) = true := (sinkRuns_okRun ..).trans hr
  rw [hsplit, okRun_append, okRun_cons, okRun_nil,
    okCall_ctl_set (m := .csR) rfl hdata, okCall_fresh_set (m := .csR) rfl hdata, okRun_append, hctl', hfresh']
  exact ⟨rfl, by split <;> rfl⟩

/-- D2: two equal window opcodes, and PM is not claimed. -/
theorem sinkGiven_several {op : Byte} (h : severalOpcodes c op) : sinkGiven c = false := by
  by_contra hg
  obtain ⟨-, hcr, hcw, hrw⟩ := sinkGiven_iff.1 (by simpa using hg)
  rcases h with ⟨h, h'⟩ | ⟨h, h'⟩ | ⟨h, h'⟩
  · exact hcr (h.symm.trans h')
  · exact hcw (h.symm.trans h')
  · exact hrw (h.symm.trans h')

/-! ### The commands of the window -/

theorem boundBytes_ne_nil (a b : Bound) : boundBytes a b ≠ [] := by simp [boundBytes, be16]

/-- R67, R104: the six calls of a group with two bounds. -/
theorem group_bounds (op : Byte) (a b : Bound) :
    group op (boundBytes a b) 0 = [.csA, .dcC, .wr [op], .dcD, .wr (boundBytes a b), .csR] := rfl

/-- R55, D2: a group whose opcode is several of the three frees what each of them may have changed. -/
theorem okRun_group_several (hr : sinkRuns s = true) {op : Byte} (hop : severalOpcodes s.cfg op) (a b : Bound) :
    (okRun (group op (boundBytes a b) 0) s).fresh = s.fresh + 12 ∧
      (okRun (group op (boundBytes a b) 0) s).ctl =
        { unsettle (decide (op = s.cfg.opCaset)) (decide (op = s.cfg.opRaset)) (decide (op = s.cfg.opRamwr))
            (s.fresh + 6) s.ctl with
          mode := .several (decide (op = s.cfg.opCaset)) (decide (op = s.cfg.opRaset))
            (decide (op = s.cfg.opRamwr))
          args := [], pm := [] } := by
  obtain ⟨hctl, hfresh⟩ := okRun_group hr op (boundBytes_ne_nil a b)
  have hg := sinkGiven_several hop
  rw [hctl, hfresh, sinkCommand_several hop, claimedPm_none hg, claimedPm_none hg, boundBytes, be16,
    List.cons_append, sinkBytes_several rfl, unsettle_unsettle, hg]
  exact ⟨rfl, rfl⟩

/-- R112, R113: a command that is a group with two bounds, every call answered `Ok`. -/
theorem exec_bounds_answered {s : State} {i : Instr} {op : Byte} {a b : Bound} (hw : i.wf = true) (hi : i ≠ .init)
    (hd : ∀ fb len, i ≠ .draw fb len) (hops : commandOps s.cfg i = group op (boundBytes a b) 0)
    (hb : s.busy = true) (hp : s.pending = none) (hferr : s.ferr = none) (hu : s.upc + 6 ≤ payloadIndex)
    (hr : s.transport.take 6 = List.replicate 6 .ok) :
    exec i s = .next
      { s with
        cs := ofLevel (invert s.cfg.csAssert), dc := ofLevel (invert s.cfg.dcCmd), upc := s.upc + 6
        trace := s.trace ++ [.set .cs s.cfg.csAssert .ok, .set .dc s.cfg.dcCmd .ok,
          .write [op] .ok, .set .dc (invert s.cfg.dcCmd) .ok,
          .write [BitVec.ofNat 8 (a.toNat / 256), BitVec.ofNat 8 (a.toNat % 256),
            BitVec.ofNat 8 (b.toNat / 256), BitVec.ofNat 8 (b.toNat % 256)] .ok,
          .set .cs (invert s.cfg.csAssert) .ok]
        ctl := (okRun (group op (boundBytes a b) 0) s).ctl
        fresh := (okRun (group op (boundBytes a b) 0) s).fresh
        transport := s.transport.drop 6 } := by
  have hf : ∀ m ∈ group op (boundBytes a b) 0, fallible m = true := by simp [group_bounds, fallible]
  rw [exec_command_answered hw hi hd hb hp hferr (hops ▸ hf) (hops ▸ hr), hops, okRun_eq hf hp hu,
    group_bounds]
  simp [okEvent, callOf, latchOf, latchAfter, boundBytes, be16_bytes]

/-- K13, R153: where the sink model is not given, each of the six calls draws its free values. -/
theorem okRun_bounds_unknown (hr : sinkRuns s = false) (op : Byte) (a b : Bound) :
    (okRun (group op (boundBytes a b) 0) s).fresh = s.fresh + 36 ∧
      (okRun (group op (boundBytes a b) 0) s).ctl = scrambled (s.fresh + 30) :=
  okRun_unknown (ops := group op (boundBytes a b) 0) hr

theorem windowArgsOk_iff {a b d e : Nat} :
    windowArgsOk c a b d e = true ↔ a ≤ b ∧ b < c.w ∧ d ≤ e ∧ e < c.h := by
  simp [windowArgsOk, and_assoc]

theorem columnsOk_iff {xs xe : Bound} : columnsOk xs xe = true ↔ xs.toNat ≤ xe.toNat ∧ xe.toNat ≤ 239 := by
  simp [columnsOk, Cfg.pw, Nat.lt_succ_iff]

theorem rowsOk_iff {ys ye : Bound} : rowsOk ys ye = true ↔ ys.toNat ≤ ye.toNat ∧ ye.toNat ≤ 319 := by
  simp [rowsOk, Cfg.ph, Nat.lt_succ_iff]

end Sys2Proof.Machine
end

section
/-! What a run of the calls of a DRAW leaves unchanged, whatever the answers, its clean-up too (R53, R57, R165). -/

namespace Sys2Proof.Machine

variable {E : Type} {s t u : State.Over E} {m : MicroOp}

/-- R147: the calls DRAW is made of: sets of chip-select and of the selector, and writes. -/
def isDrawCall : MicroOp → Bool
  | .csA | .csR | .dcC | .dcD | .wr _ => true
  | .rstA | .rstR | .wait _ => false

theorem fallible_of_isDrawCall (h : isDrawCall m = true) : fallible m = true := by
  cases m <;> simp_all [isDrawCall, fallible]

/-- The call stores no pixel, however much of it reaches the controller (R39, R55). -/
def StoresNothing (m : MicroOp) (s : State.Over E) : Prop :=
  ∀ bytes, m = .wr bytes → ∃ tag, tagOf s.cfg s.cs s.dc = some tag ∧
    ∀ n sent, (sinkBytes s.cfg n tag (bytes.take sent) s.ctl).pm = s.ctl.pm

theorem storesNothing_set {line : Line} {level : Level} (hm : callOf s.cfg m = .sigSet line level) :
    StoresNothing m s := by
  rintro bytes rfl
  cases hm

/-- A DRAW that ended or has an error latched (R165). -/
def Faulted (s : State.Over E) : Prop := ¬(s.busy = true ∧ s.ferr = none)

/-- What stays from `s` to `t` in a DRAW that stores no pixel: the reset line, the timing source, and every cell
but those of the window once the DRAW failed; where PM is not claimed a cell can lose its value any time. -/
structure CellsStay (s t : State.Over E) : Prop where
  cfg : t.cfg = s.cfg
  op : t.op = s.op
  known : controllerKnown t = controllerKnown s
  rst : t.rst = s.rst
  timing : t.timing = s.timing
  faulted : Faulted s → Faulted t
  memory : ∀ k, pmRead t.ctl.pm k = pmRead s.ctl.pm k ∨ pmRead t.ctl.pm k = none ∧
    (controllerKnown s = false ∨ inWindow s.cfg k = true ∧ Faulted t)

theorem CellsStay.refl (s : State.Over E) : CellsStay s s :=
  ⟨rfl, rfl, rfl, rfl, rfl, id, fun _ => .inl rfl⟩

theorem CellsStay.trans (h : CellsStay s t) (h' : CellsStay t u) : CellsStay s u where
  cfg := h'.cfg.trans h.cfg
  op := h'.op.trans h.op
  known := h'.known.trans h.known
  rst := h'.rst.trans h.rst
  timing := h'.timing.trans h.timing
  faulted := h'.faulted ∘ h.faulted
  memory k := by
    have hk := h.memory k
    have hk' := h'.memory k
    rw [h.known, h.cfg] at hk'
    rcases hk' with hk' | hk'
    · rw [hk']
      exact hk.imp_right (And.imp_right (Or.imp_right (And.imp_right h'.faulted)))
    · exact .inr hk'

/-- The call issued, the replies left, the position and `pix` are no part of it. -/
theorem cellsStay_position (p : Option MicroOp) (rs : List (Reply E)) (k n : Nat) :
    CellsStay s { s with pending := p, transport := rs, pix := k, upc := n } :=
  ⟨rfl, rfl, rfl, rfl, rfl, id, fun _ => .inl rfl⟩

/-! ### One call -/

theorem isDrawCall_cases (h : isDrawCall m = true) (c : Cfg) :
    (∃ line level, line ≠ .rst ∧ callOf c m = .sigSet line level) ∨ ∃ bytes, m = .wr bytes := by
  cases m <;> simp_all [isDrawCall, callOf]

/-- R147: a call of DRAW is no set of the reset line, whatever its answer. -/
theorem latchOf_rst_okEvent (h : isDrawCall m = true) (c : Cfg) (v : Latch) :
    latchOf .rst v [(okEvent c m : Event E)] = v := by
  rcases isDrawCall_cases h c with ⟨line, level, hline, hset⟩ | ⟨bytes, rfl⟩
  · simp [okEvent, hset, latchOf, hline]
  · rfl

theorem latchOf_rst_errEvent (h : isDrawCall m = true) (c : Cfg) (v : Latch) (e : E) :
    latchOf .rst v [errEvent c e m] = v := by
  rcases isDrawCall_cases h c with ⟨line, level, hline, hset⟩ | ⟨bytes, rfl⟩
  · simp [errEvent, hset, latchOf, hline]
  · rfl

theorem StoresNothing.pm_effectOk (hs : StoresNothing m s) (hd : isDrawCall m = true)
    (hk : controllerKnown s = true) : (effectOk m s).ctl.pm = s.ctl.pm := by
  obtain ⟨hr, hg⟩ := controllerKnown_iff.1 hk
  rcases isDrawCall_cases hd s.cfg with ⟨line, level, -, hset⟩ | ⟨bytes, rfl⟩
  · rw [(effectOk_set hset hr).1]
  · obtain ⟨tag, htag, hpm⟩ := hs bytes rfl
    have hall := hpm s.fresh bytes.length
    rwa [List.take_length, ← claimedPm_given hg (sinkBytes ..), ← (effectOk_write hr htag).1] at hall

theorem StoresNothing.pm_effectErr (hs : StoresNothing m s) (hd : isDrawCall m = true)
    (hk : controllerKnown s = true) (e : E) (n : Nat) : (effectErr m e n s).ctl.pm = s.ctl.pm := by
  obtain ⟨hr, hg⟩ := controllerKnown_iff.1 hk
  rcases isDrawCall_cases hd s.cfg with ⟨line, level, -, hset⟩ | ⟨bytes, rfl⟩
  · exact effectErr_set_pm hset hr
  · obtain ⟨tag, htag, hpm⟩ := hs bytes rfl
    rw [effectErr_write_pm hr htag, claimedPm_given hg, hpm]

/-- A call answered `Ok` that stores no pixel, issued or about to be, and its reply taken. -/
theorem cellsStay_effectOk (hd : isDrawCall m = true) (hs : controllerKnown s = true → StoresNothing m s)
    (p : Option MicroOp) (rs : List (Reply E)) :
    CellsStay s (effectOk m { s with pending := p, transport := rs }) where
  cfg := by simp
  op := by simp
  known := controllerKnown_congr (by simp) (by simp) (by simp)
  rst := (effectOk_latch m _ .rst).trans (latchOf_rst_okEvent hd s.cfg s.rst)
  timing := by simp
  faulted := by simp [Faulted]
  memory k := by
    cases hk : controllerKnown s with
    | true =>
      have hpm := StoresNothing.pm_effectOk (s := { s with pending := p, transport := rs }) (hs hk) hd hk
      exact .inl (by rw [hpm])
    | false =>
      rcases effectOk_unclaimed (s := { s with pending := p, transport := rs }) hk m with h | h <;> simp [h, pmRead]

/-- A call answered `Err(e)` that stores no pixel, before the fault is taken. -/
theorem cellsStay_effectErr (hd : isDrawCall m = true) (hs : controllerKnown s = true → StoresNothing m s)
    (e : E) (n : Nat) (p : Option MicroOp) (rs : List (Reply E)) :
    CellsStay s (effectErr m e n { s with pending := p, transport := rs }) where
  cfg := by simp
  op := by simp
  known := controllerKnown_congr (by simp) (by simp) (by simp)
  rst := (effectErr_latch m e n _ .rst).trans (latchOf_rst_errEvent hd s.cfg s.rst e)
  timing := by simp
  faulted := by simp [Faulted]
  memory k := by
    cases hk : controllerKnown s with
    | true =>
      have hpm := StoresNothing.pm_effectErr (s := { s with pending := p, transport := rs }) (hs hk) hd hk e n
      exact .inl (by rw [hpm])
    | false =>
      rcases effectErr_unclaimed (s := { s with pending := p, transport := rs }) hk m e n with h | h <;>
        simp [h, pmRead]

/-- R57, R165: the DRAW failed: what it loses is in the window. -/
theorem cellsStay_windowLost (hcfg : t.cfg = s.cfg) (hop : t.op = s.op) (hctrl : t.ctrl = s.ctrl)
    (hrst : t.rst = s.rst) (htiming : t.timing = s.timing) (hf : Faulted t)
    (hctl : t.ctl = (windowLost s).ctl) : CellsStay s t where
  cfg := hcfg
  op := hop
  known := controllerKnown_congr hctrl hop hcfg
  rst := hrst
  timing := htiming
  faulted _ := hf
  memory k := by
    rw [hctl]
    cases hk : inWindow s.cfg k with
    | true => exact .inr ⟨pmRead_forgetWindow _ hk, .inr ⟨rfl, hf⟩⟩
    | false => exact .inl (keepsOutside_windowLost s k hk)

theorem cellsStay_endCleanup (e : E) (s : State.Over E) : CellsStay s (endCleanup e s) :=
  cellsStay_windowLost rfl rfl rfl rfl rfl (by simp [Faulted, endCleanup]) rfl

theorem cellsStay_takeBusFault (ho : s.op = .draw) (e : E) : CellsStay s (takeBusFault e s) := by
  by_cases hu : s.upc < 17
  · rw [takeBusFault_draw ho hu]
    exact cellsStay_windowLost rfl rfl rfl rfl rfl (by simp [Faulted]) rfl
  · rw [takeBusFault_draw_last ho hu]
    exact cellsStay_windowLost rfl rfl rfl rfl rfl (by simp [Faulted]) rfl

/-- R98: the answer to a call that can fail takes nothing from the timing source. -/
theorem answer_fallible_cases (hf : fallible m = true) (s : State.Over E) :
    (∃ rs k, answer m s = .waiting { s with transport := rs, pix := k }) ∨
    (∃ rs, answer m s = .ok (effectOk m { s with transport := rs })) ∨
    (∃ e n rs, answer m s = .err e (effectErr m e n { s with transport := rs })) := by
  simp only [answer, hf, if_true, answerTransport]
  split
  · exact .inl ⟨s.transport, s.pix, rfl⟩
  · next rs _ =>
    refine .inl ⟨rs, (readAhead { s with transport := rs }).pix, ?_⟩
    unfold readAhead
    split <;> rfl
  · next rs _ => exact .inr (.inl ⟨rs, rfl⟩)
  · next e n rs _ => exact .inr (.inr ⟨e, n, rs, rfl⟩)

/-- R150: the answer to a call of a DRAW in its clean-up. -/
theorem cellsStay_completeCleanup (hd : isDrawCall m = true) (hs : controllerKnown s = true → StoresNothing m s)
    (e : E) : CellsStay s (completeCleanup e m s) := by
  unfold completeCleanup
  rcases answer_fallible_cases (fallible_of_isDrawCall hd) s with ⟨rs, k, ha⟩ | ⟨rs, ha⟩ | ⟨e', n, rs, ha⟩ <;>
    rw [ha]
  · exact cellsStay_position s.pending rs k s.upc
  · exact (cellsStay_effectOk hd hs s.pending rs).trans (cellsStay_endCleanup e _)
  · exact (cellsStay_effectErr hd hs e' n s.pending rs).trans (cellsStay_endCleanup e _)

/-- R163 to R165: the fault taken, and the release that follows it. -/
theorem cellsStay_afterFault (hb : s.busy = true) (ho : s.op = .draw) (e : E) :
    CellsStay s (afterFault (takeBusFault e s)) := by
  by_cases hu : s.upc < 17
  · rw [afterFault_draw ho hb hu, ← takeBusFault_draw ho hu]
    exact (cellsStay_takeBusFault ho e).trans ((cellsStay_position (some .csR) _ _ _).trans
      (cellsStay_completeCleanup rfl (fun _ => storesNothing_set rfl) e))
  · rw [afterFault_draw_last ho hu]
    exact cellsStay_takeBusFault ho e

/-! ### A list of calls -/

/-- Every call of the list stores no pixel, those before it answered `Ok`. -/
def AllStoreNothing : List MicroOp → State.Over E → Prop
  | [], _ => True
  | m :: ms, s => StoresNothing m s ∧ AllStoreNothing ms (okCall m s)

theorem allStoreNothing_append (xs ys : List MicroOp) (s : State.Over E) :
    AllStoreNothing (xs ++ ys) s ↔ AllStoreNothing xs s ∧ AllStoreNothing ys (okRun xs s) := by
  induction xs generalizing s with
  | nil => simp [AllStoreNothing]
  | cons m ms ih => simp [AllStoreNothing, ih, and_assoc]

theorem cellsStay_okCall (hd : isDrawCall m = true) (hs : controllerKnown s = true → StoresNothing m s) :
    CellsStay s (okCall m s) := by
  have hreply : takeReply m (issue m s) = { s with pending := some m, transport := s.transport.tail } := by
    simp [takeReply, fallible_of_isDrawCall hd, issue]
  rw [okCall, hreply]
  exact (cellsStay_effectOk hd hs (some m) s.transport.tail).trans (cellsStay_position ..)

theorem cellsStay_okRun {ops : List MicroOp} (hd : ∀ m ∈ ops, isDrawCall m = true)
    (hs : controllerKnown s = true → AllStoreNothing ops s) : CellsStay s (okRun ops s) := by
  induction ops generalizing s with
  | nil => exact .refl s
  | cons m ms ih =>
    obtain ⟨hm, hms⟩ := List.forall_mem_cons.1 hd
    have hcall := cellsStay_okCall hm fun hk => (hs hk).1
    exact hcall.trans (ih hms fun hk => (hs (hcall.known.symm.trans hk)).2)

/-- R18, R99, R150: a list of calls of a DRAW that stores no pixel, run in it whatever the answers, the DRAW in
its clean-up or not. -/
theorem cellsStay_runOps {ops : List MicroOp} (hb : s.busy = true) (ho : s.op = .draw)
    (hd : ∀ m ∈ ops, isDrawCall m = true) (hs : controllerKnown s = true → AllStoreNothing ops s) :
    CellsStay s (runOps ops s).state := by
  cases hc : cleaning s with
  | some e =>
    cases ops with
    | nil => exact .refl s
    | cons m ms =>
      have hm : isDrawCall m = true := hd m (by simp)
      simp only [runOps, call, complete, cleaning_issue, hc]
      exact (cellsStay_position (some m) _ _ _).trans
        (cellsStay_completeCleanup (s := issue m s) hm (fun hk => (hs hk).1) e)
  | none =>
    rcases runOps_cases ops hc with ⟨-, hrun⟩ | ⟨pre, m, post, rfl, -, hstop⟩
    · rw [hrun]
      exact cellsStay_okRun hd hs
    · have hm : isDrawCall m = true := hd m (by simp)
      have hpre := cellsStay_okRun (s := s) (fun m hm => hd m (List.mem_append_left _ hm))
        fun hk => ((allStoreNothing_append ..).1 (hs hk)).1
      have hsm : controllerKnown (okRun pre s) = true → StoresNothing m (okRun pre s) := fun hk =>
        ((allStoreNothing_append ..).1 (hs (hpre.known.symm.trans hk))).2.1
      rcases hstop with ⟨t, ht, hrun⟩ | ⟨-, e, n, rs, -, hrun⟩ <;> rw [hrun] <;> refine hpre.trans ?_
      · rcases answer_fallible_cases (fallible_of_isDrawCall hm) (issue m (okRun pre s)) with
          ⟨rs, k, ha⟩ | ⟨rs, ha⟩ | ⟨e', n, rs, ha⟩ <;> rw [ha] at ht <;> cases ht
        exact cellsStay_position (some m) rs k _
      · exact (cellsStay_effectErr hm hsm e n (some m) rs).trans
          (cellsStay_afterFault (by simpa using hb) (by simpa using ho) e)

/-! ### CASET, RASET, RAMWR -/

/-- R55: SEND_COMMAND stores no pixel, whatever the controller was in the middle of (K26). -/
theorem allStoreNothing_sendCommand (s : State.Over E) (op : Byte) : AllStoreNothing (sendCommand op) s := by
  refine ⟨storesNothing_set rfl, storesNothing_set rfl, ?_, trivial⟩
  intro bytes h
  cases h
  refine ⟨.c, by simp [okEvent, callOf, latchOf, latchAfter], fun n sent => ?_⟩
  exact pm_sinkBytes_command ..

/-- R55: nor does a group of an opcode that asks for bounds and two bounds. -/
theorem allStoreNothing_group (hk : controllerKnown s = true) {op : Byte}
    (hop : ((sinkCommand s.cfg s.fresh op s.ctl).mode = .column ∨ (sinkCommand s.cfg s.fresh op s.ctl).mode = .row) ∧
      (sinkCommand s.cfg s.fresh op s.ctl).args = []) (a b : Bound) :
    AllStoreNothing (group op (boundBytes a b) 0) s := by
  obtain ⟨hr, hg⟩ := controllerKnown_iff.1 hk
  obtain ⟨hctl, -, hcs⟩ := okRun_sendCommand hr op
  have hsent : sinkRuns (okRun (sendCommand op) s) = true := (sinkRuns_okRun ..).trans hr
  have hctl' : (okCall .dcD (okRun (sendCommand op) s)).ctl = sinkCommand s.cfg s.fresh op s.ctl := by
    rw [okCall_ctl_set (m := .dcD) rfl hsent, hctl, claimedPm_given hg]
  refine (allStoreNothing_append (sendCommand op) [.dcD, .wr (boundBytes a b), .csR] s).2
    ⟨allStoreNothing_sendCommand s op, storesNothing_set rfl, ?_, storesNothing_set rfl, trivial⟩
  intro bytes h
  cases h
  refine ⟨.d, by simp [hcs, okEvent, callOf, latchOf, latchAfter], fun n sent => ?_⟩
  rw [hctl']
  exact pm_sinkBytes_bounds _ n hop.1 hop.2 a b sent

theorem allStoreNothing_caset (hk : controllerKnown s = true) (xs xe : Bound) :
    AllStoreNothing (casetOps s.cfg xs xe) s := by
  obtain ⟨-, hcr, hcw, -⟩ := sinkGiven_iff.1 (controllerKnown_iff.1 hk).2
  exact allStoreNothing_group hk (by simp [sinkCommand_caset hcr hcw]) xs xe

theorem allStoreNothing_raset (hk : controllerKnown s = true) (ys ye : Bound) :
    AllStoreNothing (rasetOps s.cfg ys ye) s := by
  obtain ⟨-, hcr, -, hrw⟩ := sinkGiven_iff.1 (controllerKnown_iff.1 hk).2
  exact allStoreNothing_group hk (by simp [sinkCommand_raset hcr hrw]) ys ye

/-- R112 to R114: the three commands of the window, whatever the answers. -/
theorem cellsStay_drawCommand {i : Instr}
    (hi : (∃ xs xe, i = .caset xs xe) ∨ (∃ ys ye, i = .raset ys ye) ∨ i = .ramwr) (hb : s.busy = true)
    (ho : s.op = .draw) : CellsStay s (runOps (commandOps s.cfg i) s).state := by
  rcases hi with ⟨xs, xe, rfl⟩ | ⟨ys, ye, rfl⟩ | rfl
  · exact cellsStay_runOps hb ho (by simp [commandOps, casetOps, group_bounds, isDrawCall])
      fun hk => allStoreNothing_caset hk xs xe
  · exact cellsStay_runOps hb ho (by simp [commandOps, rasetOps, group_bounds, isDrawCall])
      fun hk => allStoreNothing_raset hk ys ye
  · exact cellsStay_runOps hb ho (by simp [commandOps, ramwrOps, sendCommand, isDrawCall])
      fun _ => allStoreNothing_sendCommand s _

end Sys2Proof.Machine
end

section
/-! The obligations of the window (41_addressing_window.md). -/

open Sys2Proof Sys2Proof.Machine

/-- Settles O29: the six calls of the group, answered; then what the controller makes of an opcode that is CASET's
alone, of one that is another's too, and of any byte where the sink model is not given. -/
theorem casetCompletes : Obligations.CasetCompletes := by
  intro s xs xe hb ho hp hferr hu hle hmax hr
  have hexec := exec_bounds_answered (i := .caset xs xe) (columnsOk_iff.2 ⟨hle, hmax⟩) (by simp) (by simp) rfl hb hp
    hferr (by simp [hu, payloadIndex]) hr
  rw [hu] at hexec
  refine ⟨_, _, hexec, ?_, ?_, fun h => okRun_bounds_unknown h _ xs xe⟩
  · intro h hcr hcw
    obtain ⟨hctl, hfresh⟩ := okRun_group h s.cfg.opCaset (boundBytes_ne_nil xs xe)
    rw [hctl, hfresh, sinkCommand_caset hcr hcw, claimedPm_eq, claimedPm_eq, sinkBytes_columns _ _ _ _ rfl rfl]
    exact ⟨rfl, by cases sinkGiven s.cfg <;> rfl⟩
  · intro h heq
    simpa using okRun_group_several h (op := s.cfg.opCaset) (heq.imp (⟨rfl, ·⟩) fun h => .inl ⟨rfl, h⟩) xs xe

/-- Settles O30: as O29, with the rows. -/
theorem rasetCompletes : Obligations.RasetCompletes := by
  intro s ys ye hb ho hp hferr hu hle hmax hr
  have hexec := exec_bounds_answered (i := .raset ys ye) (rowsOk_iff.2 ⟨hle, hmax⟩) (by simp) (by simp) rfl hb hp
    hferr (by simp [hu, payloadIndex]) hr
  rw [hu] at hexec
  refine ⟨_, _, hexec, ?_, ?_, fun h => okRun_bounds_unknown h _ ys ye⟩
  · intro h hrc hrw
    obtain ⟨hctl, hfresh⟩ := okRun_group h s.cfg.opRaset (boundBytes_ne_nil ys ye)
    rw [hctl, hfresh, sinkCommand_raset hrc.symm hrw, claimedPm_eq, claimedPm_eq, sinkBytes_rows _ _ _ _ rfl rfl]
    exact ⟨rfl, by cases sinkGiven s.cfg <;> rfl⟩
  · intro h heq
    simpa using okRun_group_several h (op := s.cfg.opRaset)
      (heq.imp (⟨·, rfl⟩) fun h => .inr ⟨rfl, h⟩) ys ye

/-- Settles O31: the three calls of SEND_COMMAND, answered; then the controller, as for CASET. -/
theorem ramwrCompletes : Obligations.RamwrCompletes := by
  intro s hb ho hp hferr hu hr
  have hf : ∀ m ∈ ramwrOps s.cfg, fallible m = true := by simp [ramwrOps, sendCommand, fallible]
  have hexec : exec .ramwr s = .next (okRun (ramwrOps s.cfg) s) :=
    exec_command_answered rfl (by simp) (by simp) hb hp hferr hf hr
  rw [okRun_eq hf hp (by simp [hu, payloadIndex, ramwrOps, sendCommand])] at hexec
  refine ⟨(okRun (ramwrOps s.cfg) s).ctl, (okRun (ramwrOps s.cfg) s).fresh, ?_, ?_, ?_, ?_⟩
  · rw [hexec]
    simp [ramwrOps, sendCommand, okEvent, callOf, latchOf, latchAfter, hu]
  · intro h hwc hwr
    obtain ⟨hctl, hfresh, -⟩ := okRun_sendCommand h s.cfg.opRamwr
    rw [ramwrOps, hctl, hfresh, sinkCommand_ramwr hwc.symm hwr.symm, claimedPm_eq]
    exact ⟨rfl, rfl⟩
  · intro h heq
    have hop : severalOpcodes s.cfg s.cfg.opRamwr := .inr (heq.imp (⟨·, rfl⟩) (⟨·, rfl⟩))
    obtain ⟨hctl, hfresh, -⟩ := okRun_sendCommand h s.cfg.opRamwr
    have hg := sinkGiven_several hop
    rw [ramwrOps, hctl, hfresh, sinkCommand_several hop, claimedPm_none hg, hg]
    simp
  · intro h
    obtain ⟨hfresh, hctl⟩ := okRun_unknown (ops := ramwrOps s.cfg) h
    exact ⟨hfresh, hctl⟩

/-- Settles O35: the bounds of the full window, which fit 16 bits in a valid configuration. -/
theorem fullWindowBounds : Obligations.FullWindowBounds := by
  intro c hv
  obtain ⟨hxs, hxe, hys, hye⟩ := fullWindow_bounds hv
  have hb := valid_bounds hv
  refine ⟨_, _, _, _, fun _ => rfl, rfl, hxs, hxe, hys, hye, ?_, ?_, ?_⟩
  · rw [hxs, hxe, hys, hye, show c.cOff + c.w - 1 - c.cOff + 1 = c.w by omega,
      show c.rOff + c.h - 1 - c.rOff + 1 = c.h by omega]
  · rw [columnsOk_iff]
    omega
  · rw [rowsOk_iff]
    omega

/-- Settles O56: inside the operation by `Within`; the reset line, the timing source and the cells by
`CellsStay`, since none of the three commands stores a pixel. -/
theorem drawCommandsFrame : Obligations.DrawCommandsFrame := by
  intro s t i ho hi h
  obtain ⟨hb, -, rfl⟩ := exec_command_inv h (by rintro rfl; simp at hi) (by rintro _ _ rfl; simp at hi)
  have hw := (within_runOps (ms := commandOps s.cfg i) hb).1
  have hc := cellsStay_drawCommand hi hb ho
  refine ⟨hc.rst, hw.inDraw ho, hw.cfg, hc.timing, hw.host, hw.fresh, hw.op, fun ht => ?_, fun hk k hcell => ?_,
    fun _ k => (hc.memory k).imp_right And.left⟩
  · obtain ⟨-, hfb, hlog, -⟩ := hw.going ht
    exact ⟨hfb, hlog⟩
  · rcases hc.memory k with hsame | ⟨-, hunknown | ⟨hin, hfaulted⟩⟩
    · exact hsame
    · simp [hk] at hunknown
    · rcases hcell with hgoing | hout
      · exact absurd hgoing hfaulted
      · simp [hin] at hout

/-- Settles O32: the bounds are looked at before anything else. -/
theorem windowOutOfRangeRefused : Obligations.WindowOutOfRangeRefused := fun _ _ _ =>
  ⟨fun h => if_neg (mt columnsOk_iff.1 h), fun h => if_neg (mt rowsOk_iff.1 h)⟩

/-- Settles O34: the check is the precondition of R116, and the offsets are added on its one side. -/
theorem setWindowChecksArguments : Obligations.SetWindowChecksArguments := fun _ _ _ _ _ =>
  ⟨fun h => if_pos (windowArgsOk_iff.2 h), fun h => if_neg (mt windowArgsOk_iff.1 h)⟩

end

section
/-! The groups INIT_PROG is made of (R104, R108): their sizes, their events, the latches these leave and their
wire view. -/

namespace Sys2Proof.Machine

variable {E : Type} {c : Cfg} {m : MicroOp}

/-! ### Sizes (R109) -/

/-- R108: a delay is one `WAIT`, or none if it is 0. -/
theorem settle_counts (d : Nat) :
    fallibleCount (settle d) = 0 ∧ writeCount (settle d) = 0 ∧
      waitCount (settle d) = if d = 0 then 0 else 1 := by
  unfold settle
  split <;> simp [fallibleCount, writeCount, waitCount, fallible, isWrite]

theorem filter_settle (d : Nat) : (settle d).filter fallible = [] := by
  unfold settle
  split <;> rfl

/-- R104: `CS_A`, `DC_C`, the opcode and `CS_R`; `DC_D` and one write more if there are parameters. -/
theorem fallibleCount_group (op : Byte) (params : List Byte) (d : Nat) :
    fallibleCount (group op params d) = if params = [] then 4 else 6 := by
  rw [group, fallibleCount_append, (settle_counts d).1, sendParams]
  split <;> rfl

theorem writeCount_group (op : Byte) (params : List Byte) (d : Nat) :
    writeCount (group op params d) = if params = [] then 1 else 2 := by
  rw [group, writeCount_append, (settle_counts d).2.1, sendParams]
  split <;> rfl

theorem waitCount_group (op : Byte) (params : List Byte) (d : Nat) :
    waitCount (group op params d) = if d = 0 then 0 else 1 := by
  rw [group, waitCount_append, (settle_counts d).2.2, sendParams]
  split <;> exact Nat.zero_add _

theorem length_eq_counts (ops : List MicroOp) : ops.length = fallibleCount ops + waitCount ops := by
  simpa [fallibleCount, waitCount] using List.length_eq_countP_add_countP fallible (l := ops)

theorem fallibleCount_entries (es : List Entry) :
    fallibleCount (es.flatMap entryOps) = (es.map fun e => if e.params = [] then 4 else 6).sum := by
  induction es with
  | nil => rfl
  | cons e es ih =>
    rw [List.flatMap_cons, fallibleCount_append, ih, entryOps, fallibleCount_group, List.map_cons, List.sum_cons]

theorem writeCount_entries (es : List Entry) :
    writeCount (es.flatMap entryOps) = (es.map fun e => if e.params = [] then 1 else 2).sum := by
  induction es with
  | nil => rfl
  | cons e es ih =>
    rw [List.flatMap_cons, writeCount_append, ih, entryOps, writeCount_group, List.map_cons, List.sum_cons]

/-- R108: one `WAIT` for each delay that is not 0. -/
theorem waitCount_entries (es : List Entry) :
    waitCount (es.flatMap entryOps) = (es.map (·.postDelay)).countP fun d => decide (0 < d) := by
  induction es with
  | nil => rfl
  | cons e es ih =>
    rw [List.flatMap_cons, waitCount_append, ih, entryOps, waitCount_group, List.map_cons, List.countP_cons]
    rcases Nat.eq_zero_or_pos e.postDelay with h | h
    · simp [h]
    · simp [h, h.ne', Nat.add_comm]

/-- R124: three sets of the reset line and up to three delays. -/
theorem hwReset_counts (c : Cfg) :
    fallibleCount (hwReset c) = 3 ∧ writeCount (hwReset c) = 0 ∧
      waitCount (hwReset c) =
        [c.tRstPre, c.tRstActive, c.tRstPost].countP fun d => decide (0 < d) := by
  refine ⟨?_, ?_, ?_⟩
  · simp only [hwReset, fallibleCount_append, settle_counts]
    rfl
  · simp only [hwReset, writeCount_append, settle_counts]
    rfl
  · simp only [hwReset, waitCount_append, settle_counts, List.countP_cons, List.countP_nil]
    simp [waitCount, fallible, Nat.pos_iff_ne_zero]
    ac_rfl

theorem fallibleCount_initProg_ne_zero (c : Cfg) : fallibleCount (initProg c) ≠ 0 := by
  rw [initProg, fallibleCount_append, (hwReset_counts c).1]
  omega

/-! ### Events, latches and wire view -/

/-- R104, R90 to R97: the events of a group every call of which is answered. -/
theorem events_group (c : Cfg) (op : Byte) (params : List Byte) (d : Nat) :
    (group op params d).map (okEvent (E := E) c) =
      [.set .cs c.csAssert .ok, .set .dc c.dcCmd .ok, .write [op] .ok] ++
        (if params = [] then [] else [.set .dc (invert c.dcCmd) .ok, .write params .ok]) ++
        [.set .cs (invert c.csAssert) .ok] ++ (if d = 0 then [] else [.delay d]) := by
  by_cases hp : params = [] <;> by_cases hd : d = 0 <;>
    simp [group, sendCommand, sendParams, sendData, settle, okEvent, callOf, hp, hd]

/-- R104: a group leaves chip-select released, whatever it held. -/
theorem latchOf_cs_group (op : Byte) (params : List Byte) (d : Nat) (v : Latch) :
    latchOf .cs v ((group op params d).map (okEvent (E := E) c)) = ofLevel (invert c.csAssert) := by
  rw [events_group]
  by_cases hp : params = [] <;> by_cases hd : d = 0 <;> simp [hp, hd, latchOf, latchAfter]

/-- R104: and the selector at the level of what it sent last. -/
theorem latchOf_dc_group (op : Byte) (params : List Byte) (d : Nat) (v : Latch) :
    latchOf .dc v ((group op params d).map (okEvent (E := E) c)) =
      if params = [] then ofLevel c.dcCmd else ofLevel (invert c.dcCmd) := by
  rw [events_group]
  by_cases hp : params = [] <;> by_cases hd : d = 0 <;> simp [hp, hd, latchOf, latchAfter]

theorem latchOf_settle (l : Line) (v : Latch) (d : Nat) :
    latchOf l v ((settle d).map (okEvent (E := E) c)) = v := by
  unfold settle
  split <;> rfl

/-- R94, R95: the two sets of the reset line. -/
def setsReset : MicroOp → Bool
  | .rstA | .rstR => true
  | .csA | .csR | .dcC | .dcD | .wr _ | .wait _ => false

theorem latchOf_rst_ok (h : setsReset m = false) (v : Latch) :
    latchOf .rst v [(okEvent c m : Event E)] = v := by
  cases m with
  | rstA | rstR => cases h
  | csA | csR | dcC | dcD | wr | wait => rfl

theorem latchOf_rst_err (h : setsReset m = false) (v : Latch) (e : E) :
    latchOf .rst v [errEvent c e m] = v := by
  cases m with
  | rstA | rstR => cases h
  | csA | csR | dcC | dcD | wr | wait => rfl

/-- R23: a list without a set of the reset line leaves its latch. -/
theorem latchOf_rst_events {ops : List MicroOp} (h : ∀ m ∈ ops, setsReset m = false) (v : Latch) :
    latchOf .rst v (ops.map (okEvent (E := E) c)) = v := by
  induction ops with
  | nil => rfl
  | cons m ms ih =>
    obtain ⟨hm, hms⟩ := List.forall_mem_cons.1 h
    rw [List.map_cons, ← List.singleton_append, latchOf_append, latchOf_rst_ok hm, ih hms]

/-- R104: a group has no set of the reset line. -/
theorem setsReset_group {op : Byte} {params : List Byte} {d : Nat} (h : m ∈ group op params d) :
    setsReset m = false := by
  have hall : (group op params d).all (fun m => !setsReset m) = true := by
    by_cases hp : params = [] <;> by_cases hd : d = 0 <;>
      simp [group, sendCommand, sendParams, sendData, settle, setsReset, hp, hd]
  simpa using List.all_eq_true.1 hall m h

theorem setsReset_entries {es : List Entry} (h : m ∈ es.flatMap entryOps) : setsReset m = false := by
  obtain ⟨e, -, hm⟩ := List.mem_flatMap.1 h
  exact setsReset_group hm

/-- R124, R134: the hardware reset leaves the reset line inactive, and no entry of TAB sets it. -/
theorem latchOf_rst_initProg (c : Cfg) (v : Latch) :
    latchOf .rst v ((initProg c).map (okEvent (E := E) c)) = ofLevel (invert c.rstActive) := by
  rw [initProg, List.map_append, latchOf_append, latchOf_rst_events fun _ => setsReset_entries]
  simp only [hwReset, List.map_append, latchOf_append, latchOf_settle]
  rfl

/-- R134: INIT_PROG ends with DISPON, which leaves chip-select released and the selector at command level. -/
theorem latchOf_initProg (c : Cfg) (cs dc : Latch) :
    latchOf .cs cs ((initProg c).map (okEvent (E := E) c)) = ofLevel (invert c.csAssert) ∧
      latchOf .dc dc ((initProg c).map (okEvent (E := E) c)) = ofLevel c.dcCmd := by
  have hlast : ∃ before, initProg c = before ++ group c.opDispon [] 0 :=
    ⟨_, by simp [initProg, tab, entryOps, List.flatMap_append, ← List.append_assoc]; rfl⟩
  obtain ⟨before, hprog⟩ := hlast
  rw [hprog, List.map_append, latchOf_append, latchOf_append]
  exact ⟨latchOf_cs_group .., latchOf_dc_group ..⟩

/-- R64: delays and sets of the reset line are not in the wire view. -/
theorem wireFrom_settle (cs dc : Latch) (d : Nat) (rest : List (Event E)) :
    wireFrom c cs dc ((settle d).map (okEvent c) ++ rest) = wireFrom c cs dc rest := by
  unfold settle
  split <;> rfl

/-- R65, R66, R68: a group on the wire: the opcode as a command, the parameters as data, the group end. -/
theorem wireFrom_group (cs dc : Latch) (op : Byte) (params : List Byte) (d : Nat) :
    wireFrom c cs dc ((group op params d).map (okEvent (E := E) c)) =
      [commandItem op] ++ dataItems params ++ [.groupEnd] := by
  have hrelease : c.csAssert ≠ invert c.csAssert := fun h => ofLevel_invert_ne c.csAssert (congrArg ofLevel h.symm)
  rw [events_group]
  by_cases hp : params = [] <;> by_cases hd : d = 0 <;>
    simp [hp, hd, wireFrom, wireWrite, wireRelease, latchAfter, commandItem, dataItems, hrelease]

theorem wireFrom_entries (es : List Entry) (cs dc : Latch) :
    wireFrom c cs dc ((es.flatMap entryOps).map (okEvent (E := E) c)) =
      es.flatMap fun e => [commandItem e.op] ++ dataItems e.params ++ [.groupEnd] := by
  induction es generalizing cs dc with
  | nil => rfl
  | cons e es ih =>
    rw [List.flatMap_cons, List.map_append, wireFrom_append, ih, entryOps, wireFrom_group, List.flatMap_cons]

/-- R64, R124: the hardware reset is not in the wire view. -/
theorem wireFrom_hwReset (cs dc : Latch) (rest : List (Event E)) :
    wireFrom c cs dc ((hwReset c).map (okEvent c) ++ rest) = wireFrom c cs dc rest := by
  simp [hwReset, okEvent, callOf, wireFrom, wireFrom_settle]

end Sys2Proof.Machine
end

section
/-! INIT with every call answered (R135), and one command of it (R125 to R130). -/

namespace Sys2Proof.Machine

variable {E : Type} {s : State.Over E}

/-- During an INIT an answered list is its events, the latches they leave, the replies taken, and the free
values of each set and write (entry 11). -/
theorem okRun_eq_init {ops : List MicroOp} (ho : s.op = .init) (hf : fallibleCount ops ≠ 0) :
    okRun ops s =
      { s with
        cs := latchOf .cs s.cs (ops.map (okEvent (E := E) s.cfg))
        dc := latchOf .dc s.dc (ops.map (okEvent (E := E) s.cfg))
        rst := latchOf .rst s.rst (ops.map (okEvent (E := E) s.cfg))
        upc := s.upc + ops.length, pending := none
        trace := s.trace ++ ops.map (okEvent s.cfg)
        ctl := scrambled (s.fresh + 6 * (fallibleCount ops - 1)), fresh := s.fresh + 6 * fallibleCount ops
        transport := s.transport.drop (fallibleCount ops)
        timing := s.timing.drop (waitCount ops) } := by
  have hne : ops ≠ [] := by
    rintro rfl
    exact hf rfl
  obtain ⟨hfresh, hctl⟩ := okRun_unknown (ops := ops) (sinkRuns_init ho)
  apply state_eq <;> simp [okRun_transport, okRun_timing, okRun_pending hne, okRun_init ho, hfresh, hctl, hf]
  · exact readLine_okRun ops s .cs
  · exact readLine_okRun ops s .dc
  · exact readLine_okRun ops s .rst

/-- R104, R108: a wire command of INIT that is one group, every call of which is answered. -/
theorem exec_group_answered {s : State} {i : Instr} {op : Byte} {params : List Byte} {d : Nat}
    (hi : exec i s = runCommand (group op params d) s) (hb : s.busy = true) (ho : s.op = .init)
    (hp : s.pending = none)
    (hr : s.transport.take (if params = [] then 4 else 6) = List.replicate (if params = [] then 4 else 6) .ok)
    (ht : 0 < d → s.timing.head? = some .done) :
    exec i s = .next
      { s with
        cs := ofLevel (invert s.cfg.csAssert)
        dc := if params = [] then ofLevel s.cfg.dcCmd else ofLevel (invert s.cfg.dcCmd)
        upc := s.upc + (if params = [] then 4 else 6) + (if d = 0 then 0 else 1)
        trace := s.trace ++ [.set .cs s.cfg.csAssert .ok, .set .dc s.cfg.dcCmd .ok, .write [op] .ok] ++
          (if params = [] then [] else [.set .dc (invert s.cfg.dcCmd) .ok, .write params .ok]) ++
          [.set .cs (invert s.cfg.csAssert) .ok] ++ (if d = 0 then [] else [.delay d])
        transport := s.transport.drop (if params = [] then 4 else 6)
        timing := s.timing.drop (if d = 0 then 0 else 1)
        ctl := scrambled (s.fresh + if params = [] then 18 else 30)
        fresh := s.fresh + if params = [] then 24 else 36 } := by
  have hall : AllAnswered (group op params d) s := by
    refine ⟨by rwa [fallibleCount_group], ?_⟩
    rw [waitCount_group]
    split
    · rfl
    · next hd =>
      rw [List.take_one, ht (Nat.pos_of_ne_zero hd)]
      rfl
  have hcount : fallibleCount (group op params d) ≠ 0 := by
    rw [fallibleCount_group]
    split <;> decide
  have hrun : exec i s = .next (okRun (group op params d) s) := by
    simp [hi, runCommand, hb, hp, runOps_allAnswered (cleaning_init ho) hall, Progress.state]
  rw [hrun, okRun_eq_init ho hcount, latchOf_cs_group, latchOf_dc_group, latchOf_rst_events fun _ => setsReset_group,
    length_eq_counts, events_group, fallibleCount_group, waitCount_group]
  by_cases hparams : params = [] <;> simp [hparams, hp, Nat.add_assoc]

theorem allAnswered_accept {ops : List MicroOp} {op : Op} {fb : List Pixel} :
    AllAnswered ops (accept op fb s) ↔ AllAnswered ops s := by
  simp [AllAnswered]

/-- R135, R202: an INIT every call of which is answered. -/
theorem exec_init_answered {s : State} (hb : s.busy = false) (h : AllAnswered (initProg s.cfg) s) :
    exec .init s = .next (finish (okRun (initProg s.cfg) (accept .init [] s))) := by
  rw [exec_init_eq hb, runOps_allAnswered (cleaning_init (accept_op ..)) (allAnswered_accept.2 h), finishRun]

end Sys2Proof.Machine
end

section
/-! INIT up to its first call that fails (R136, R164) or is not answered (R170), and what it comes to as a
function of the configuration and the answers (R138). -/

namespace Sys2Proof.Machine

variable {E : Type} {m : MicroOp} {pre post : List MicroOp}

@[simp] theorem readLine_accept (op : Op) (fb : List Pixel) (s : State.Over E) (l : Line) :
    readLine (accept op fb s) l = readLine s l := by
  cases l <;> simp [readLine]

/-- R136, R164: where an INIT ends whose calls `pre` were answered and whose call `m` failed. -/
def initFailed (s : State) (pre : List MicroOp) (m : MicroOp) (e : BusError) (n : Nat)
    (rs : List (Reply BusError)) : State :=
  takeBusFault e (effectErr m e n { issue m (okRun pre (accept .init [] s)) with transport := rs })

theorem initFailed_eq (s : State) (e : BusError) (n : Nat) (rs : List (Reply BusError)) :
    initFailed s pre m e n rs = respond (.initErr e) (controllerUnknown
      { effectErr m e n { issue m (okRun pre (accept .init [] s)) with transport := rs } with
        ctrl := .indeterminate }) :=
  takeBusFault_init (by simp)

/-- R21 to R23: the fault leaves the lines to the events. -/
theorem readLine_initFailed (s : State) (e : BusError) (n : Nat) (rs : List (Reply BusError)) (l : Line) :
    readLine (initFailed s pre m e n rs) l =
      latchOf l (readLine s l) (pre.map (okEvent s.cfg) ++ [errEvent s.cfg e m]) := by
  have hissue : readLine { issue m (okRun pre (accept .init [] s)) with transport := rs } l =
      readLine (okRun pre (accept .init [] s)) l := by
    cases l <;> rfl
  rw [initFailed, readLine_takeBusFault, effectErr_latch, hissue, readLine_okRun, latchOf_append]
  simp

/-- R18, R135: an INIT that has come to the call `m`. -/
theorem exec_init_at {s : State} (hb : s.busy = false) (hprog : initProg s.cfg = pre ++ m :: post)
    (hpre : AllAnswered pre s) :
    exec .init s = .next (finishRun (runOps (m :: post) (okRun pre (accept .init [] s)))) := by
  rw [exec_init_eq hb, hprog, runOps_prefix (cleaning_init (accept_op ..)) (allAnswered_accept.2 hpre)]

/-- R136, R164: the fault of a failed call ends the INIT, and nothing is issued after it. -/
theorem exec_init_err {s : State} {e : BusError} {n : Nat} {rs : List (Reply BusError)} (hb : s.busy = false)
    (hprog : initProg s.cfg = pre ++ m :: post) (hpre : AllAnswered pre s) (hm : fallible m = true)
    (hr : s.transport.drop (fallibleCount pre) = .err e n :: rs) :
    exec .init s = .next (initFailed s pre m e n rs) := by
  have hc : cleaning (accept .init [] s) = none := cleaning_init (accept_op ..)
  have hanswer := answer_err (s := issue m (okRun pre (accept .init [] s))) hm (by simpa [okRun_transport] using hr)
  rw [exec_init_at hb hprog hpre, runOps, call, complete]
  simp only [cleaning_issue, cleaning_okRun, hc, hanswer]
  rw [afterFault_init (by simp), finishRun, initFailed]

/-- R170: an INIT with a call that is not answered stands there. -/
theorem exec_init_waiting {s t : State} (hb : s.busy = false) (hprog : initProg s.cfg = pre ++ m :: post)
    (hpre : AllAnswered pre s) (hw : answer m (issue m (okRun pre (accept .init [] s))) = .waiting t) :
    exec .init s = .next t := by
  have hc : cleaning (accept .init [] s) = none := cleaning_init (accept_op ..)
  rw [exec_init_at hb hprog hpre, runOps, call, complete]
  simp only [cleaning_issue, cleaning_okRun, hc, hw, finishRun]

/-- R98: whether a call is answered is the outside's alone. -/
theorem answer_waiting_congr {s s' t : State.Over E} (hr : s'.transport = s.transport)
    (ht : s'.timing = s.timing) (h : answer m s = .waiting t) : ∃ t', answer m s' = .waiting t' := by
  unfold answer at h
  split at h
  · next hf =>
    unfold answerTransport at h
    split at h <;> cases h
    · next hs => exact ⟨s', by simp [answer, hf, answerTransport, hr, hs]⟩
    · next rs hs => exact ⟨readAhead { s' with transport := rs }, by simp [answer, hf, answerTransport, hr, hs]⟩
  · next hf =>
    unfold answerDelay at h
    split at h <;> cases h
    · next hs => exact ⟨s', by simp [answer, hf, answerDelay, ht, hs]⟩
    · next ts hs => exact ⟨{ s' with timing := ts }, by simp [answer, hf, answerDelay, ht, hs]⟩

/-- What an INIT that started in `s` came to in `t`: the events it appended, the call left outstanding, the
position, and its result, if it has one. -/
structure InitOutcome (s t : State) (events : List (Event BusError)) (pending : Option MicroOp) (upc : Nat)
    (result : Option (Result BusError)) : Prop where
  trace : t.trace = s.trace ++ events
  busy : t.busy = result.isNone
  pending : t.pending = pending
  upc : t.upc = upc
  log : t.hostLog = s.hostLog ++ .req .init s.trace.length :: result.toList.map (.res · t.trace.length)

section

variable {s t : State} {events : List (Event BusError)} {pending : Option MicroOp} {upc : Nat}
  {result : Option (Result BusError)}

/-- R206: the result is the one record an INIT adds to its request. -/
theorem InitOutcome.result_mem (h : InitOutcome s t events pending upc result) (r : Result BusError) :
    .res r t.trace.length ∈ t.hostLog.drop s.hostLog.length ↔ result = some r := by
  rw [h.log, List.drop_left]
  cases result <;> simp [eq_comm]

theorem initOutcome_answered :
    InitOutcome s (finish (okRun (initProg s.cfg) (accept .init [] s)))
      ((initProg s.cfg).map (okEvent s.cfg)) none (initProg s.cfg).length (some .ok) := by
  constructor <;> simp [finish]

theorem initOutcome_err (e : BusError) (n : Nat) (rs : List (Reply BusError)) :
    InitOutcome s (initFailed s pre m e n rs)
      (pre.map (okEvent s.cfg) ++ [errEvent s.cfg e m]) none pre.length (some (.initErr e)) := by
  rw [initFailed_eq]
  constructor <;> simp

theorem initOutcome_waiting (hw : answer m (issue m (okRun pre (accept .init [] s))) = .waiting t) :
    InitOutcome s t (pre.map (okEvent s.cfg)) (some m) pre.length none := by
  obtain ⟨rs, ts, k, rfl⟩ := waiting_eq hw
  constructor <;> simp

end

/-- R138: what an INIT comes to is the same from every idle state with this configuration and these answers. -/
theorem exec_init_outcome (s : State) :
    ∃ events pending upc result, ∀ s' : State, s'.busy = false → s'.cfg = s.cfg →
      s'.transport = s.transport → s'.timing = s.timing →
      ∃ t', exec .init s' = .next t' ∧ InitOutcome s' t' events pending upc result := by
  have transfer : ∀ {ops} {s' : State}, AllAnswered ops (accept .init [] s) → s'.transport = s.transport →
      s'.timing = s.timing → AllAnswered ops s' := by
    intro ops s' h hr ht
    simpa [AllAnswered, hr, ht] using h
  rcases runOps_cases (initProg s.cfg) (s := accept .init [] s) (cleaning_init (accept_op ..)) with
    ⟨hall, -⟩ | ⟨pre, m, post, hprog, hpre, ⟨t, hw, -⟩ | ⟨hm, e, n, rs, hr, -⟩⟩
  · refine ⟨(initProg s.cfg).map (okEvent s.cfg), none, (initProg s.cfg).length, some .ok,
      fun s' hb' hcfg hr ht => ⟨_, exec_init_answered hb' ?_, hcfg ▸ initOutcome_answered⟩⟩
    rw [hcfg]
    exact transfer hall hr ht
  · refine ⟨pre.map (okEvent s.cfg), some m, pre.length, none, fun s' hb' hcfg hr ht => ?_⟩
    obtain ⟨t', hw'⟩ := answer_waiting_congr (s' := issue m (okRun pre (accept .init [] s')))
      (by simp [okRun_transport, hr]) (by simp [okRun_timing, ht]) hw
    exact ⟨t', exec_init_waiting hb' (hcfg ▸ hprog) (transfer hpre hr ht) hw', hcfg ▸ initOutcome_waiting hw'⟩
  · refine ⟨pre.map (okEvent s.cfg) ++ [errEvent s.cfg e m], none, pre.length, some (.initErr e),
      fun s' hb' hcfg hr' ht => ⟨_, exec_init_err (e := e) (n := n) (rs := rs) hb' (hcfg ▸ hprog)
        (transfer hpre hr' ht) hm ?_, hcfg ▸ initOutcome_err e n rs⟩⟩
    rw [hr']
    simpa [okRun_transport] using hr

end Sys2Proof.Machine
end

section
/-! The reset line and the timing source, whatever the answers: only a set of the reset line changes its latch, and
only a delay takes a reply of the timing source (R94, R95, R98). -/

namespace Sys2Proof.Machine

variable {E : Type} {m : MicroOp} {ops : List MicroOp} {s : State.Over E}

theorem okRun_rst (h : ∀ m ∈ ops, setsReset m = false) (s : State.Over E) : (okRun ops s).rst = s.rst :=
  (readLine_okRun ops s .rst).trans (latchOf_rst_events h s.rst)

/-- R150: the clean-up of a DRAW is a release of chip-select. -/
theorem completeCleanup_csR (e : E) (s : State.Over E) :
    (completeCleanup e .csR s).rst = s.rst ∧ (completeCleanup e .csR s).timing = s.timing := by
  have hok : ∀ u : State.Over E, (effectOk .csR u).rst = u.rst := fun u => effectOk_latch .csR u .rst
  have herr : ∀ (e : E) n (u : State.Over E), (effectErr .csR e n u).rst = u.rst := fun e n u =>
    effectErr_latch .csR e n u .rst
  unfold completeCleanup
  rcases answer_fallible_cases (m := .csR) rfl s with ⟨rs, k, ha⟩ | ⟨rs, ha⟩ | ⟨e', n, rs, ha⟩ <;> rw [ha]
  · exact ⟨rfl, rfl⟩
  · simp [endCleanup, hok]
  · simp [endCleanup, herr]

/-- R163 to R165: nor do the fault and what follows it touch the two. -/
theorem afterFault_takeBusFault (e : E) (s : State.Over E) :
    (afterFault (takeBusFault e s)).rst = s.rst ∧ (afterFault (takeBusFault e s)).timing = s.timing := by
  have hfault : (takeBusFault e s).rst = s.rst ∧ (takeBusFault e s).timing = s.timing := by
    refine ⟨readLine_takeBusFault e s .rst, ?_⟩
    unfold takeBusFault
    split
    · rfl
    · split <;> rfl
  unfold afterFault
  split
  · simpa [hfault] using completeCleanup_csR _ (issue .csR (takeBusFault e s))
  · exact hfault
  · exact hfault

/-- R94, R95: a list without a set of the reset line leaves its latch. -/
theorem runOps_rst (hc : cleaning s = none) (h : ∀ m ∈ ops, setsReset m = false) :
    (runOps ops s).state.rst = s.rst := by
  rcases runOps_cases ops hc with ⟨-, hrun⟩ | ⟨pre, m, post, rfl, -, ⟨t, ht, hrun⟩ | ⟨-, e, n, rs, -, hrun⟩⟩ <;>
    rw [hrun, Progress.state]
  · exact okRun_rst h s
  · obtain ⟨rs, ts, k, rfl⟩ := waiting_eq ht
    exact okRun_rst (fun m hm => h m (List.mem_append_left _ hm)) s
  · rw [(afterFault_takeBusFault ..).1]
    have herr := effectErr_latch m e n { issue m (okRun pre s) with transport := rs } .rst
    rw [latchOf_rst_err (h m (by simp))] at herr
    exact herr.trans (okRun_rst (fun m hm => h m (List.mem_append_left _ hm)) s)

/-- R98: a list without a delay leaves the timing source. -/
theorem runOps_timing (hc : cleaning s = none) (h : ∀ m ∈ ops, fallible m = true) :
    (runOps ops s).state.timing = s.timing := by
  have hokRun : ∀ {pre : List MicroOp}, (∀ m ∈ pre, fallible m = true) → (okRun pre s).timing = s.timing := by
    intro pre hpre
    rw [okRun_timing, (fallibleCount_of_fallible hpre).2, List.drop_zero]
  rcases runOps_cases ops hc with ⟨-, hrun⟩ | ⟨pre, m, post, rfl, -, ⟨t, ht, hrun⟩ | ⟨-, e, n, rs, -, hrun⟩⟩ <;>
    rw [hrun, Progress.state]
  · exact hokRun h
  · rcases answer_fallible_cases (h m (by simp)) (issue m (okRun pre s)) with
      ⟨rs, k, ha⟩ | ⟨rs, ha⟩ | ⟨e, n, rs, ha⟩ <;> rw [ha] at ht <;> cases ht
    exact hokRun fun m hm => h m (List.mem_append_left _ hm)
  · rw [(afterFault_takeBusFault ..).2, effectErr_timing]
    exact hokRun fun m hm => h m (List.mem_append_left _ hm)

theorem finishRun_rst (p : Progress E) : (finishRun p).rst = p.state.rst := by
  cases p with
  | going t =>
    simp only [finishRun, finish, Progress.state]
    split <;> rfl
  | stopped t => rfl

theorem finishRun_timing (p : Progress E) : (finishRun p).timing = p.state.timing := by
  cases p with
  | going t =>
    simp only [finishRun, finish, Progress.state]
    split <;> rfl
  | stopped t => rfl

/-- R125 to R130: the commands of INIT are groups. -/
theorem setsReset_initCommand {c : Cfg} {i : Instr}
    (hi : i = .swreset ∨ i = .slpout ∨ i = .colmod ∨ i = .madctl ∨ i = .dispon ∨
      ∃ op params d, i = .tuning op params d) (h : m ∈ commandOps c i) : setsReset m = false := by
  rcases hi with rfl | rfl | rfl | rfl | rfl | ⟨op, params, d, rfl⟩ <;> exact setsReset_group h

/-- R147: DRAW has no set of the reset line. -/
theorem setsReset_drawProg {c : Cfg} {fb : List Pixel} (h : m ∈ drawProg c fb) : setsReset m = false := by
  have hall : (drawProg c fb).all (fun m => !setsReset m) = true := by simp [drawProg_eq, setsReset]
  simpa using List.all_eq_true.1 hall m h

/-- R73, R135: an INIT that answers was accepted. -/
theorem exec_init_inv {s t : State} (h : exec .init s = .next t) :
    t = finishRun (runOps (initProg s.cfg) (accept .init [] s)) := by
  simp only [exec, execInit] at h
  split at h <;> cases h
  rfl

end Sys2Proof.Machine
end

section
/-! The obligations of the init sequencer (42_init_sequencer.md). -/

open Sys2Proof Sys2Proof.Machine

/-- Settles O21: the calls of one group, answered. -/
theorem tuningCompletes : Obligations.TuningCompletes := fun _ _ _ _ => exec_group_answered rfl

/-- Settles O16: a group without parameters. -/
theorem swresetCompletes : Obligations.SwresetCompletes := fun s hb ho hp hr ht => by
  simpa using exec_group_answered (i := .swreset) (params := []) rfl hb ho hp hr ht

/-- Settles O17: a group without parameters. -/
theorem slpoutCompletes : Obligations.SlpoutCompletes := fun s hb ho hp hr ht => by
  simpa using exec_group_answered (i := .slpout) (params := []) rfl hb ho hp hr ht

/-- Settles O18: a group with one parameter and no delay. -/
theorem colmodCompletes : Obligations.ColmodCompletes := fun s hb ho hp hr => by
  simpa using exec_group_answered (i := .colmod) (params := [s.cfg.colmodParam]) (d := 0) rfl hb ho hp hr nofun

/-- Settles O19: a group with one parameter and no delay. -/
theorem madctlCompletes : Obligations.MadctlCompletes := fun s hb ho hp hr => by
  simpa using exec_group_answered (i := .madctl) (params := [s.cfg.madctlParam]) (d := 0) rfl hb ho hp hr nofun

/-- Settles O20: a group without parameters and without a delay. -/
theorem disponCompletes : Obligations.DisponCompletes := fun s hb ho hp hr => by
  simpa using exec_group_answered (i := .dispon) (params := []) (d := 0) rfl hb ho hp hr nofun

/-- Settles O22: every call of INIT_PROG is answered; the acceptance before it and the end after it draw free
values too. -/
theorem initCompletes : Obligations.InitCompletes := by
  intro s hb h
  obtain ⟨hcs, hdc⟩ := latchOf_initProg (E := BusError) s.cfg s.cs s.dc
  rw [exec_init_answered hb h, okRun_eq_init (accept_op ..) (by simp [fallibleCount_initProg_ne_zero])]
  simp [finish, respond, controllerUnknown, accept, hcs, hdc, latchOf_rst_initProg]
  omega

/-- Settles O23: the calls before the failed one are answered, and its fault ends the INIT. -/
theorem initAbortsAtFirstError : Obligations.InitAbortsAtFirstError := by
  intro s pre post m e n rs hb hprog hm hr ht
  have hexec := exec_init_err hb hprog ⟨by simp [hr], ht⟩ hm (e := e) (n := n) (rs := rs) (by simp [hr])
  obtain ⟨htrace, hbusy, hpending, -, hlog⟩ := initOutcome_err (s := s) (pre := pre) (m := m) e n rs
  refine ⟨_, hexec, by simpa using htrace, ?_, hbusy, hpending, ?_, ?_, ?_, readLine_initFailed s e n rs⟩
  · simp [initFailed_eq]
  · simp [initFailed_eq]
  · simp [initFailed_eq]
  · rw [hlog, htrace]
    simp [Nat.add_assoc]

/-- Settles O25: the same events, outstanding call, position and result from both states. -/
theorem initIndependentOfHistory : Obligations.InitIndependentOfHistory := by
  intro s s' hb hb' hcfg hr ht
  obtain ⟨events, pending, upc, result, h⟩ := exec_init_outcome s
  obtain ⟨t, hexec, hout⟩ := h s hb rfl rfl rfl
  obtain ⟨t', hexec', hout'⟩ := h s' hb' hcfg hr ht
  refine ⟨t, t', events, hexec, hexec', hout.trace, hout'.trace, ?_, ?_, ?_, fun r => ?_⟩
  · rw [hout.busy, hout'.busy]
  · rw [hout.pending, hout'.pending]
  · rw [hout.upc, hout'.upc]
  · rw [hout.result_mem, hout'.result_mem]

/-- Settles O26: the counts of the hardware reset and of the entries of TAB, added up. -/
theorem initProgramSizes : Obligations.InitProgramSizes := by
  intro c
  obtain ⟨hfallible, hwrites, hwaits⟩ := hwReset_counts c
  refine ⟨?_, ?_, length_eq_counts _, ?_⟩
  · rw [initProg, fallibleCount_append, hfallible, fallibleCount_entries]
    simp [tab]
    omega
  · rw [initProg, waitCount_append, hwaits, waitCount_entries]
    simp [tab, List.countP_cons]
    omega
  · rw [initProg, writeCount_append, hwrites, writeCount_entries]
    simp [tab]
    omega

/-- Settles O51: the hardware reset is not in the wire view, and each entry of TAB is one group. -/
theorem wireViewOfInit : Obligations.WireViewOfInit := by
  intro E c cs dc
  rw [initProg, List.map_append, wireFrom_hwReset, wireFrom_entries, tab]

/-- Settles O55: inside the operation by `Within`; the reset line, since no group sets it. -/
theorem initCommandsFrame : Obligations.InitCommandsFrame := by
  intro s t i ho hi h
  obtain ⟨hb, -, rfl⟩ := exec_command_inv h (by rintro rfl; simp at hi) (by rintro _ _ rfl; simp at hi)
  have hw := (within_runOps (ms := commandOps s.cfg i) hb).1
  obtain ⟨hpix, hpm⟩ := hw.inInit ho
  refine ⟨runOps_rst (cleaning_init ho) fun m => setsReset_initCommand hi, hw.cfg, hpix, hw.host, hw.op, hw.fresh,
    hpm.imp (fun h k => by rw [h]) (fun h k => by rw [h]; rfl), fun ht => ?_, fun ht k => ?_⟩
  · obtain ⟨hctrl, hfb, hlog, hferr, -⟩ := hw.going ht
    exact ⟨hfb, hctrl, hferr ho, hlog⟩
  · obtain ⟨-, r, -, hinit, -⟩ := hw.ended ht
    rw [(hinit ho).1]
    rfl

/-- Settles O57: inside the operation by `Within` from its acceptance, where an INIT leaves no cell with a value; the
reset line and the timing source of a DRAW by the calls it is made of. -/
theorem operationsFrame : Obligations.OperationsFrame := by
  intro s t
  refine ⟨fun h => ?_, fun fb len h => ?_⟩
  · obtain rfl := exec_init_inv h
    have hw := within_finishRun (ms := initProg s.cfg) (accept_busy .init [] (s := s))
    obtain ⟨hpix, hpm⟩ := hw.inInit (accept_op ..)
    have hnone : (finishRun (runOps (initProg s.cfg) (accept .init [] s))).ctl.pm = [] := hpm.elim id id
    exact ⟨hw.cfg, hpix, hw.host, Nat.le_trans (Nat.le_add_right ..) hw.fresh, fun k => by rw [hnone]; rfl⟩
  · rcases exec_draw_inv h with rfl | rfl
    · exact ⟨rfl, rfl, rfl, rfl, rfl, Nat.le_refl _⟩
    · have hw := within_finishRun (ms := drawProg s.cfg fb) (accept_busy .draw fb (s := s))
      have hc : cleaning (accept .draw fb s) = none := cleaning_no_error (accept_ferr ..)
      refine ⟨hw.cfg, ?_, hw.inDraw rfl, ?_, hw.host, hw.fresh⟩
      · rw [finishRun_rst, runOps_rst hc fun m => setsReset_drawProg, accept_rst]
      · rw [finishRun_timing, runOps_timing hc fun m => drawProg_fallible, accept_timing]

/-- Settles O27: of the hardware reset only the three sets can fail, and SWRESET comes next. -/
theorem resetBeforeFirstWrite : Obligations.ResetBeforeFirstWrite := by
  intro c
  simp [initProg, hwReset, filter_settle, tab, entryOps, group, sendCommand, List.filter_cons, fallible]

/-- Settles O28: the programs by their commands, the hardware reset and the payload written out. -/
theorem programsAreTheirCommands : Obligations.ProgramsAreTheirCommands := fun c fb =>
  ⟨initProg_commands c, drawProg_commands c fb⟩

end

section
/-! The payload (R45, R146) and the program of DRAW, written out and on the wire (R69, R147). -/

namespace Sys2Proof.Machine

variable {E : Type} {c : Cfg}

theorem length_flatMap_be16 (ps : List Pixel) : (ps.flatMap be16).length = 2 * ps.length := by
  simp [List.length_flatMap, be16, Nat.mul_comm]

/-- R146: two bytes for each of the `W*H` pixels, whatever the host handed over. -/
@[simp] theorem pixBytes_length (c : Cfg) (fb : List Pixel) : (pixBytes c fb).length = 2 * (c.w * c.h) := by
  rw [pixBytes_eq, length_flatMap_be16, List.length_map, List.length_range]

/-- R43: a framebuffer of `W*H` pixels is read pixel by pixel, each once. -/
theorem pixBytes_of_length {fb : List Pixel} (h : fb.length = c.w * c.h) : pixBytes c fb = fb.flatMap be16 := by
  have hread : (List.range (c.w * c.h)).map (fbRead fb) = fb := by
    rw [← h]
    refine List.ext_getElem (by simp) fun i _ hi => Option.some.inj ?_
    rw [List.getElem_map, List.getElem_range, fbRead_eq hi, List.getElem?_eq_getElem hi]
  rw [pixBytes_eq, hread]

/-- R45: the two bytes of the pixel at index `i` stand at `2i` and `2i+1`. -/
theorem getElem?_flatMap_be16 {ps : List Pixel} {i : Nat} {p : Pixel} (h : ps[i]? = some p) :
    (ps.flatMap be16)[2 * i]? = some (BitVec.ofNat 8 (p.toNat / 256)) ∧
      (ps.flatMap be16)[2 * i + 1]? = some (BitVec.ofNat 8 (p.toNat % 256)) := by
  induction ps generalizing i with
  | nil => simp at h
  | cons q ps ih =>
    rw [List.flatMap_cons, be16_bytes]
    cases i with
    | zero =>
      obtain rfl : q = p := by simpa using h
      exact ⟨rfl, rfl⟩
    | succ i => exact ih (i := i) (by simpa using h)

/-- R111, R115: the bounds of the full window, written out. -/
theorem fullWindow_bytes (c : Cfg) :
    boundBytes (toBound (physColumn c 0)) (toBound (physColumn c (c.w - 1))) =
        be16 (BitVec.ofNat 16 c.cOff) ++ be16 (BitVec.ofNat 16 (c.w - 1 + c.cOff)) ∧
      boundBytes (toBound (physRow c 0)) (toBound (physRow c (c.h - 1))) =
        be16 (BitVec.ofNat 16 c.rOff) ++ be16 (BitVec.ofNat 16 (c.h - 1 + c.rOff)) := by
  simp [boundBytes, toBound, physColumn, physRow]

/-- R147: DRAW_PROG is the groups of CASET and RASET and that of RAMWR with the payload. -/
theorem drawProg_groups (c : Cfg) (fb : List Pixel) :
    drawProg c fb =
      group c.opCaset (boundBytes (toBound (physColumn c 0)) (toBound (physColumn c (c.w - 1)))) 0 ++
        (group c.opRaset (boundBytes (toBound (physRow c 0)) (toBound (physRow c (c.h - 1)))) 0 ++
          (ramwrOps c ++ payloadOps c fb)) := by
  simp only [drawProg, fullWindow, setWindow, casetOps, rasetOps, List.append_assoc]

/-- R69: the group of RAMWR on the wire: the opcode, the payload as data (none, if there is no pixel), the group
end. -/
theorem wireFrom_payloadGroup (cs dc : Latch) (fb : List Pixel) :
    wireFrom c cs dc ((ramwrOps c ++ payloadOps c fb).map (okEvent (E := E) c)) =
      [commandItem c.opRamwr] ++ dataItems (pixBytes c fb) ++ [.groupEnd] := by
  have hrelease : c.csAssert ≠ invert c.csAssert := fun h => ofLevel_invert_ne c.csAssert (congrArg ofLevel h.symm)
  simp [ramwrOps, payloadOps, sendCommand, sendData, okEvent, callOf, wireFrom, wireWrite, wireRelease, latchAfter,
    commandItem, dataItems, hrelease]

end Sys2Proof.Machine
end

section
/-! The reset line in a step of a running DRAW (R23, R144): no call of its program sets it, nor does its clean-up. -/

namespace Sys2Proof.Machine

variable {E : Type} {s t : State.Over E}

/-- R150, R165: what is left of a DRAW in its clean-up is the release of chip-select. -/
theorem Inv.runOps_cleanup (h : Inv s) (hb : s.busy = true) {e : E} (hc : cleaning s = some e) :
    runOps ((prog s).drop s.upc) s = .stopped (completeCleanup e .csR (issue .csR s)) := by
  obtain ⟨hu, hget⟩ := List.getElem?_eq_some_iff.1 (h.at_cleanup hb hc)
  rw [List.drop_eq_getElem_cons hu, hget, runOps, call, complete, cleaning_issue, hc]

theorem Stepped.rst_of_draw {s t : State} (ht : Stepped s t) (h : Inv s) (hb : s.busy = true) (ho : s.op = .draw) :
    t.rst = s.rst := by
  have hrest : ∀ m ∈ (prog s).drop s.upc, setsReset m = false := by
    rw [prog_draw ho]
    exact fun m hm => setsReset_drawProg (List.mem_of_mem_drop hm)
  cases ht with
  | nothing hb' | rejected _ _ hb' | request _ _ hb' => simp [hb] at hb'
  | command i _ _ hf hi =>
    exact runOps_rst (cleaning_no_error hf) fun m hm => hrest m ((currentCommand_prog hi).1.subset hm)
  | resume =>
    rw [continueOp_eq h.outstanding, finishRun_rst]
    cases hc : cleaning s with
    | none => exact runOps_rst hc hrest
    | some e =>
      rw [h.runOps_cleanup hb hc]
      exact (completeCleanup_csR e (issue .csR s)).1

end Sys2Proof.Machine
end

section
/-! A DRAW after its first `u` calls, each answered `Ok` (R147): the lines, the pixels read and the free values
drawn. -/

namespace Sys2Proof.Machine

variable {E : Type} {s : State.Over E} {fb : List Pixel} {m : MicroOp} {u : Nat}

/-- R144, R147: the state when the first `u` calls of an accepted DRAW were answered `Ok`. -/
def drawRun (s : State.Over E) (fb : List Pixel) (u : Nat) : State.Over E :=
  okRun ((drawProg s.cfg fb).take u) (accept .draw fb s)

theorem drawRun_succ (hm : (drawProg s.cfg fb)[u]? = some m) : drawRun s fb (u + 1) = okCall m (drawRun s fb u) := by
  rw [drawRun, List.take_add_one, hm, Option.toList_some, okRun_append]
  rfl

theorem index_lt_of_call {c : Cfg} (h : (drawProg c fb)[u]? = some m) : u < 18 := by
  obtain ⟨hu, -⟩ := List.getElem?_eq_some_iff.1 h
  simpa using hu

/-- R18: what holds when a DRAW is accepted and is kept by each of its calls answered `Ok` holds after any number of
them. -/
theorem drawRun_induction {P : Nat → State.Over E → Prop} (hstart : P 0 (accept .draw fb s))
    (hcall : ∀ u m, (drawProg s.cfg fb)[u]? = some m → P u (drawRun s fb u) → P (u + 1) (okCall m (drawRun s fb u)))
    (hu : u ≤ 18) : P u (drawRun s fb u) := by
  induction u with
  | zero => exact hstart
  | succ u ih =>
    have hm : (drawProg s.cfg fb)[u]? = some _ := List.getElem?_eq_getElem (by simpa using hu)
    rw [drawRun_succ hm]
    exact hcall u _ hm (ih (Nat.le_of_succ_le hu))

/-- The calls before one of DRAW_PROG are its first ones; if one comes after it, it is before the last release. -/
theorem drawProg_split {c : Cfg} {pre post : List MicroOp} (h : drawProg c fb = pre ++ m :: post) :
    (drawProg c fb).take pre.length = pre ∧ (drawProg c fb)[pre.length]? = some m ∧
      (post ≠ [] → pre.length < 17) := by
  refine ⟨by simp [h], by simp [h], fun hpost => ?_⟩
  have htotal := congrArg List.length h
  have := List.length_pos_iff.2 hpost
  simp only [drawProg_length, List.length_append, List.length_cons] at htotal
  omega

@[simp] theorem drawRun_cfg (s : State.Over E) (fb : List Pixel) (u : Nat) : (drawRun s fb u).cfg = s.cfg := by
  simp [drawRun]
@[simp] theorem drawRun_op (s : State.Over E) (fb : List Pixel) (u : Nat) : (drawRun s fb u).op = .draw := by
  simp [drawRun]
@[simp] theorem drawRun_ctrl (s : State.Over E) (fb : List Pixel) (u : Nat) : (drawRun s fb u).ctrl = s.ctrl := by
  simp [drawRun]
@[simp] theorem drawRun_busy (s : State.Over E) (fb : List Pixel) (u : Nat) : (drawRun s fb u).busy = true := by
  simp [drawRun]
@[simp] theorem drawRun_host (s : State.Over E) (fb : List Pixel) (u : Nat) : (drawRun s fb u).host = s.host := by
  simp [drawRun]
@[simp] theorem drawRun_hostLog (s : State.Over E) (fb : List Pixel) (u : Nat) :
    (drawRun s fb u).hostLog = s.hostLog ++ [.req .draw s.trace.length] := by
  simp [drawRun]
@[simp] theorem drawRun_trace (s : State.Over E) (fb : List Pixel) (u : Nat) :
    (drawRun s fb u).trace = s.trace ++ ((drawProg s.cfg fb).take u).map (okEvent s.cfg) := by
  simp [drawRun]
@[simp] theorem drawRun_upc (s : State.Over E) (fb : List Pixel) (hu : u ≤ 18) : (drawRun s fb u).upc = u := by
  simp [drawRun, hu]

/-- R150: the transport answered the calls before, none of which is a delay. -/
theorem drawRun_transport (s : State.Over E) (fb : List Pixel) (hu : u ≤ 18) :
    (drawRun s fb u).transport = s.transport.drop u := by
  have hcount := (fallibleCount_of_fallible (ops := (drawProg s.cfg fb).take u) fun m hm =>
    drawProg_fallible (List.mem_of_mem_take hm)).1
  simp [drawRun, okRun_transport, hcount, hu]

/-- R21 to R23: the lines are as the events of the calls left them. -/
theorem readLine_drawRun (s : State.Over E) (fb : List Pixel) (u : Nat) (l : Line) :
    readLine (drawRun s fb u) l =
      latchOf l (readLine s l) (((drawProg s.cfg fb).take u).map (okEvent (E := E) s.cfg)) := by
  simp [drawRun, readLine_okRun]

/-- R63: so the bytes of a write have the tag its place gives them. -/
theorem tagOf_drawRun {tag : Tag} {bytes : List Byte} (hw : (u, tag, bytes) ∈ drawWrites s.cfg fb) :
    tagOf s.cfg (drawRun s fb u).cs (drawRun s fb u).dc = some tag := by
  have hu : 2 ≤ u := by
    simp [drawWrites] at hw
    omega
  have hcs := (readLine_drawRun s fb u .cs).trans (latchOf_drawProg_take fb hu (by decide) _)
  have hdc := (readLine_drawRun s fb u .dc).trans (latchOf_drawProg_take fb hu (by decide) _)
  have htag := tagOf_drawWrite (E := E) hw []
  rwa [List.nil_append, ← hcs, ← hdc] at htag

@[simp] theorem sinkRuns_drawRun (s : State.Over E) (fb : List Pixel) (u : Nat) :
    sinkRuns (drawRun s fb u) = (decide (s.ctrl = .ready) && scanGiven s.cfg) := by
  simp [sinkRuns]

/-- R47: the payload write answered `Ok` has read every pixel, and no other call reads one. -/
theorem effectOk_pix_eq (m : MicroOp) (s : State.Over E) :
    (effectOk m s).pix = if isWrite m ∧ isPayload s then s.cfg.w * s.cfg.h else s.pix := by
  cases m <;> simp [effectOk, callOf, writeDone, isWrite, isPayload]

/-- R36, R47: no pixel is read before the payload write, and all of them when it was answered. -/
theorem drawRun_pix (hu : u ≤ 18) :
    (drawRun s fb u).pix = if u ≤ payloadIndex then 0 else s.cfg.w * s.cfg.h := by
  refine drawRun_induction (P := fun u t => t.pix = if u ≤ payloadIndex then 0 else s.cfg.w * s.cfg.h) rfl
    (fun u m hm ih => ?_) hu
  have hcall : (okCall m (drawRun s fb u)).pix =
      if isWrite m ∧ u = payloadIndex then s.cfg.w * s.cfg.h else (drawRun s fb u).pix := by
    simp [okCall, effectOk_pix_eq, isPayload, drawRun_upc s fb (index_lt_of_call hm).le]
  rw [hcall, ih]
  by_cases hp : u = payloadIndex
  · have hwrite : isWrite m = true := by
      rw [hp, drawProg_eq] at hm
      obtain rfl := Option.some.inj hm
      rfl
    simp [hp, hwrite]
  · simp only [hp, and_false, if_false]
    exact if_congr (by omega) rfl rfl

/-- R90 to R95: a line set is no write. -/
theorem writeCount_set {c : Cfg} {line : Line} {level : Level} (h : callOf c m = .sigSet line level) :
    writeCount [m] = 0 := by
  cases m with
  | wr | wait => cases h
  | csA | csR | dcC | dcD | rstA | rstR => rfl

/-- R55, R56, entry 12: where the sink model is given, only a write draws free values, and only if two of the
window's opcodes are equal. -/
theorem drawRun_fresh (hr : s.ctrl = .ready) (hscan : scanGiven s.cfg = true) (hu : u ≤ 18) :
    (drawRun s fb u).fresh =
      s.fresh + if sinkGiven s.cfg then 0 else 6 * writeCount ((drawProg s.cfg fb).take u) := by
  refine drawRun_induction (P := fun u t => t.fresh =
    s.fresh + if sinkGiven s.cfg then 0 else 6 * writeCount ((drawProg s.cfg fb).take u)) ?_ (fun u m hm ih => ?_) hu
  · simp [writeCount, accept]
  · have hruns : sinkRuns (drawRun s fb u) = true := by simp [hr, hscan]
    have hcall : (okCall m (drawRun s fb u)).fresh =
        (drawRun s fb u).fresh + if sinkGiven s.cfg then 0 else 6 * writeCount [m] := by
      rcases drawProg_call hm with ⟨-, line, level, hset⟩ | ⟨tag, bytes, rfl, hw⟩
      · rw [okCall_fresh_set (by simpa using hset) hruns, writeCount_set hset, Nat.mul_zero, ite_self, Nat.add_zero]
      · rw [okCall_fresh_write hruns (by simpa using tagOf_drawRun hw), drawRun_cfg]
        rfl
    rw [hcall, ih, List.take_add_one, hm, Option.toList_some, writeCount_append]
    split <;> omega

end Sys2Proof.Machine
end

section
/-! The window registers in a DRAW whose sink model is given (R55, R56, R117), for either pair of them: one command
sets a pair, if its opcode is no other's (D2), and everything else leaves it. -/

namespace Sys2Proof.Machine

/-- The two pairs of window registers: XS, XE, the columns, and YS, YE, the rows (R55). -/
inductive WindowAxis where
  | columns
  | rows

variable {E : Type} {c : Cfg} {k k0 : Controller} {u : Nat} {axis : WindowAxis}

/-- R112, R113: the opcode of the command that sets the pair. -/
def WindowAxis.opcode (c : Cfg) : WindowAxis → Byte
  | .columns => c.opCaset
  | .rows => c.opRaset

/-- R147: the index of that opcode's write in DRAW_PROG. -/
def WindowAxis.index : WindowAxis → Nat
  | .columns => 2
  | .rows => 8

/-- What the controller receives after that opcode. -/
def WindowAxis.mode : WindowAxis → SinkMode
  | .columns => .column
  | .rows => .row

/-- What it can receive without setting the pair. -/
def WindowAxis.keeps : WindowAxis → SinkMode → Bool
  | .columns => keepsColumns
  | .rows => keepsRows

/-- R55: the pair itself. -/
def WindowAxis.registers (k : Controller) : WindowAxis → Bound × Bound
  | .columns => (k.xs, k.xe)
  | .rows => (k.ys, k.ye)

/-- R111, R117: the bounds that DRAW sends for the pair. -/
def WindowAxis.bounds (c : Cfg) : WindowAxis → Bound × Bound
  | .columns => (toBound (physColumn c 0), toBound (physColumn c (c.w - 1)))
  | .rows => (toBound (physRow c 0), toBound (physRow c (c.h - 1)))

/-- D2: the opcode of the command that sets the pair is no other's. -/
def WindowAxis.alone (c : Cfg) : WindowAxis → Prop
  | .columns => c.opCaset ≠ c.opRaset ∧ c.opCaset ≠ c.opRamwr
  | .rows => c.opRaset ≠ c.opCaset ∧ c.opRaset ≠ c.opRamwr

/-- R55: the pair's own opcode makes the controller ready for its bounds. -/
theorem WindowAxis.sinkCommand_own (h : axis.alone c) (n : Nat) (k : Controller) :
    (sinkCommand c n (axis.opcode c) k).mode = axis.mode ∧ (sinkCommand c n (axis.opcode c) k).args = [] ∧
      axis.registers (sinkCommand c n (axis.opcode c) k) = axis.registers k := by
  cases axis with
  | columns => simp [opcode, mode, registers, sinkCommand_caset h.1 h.2]
  | rows => simp [opcode, mode, registers, sinkCommand_raset h.1.symm h.2]

/-- R55, D2: any other opcode leaves the pair, and so will the data after it. -/
theorem WindowAxis.sinkCommand_other {op : Byte} (h : op ≠ axis.opcode c) (n : Nat) (k : Controller) :
    axis.keeps (sinkCommand c n op k).mode = true ∧
      axis.registers (sinkCommand c n op k) = axis.registers k := by
  cases axis with
  | columns =>
    obtain ⟨hxs, hxe, hmode⟩ := sinkCommand_keepsColumns h n k
    exact ⟨hmode, Prod.ext hxs hxe⟩
  | rows =>
    obtain ⟨hys, hye, hmode⟩ := sinkCommand_keepsRows h n k
    exact ⟨hmode, Prod.ext hys hye⟩

/-- R55: its bounds set it, and then nothing is received that could. -/
theorem WindowAxis.sinkBytes_own (hm : k.mode = axis.mode) (ha : k.args = []) (n : Nat) :
    axis.keeps (sinkBytes c n .d (boundBytes (axis.bounds c).1 (axis.bounds c).2) k).mode = true ∧
      axis.registers (sinkBytes c n .d (boundBytes (axis.bounds c).1 (axis.bounds c).2) k) = axis.bounds c := by
  cases axis with
  | columns => simp [sinkBytes_columns c n _ _ hm ha, keeps, keepsColumns, registers]
  | rows => simp [sinkBytes_rows c n _ _ hm ha, keeps, keepsRows, registers]

/-- R55: the data of other commands leave it. -/
theorem WindowAxis.sinkBytes_other (h : axis.keeps k.mode = true) (n : Nat) (bytes : List Byte) :
    axis.keeps (sinkBytes c n .d bytes k).mode = true ∧
      axis.registers (sinkBytes c n .d bytes k) = axis.registers k := by
  cases axis with
  | columns =>
    obtain ⟨hxs, hxe, hmode⟩ := sinkBytes_keepsColumns c n bytes h
    exact ⟨hmode, Prod.ext hxs hxe⟩
  | rows =>
    obtain ⟨hys, hye, hmode⟩ := sinkBytes_keepsRows c n bytes h
    exact ⟨hmode, Prod.ext hys hye⟩

/-- The pair in the controller `k` after the first `u` calls of a DRAW that found the controller `k0`: as it was up
to the write of its bounds, and as sent from there on. In between the controller is ready for those bounds, and
after any other opcode it receives nothing that could set the pair. -/
structure WindowAxis.At (c : Cfg) (axis : WindowAxis) (k0 : Controller) (u : Nat) (k : Controller) : Prop where
  value : axis.registers k = if u ≤ axis.index + 2 then axis.registers k0 else axis.bounds c
  receiving : axis.index < u → u ≤ axis.index + 2 → k.mode = axis.mode ∧ k.args = []
  kept : 2 < u → ¬(axis.index < u ∧ u ≤ axis.index + 2) → axis.keeps k.mode = true

/-- What each write of DRAW is for the pair: its own opcode or bounds, or another's. -/
theorem WindowAxis.drawWrites_cases {fb : List Pixel} {tag : Tag} {bytes : List Byte} (axis : WindowAxis)
    (ha : axis.alone c) (h : (u, tag, bytes) ∈ drawWrites c fb) :
    (tag = .c ∧ bytes = [axis.opcode c] ∧ u = axis.index) ∨
    (tag = .d ∧ bytes = boundBytes (axis.bounds c).1 (axis.bounds c).2 ∧ u = axis.index + 2) ∨
    ((∃ op, tag = .c ∧ bytes = [op] ∧ op ≠ axis.opcode c) ∧ 2 ≤ u ∧ (u < axis.index ∨ axis.index + 2 < u)) ∨
    (tag = .d ∧ 2 < u ∧ (u < axis.index ∨ axis.index + 2 < u)) := by
  simp only [drawWrites, List.mem_cons, Prod.mk.injEq, List.not_mem_nil, or_false] at h
  cases axis with
  | columns | rows =>
    obtain ⟨h1, h2⟩ := ha
    rcases h with ⟨rfl, rfl, rfl⟩ | ⟨rfl, rfl, rfl⟩ | ⟨rfl, rfl, rfl⟩ | ⟨rfl, rfl, rfl⟩ | ⟨rfl, rfl, rfl⟩ |
      ⟨rfl, rfl, rfl⟩ <;> simp [index, opcode, bounds, h1.symm, h2.symm]

/-- R55, R56: each write of DRAW takes the pair one call further. -/
theorem WindowAxis.At.after_write {fb : List Pixel} {tag : Tag} {bytes : List Byte} (h : axis.At c k0 u k)
    (ha : axis.alone c) (hw : (u, tag, bytes) ∈ drawWrites c fb) (n : Nat) :
    axis.At c k0 (u + 1) (sinkBytes c n tag bytes k) := by
  obtain ⟨hvalue, hreceiving, hkept⟩ := h
  rcases axis.drawWrites_cases ha hw with ⟨rfl, rfl, rfl⟩ | ⟨rfl, rfl, rfl⟩ | ⟨⟨op, rfl, rfl, hop⟩, hu, hout⟩ |
    ⟨rfl, hu, hout⟩
  · obtain ⟨hmode, hargs, hregs⟩ := sinkCommand_own ha n k
    refine ⟨?_, fun _ _ => ⟨hmode, hargs⟩, fun _ hn => absurd ⟨by omega, by omega⟩ hn⟩
    exact hregs.trans (by simpa using hvalue)
  · obtain ⟨hmode, hargs⟩ := hreceiving (by omega) (by omega)
    obtain ⟨hkeeps, hregs⟩ := sinkBytes_own (c := c) hmode hargs n
    exact ⟨by simpa using hregs, fun _ _ => by omega, fun _ _ => hkeeps⟩
  · obtain ⟨hkeeps, hregs⟩ := sinkCommand_other hop n k
    exact ⟨hregs.trans (hvalue.trans (if_congr (by omega) rfl rfl)), fun _ _ => by omega, fun _ _ => hkeeps⟩
  · obtain ⟨hkeeps, hregs⟩ := sinkBytes_other (c := c) (hkept hu (by omega)) n bytes
    exact ⟨hregs.trans (hvalue.trans (if_congr (by omega) rfl rfl)), fun _ _ => by omega, fun _ _ => hkeeps⟩

/-- A line set sends nothing. -/
theorem WindowAxis.At.after_set (h : axis.At c k0 u k) (hu : u ∉ [2, 4, 8, 10, 14, 16]) :
    axis.At c k0 (u + 1) k := by
  obtain ⟨hvalue, hreceiving, hkept⟩ := h
  simp only [List.mem_cons, List.not_mem_nil, or_false, not_or] at hu
  have hindex : axis.index = 2 ∨ axis.index = 8 := by cases axis <;> simp [index]
  exact ⟨hvalue.trans (if_congr (by omega) rfl rfl), fun _ _ => hreceiving (by omega) (by omega), fun _ _ =>
    hkept (by omega) (by omega)⟩

/-- Where PM is not claimed, only the cells lose their values (entry 12). -/
theorem WindowAxis.At.claimed (h : axis.At c k0 u k) : axis.At c k0 u (claimedPm c k) := by
  rw [claimedPm_eq]
  cases axis <;> exact ⟨h.value, h.receiving, h.kept⟩

/-- R117: the pair after the first `u` calls of a DRAW, each answered `Ok`. -/
theorem windowAt_drawRun {s : State.Over E} {fb : List Pixel} (hr : s.ctrl = .ready)
    (hscan : scanGiven s.cfg = true) (ha : axis.alone s.cfg) (hu : u ≤ 18) :
    axis.At s.cfg s.ctl u (drawRun s fb u).ctl := by
  refine drawRun_induction (P := fun u t => axis.At s.cfg s.ctl u t.ctl) ⟨by simp [accept], by omega, by omega⟩
    (fun u m hm hat => ?_) hu
  have hruns : sinkRuns (drawRun s fb u) = true := by simp [hr, hscan]
  rcases drawProg_call hm with ⟨hset, line, level, hcall⟩ | ⟨tag, bytes, rfl, hw⟩
  · rw [okCall_ctl_set (by simpa using hcall) hruns]
    exact hat.after_set hset
  · rw [okCall_ctl_write hruns (by simpa using tagOf_drawRun hw), drawRun_cfg]
    exact (hat.after_write ha hw _).claimed

end Sys2Proof.Machine
end

section
/-! The ends of a DRAW: every call answered `Ok` (R144), the last release failed (R149), an earlier call failed and
the clean-up answered (R150, R165). -/

namespace Sys2Proof.Machine

variable {s : State} {fb : List Pixel} {len : Nat} {m : MicroOp} {u : Nat} {e : BusError} {n : Nat}
  {rs : List (Reply BusError)} {c : Cfg}

/-! ### Every call answered -/

/-- R147: DRAW_PROG is its first 18 calls. -/
theorem drawProg_take_all (c : Cfg) (fb : List Pixel) : (drawProg c fb).take 18 = drawProg c fb :=
  List.take_of_length_le (by simp)

/-- R147: of the 18 calls, all of which can fail, six are writes. -/
theorem drawProg_counts (c : Cfg) (fb : List Pixel) :
    fallibleCount (drawProg c fb) = 18 ∧ waitCount (drawProg c fb) = 0 ∧ writeCount (drawProg c fb) = 6 := by
  obtain ⟨hfallible, hwait⟩ := fallibleCount_of_fallible (ops := drawProg c fb) fun _ => drawProg_fallible
  refine ⟨hfallible.trans (drawProg_length c fb), hwait, ?_⟩
  rw [drawProg_eq]
  rfl

/-- R144: a DRAW every call of which is answered `Ok`. -/
theorem exec_draw_answered (hb : s.busy = false) (hl : len = s.cfg.w * s.cfg.h)
    (hr : s.transport.take 18 = List.replicate 18 .ok) :
    exec (.draw fb len) s = .next (finish (drawRun s fb 18)) := by
  have hrun := runOps_allAnswered (s := accept .draw fb s) (cleaning_no_error rfl)
    (allAnswered_drawProg (c := s.cfg) (fb := fb) hr)
  rw [exec_draw_eq hb hl, hrun, drawRun, drawProg_take_all]
  rfl

/-- K13, R153: where the sink model is not given each of the 18 calls draws its free values. -/
theorem drawRun_unknown (h : ¬(s.ctrl = .ready ∧ scanGiven s.cfg = true)) (fb : List Pixel) :
    (drawRun s fb 18).fresh = s.fresh + 108 ∧ (drawRun s fb 18).ctl = scrambled (s.fresh + 102) := by
  have hunknown : sinkRuns (accept .draw fb s) = false := by simpa [sinkRuns] using h
  have hrun := okRun_unknown (ops := drawProg s.cfg fb) hunknown
  rw [(drawProg_counts ..).1] at hrun
  rw [drawRun, drawProg_take_all]
  exact hrun

/-- R147: DRAW_PROG leaves chip-select released, the selector at the data level and the reset line as it was. -/
theorem latchOf_drawProg {E : Type} (c : Cfg) (fb : List Pixel) (v : Line → Latch) :
    latchOf .cs (v .cs) ((drawProg c fb).map (okEvent (E := E) c)) = ofLevel (invert c.csAssert) ∧
      latchOf .dc (v .dc) ((drawProg c fb).map (okEvent (E := E) c)) = ofLevel (invert c.dcCmd) ∧
      latchOf .rst (v .rst) ((drawProg c fb).map (okEvent (E := E) c)) = v .rst := by
  refine ⟨?_, ?_, latchOf_rst_events (fun _ => setsReset_drawProg) _⟩ <;>
    simp [drawProg_eq, okEvent, callOf, latchOf, latchAfter]

/-- R144, R202: where a DRAW ends every call of which was answered `Ok`. -/
theorem finish_drawRun (s : State) (fb : List Pixel) :
    finish (drawRun s fb 18) =
      { s with
        cs := ofLevel (invert s.cfg.csAssert), dc := ofLevel (invert s.cfg.dcCmd)
        busy := false, op := .draw, upc := 18, pending := none, ferr := none
        pix := s.cfg.w * s.cfg.h, fb := [], ctl := (drawRun s fb 18).ctl, fresh := (drawRun s fb 18).fresh
        trace := s.trace ++ (drawProg s.cfg fb).map (okEvent s.cfg)
        hostLog := s.hostLog ++ [.req .draw s.trace.length, .res .ok (s.trace.length + 18)]
        transport := s.transport.drop 18 } := by
  have htiming : (drawRun s fb 18).timing = s.timing := by
    rw [drawRun, okRun_timing, drawProg_take_all, (drawProg_counts ..).2.1]
    simp
  obtain ⟨hcs, hdc, hrst⟩ := latchOf_drawProg (E := BusError) s.cfg fb (readLine s)
  have hlines := readLine_drawRun s fb 18
  rw [drawProg_take_all] at hlines
  simp only [finish, drawRun_op]
  apply state_eq <;> simp [drawRun_transport, drawRun_pix, htiming, payloadIndex, drawProg_take_all]
  · exact (hlines .cs).trans hcs
  · exact (hlines .dc).trans hdc
  · exact (hlines .rst).trans hrst

/-! ### A failed call -/

/-- R163: a DRAW whose first `u` calls were answered `Ok` and whose call `m` failed, before the fault is taken. -/
def drawFailed (s : State) (fb : List Pixel) (u : Nat) (m : MicroOp) (e : BusError) (n : Nat)
    (rs : List (Reply BusError)) : State :=
  effectErr m e n { issue m (drawRun s fb u) with transport := rs }

@[simp] theorem drawFailed_cfg : (drawFailed s fb u m e n rs).cfg = s.cfg := by simp [drawFailed]
@[simp] theorem drawFailed_op : (drawFailed s fb u m e n rs).op = .draw := by simp [drawFailed]
@[simp] theorem drawFailed_ctrl : (drawFailed s fb u m e n rs).ctrl = s.ctrl := by simp [drawFailed]
@[simp] theorem drawFailed_upc (hu : u ≤ 18) : (drawFailed s fb u m e n rs).upc = u := by simp [drawFailed, hu]
@[simp] theorem drawFailed_hostLog :
    (drawFailed s fb u m e n rs).hostLog = s.hostLog ++ [.req .draw s.trace.length] := by
  simp [drawFailed]
@[simp] theorem drawFailed_transport : (drawFailed s fb u m e n rs).transport = rs := by simp [drawFailed]
@[simp] theorem drawFailed_trace : (drawFailed s fb u m e n rs).trace =
    s.trace ++ ((drawProg s.cfg fb).take u).map (okEvent s.cfg) ++ [errEvent s.cfg e m] := by
  simp [drawFailed]

/-- R21 to R23: the lines are as the events left them, the failed one included. -/
theorem readLine_drawFailed (l : Line) : readLine (drawFailed s fb u m e n rs) l =
    latchOf l (readLine s l) (((drawProg s.cfg fb).take u).map (okEvent s.cfg) ++ [errEvent s.cfg e m]) := by
  have hissue : readLine { issue m (drawRun s fb u) with transport := rs } l = readLine (drawRun s fb u) l := by
    cases l <;> rfl
  rw [drawFailed, effectErr_latch, hissue, readLine_drawRun, latchOf_append]
  simp

/-- The transport answers the first `u` calls of a DRAW with `Ok`. -/
theorem allAnswered_take (hu : u ≤ 18) {replies : List (Reply BusError)}
    (hr : s.transport = List.replicate u .ok ++ replies) :
    AllAnswered ((drawProg s.cfg fb).take u) (accept .draw fb s) := by
  obtain ⟨hcount, hwait⟩ := fallibleCount_of_fallible (ops := (drawProg s.cfg fb).take u) fun m hm =>
    drawProg_fallible (List.mem_of_mem_take hm)
  simp [AllAnswered, hcount, hwait, hr, hu]

/-- R163: a DRAW that comes to a failed call takes the fault. -/
theorem exec_draw_err (hb : s.busy = false) (hl : len = s.cfg.w * s.cfg.h) (hm : (drawProg s.cfg fb)[u]? = some m)
    (hr : s.transport = List.replicate u .ok ++ .err e n :: rs) :
    exec (.draw fb len) s = .next (afterFault (takeBusFault e (drawFailed s fb u m e n rs))) := by
  obtain ⟨hu, hget⟩ := List.getElem?_eq_some_iff.1 hm
  rw [drawProg_length] at hu
  have hc : cleaning (accept .draw fb s) = none := cleaning_no_error rfl
  have hsplit : drawProg s.cfg fb = (drawProg s.cfg fb).take u ++ m :: (drawProg s.cfg fb).drop (u + 1) := by
    rw [← hget, ← List.drop_eq_getElem_cons, List.take_append_drop]
  have hnext : (okRun ((drawProg s.cfg fb).take u) (accept .draw fb s)).transport = .err e n :: rs :=
    (drawRun_transport s fb hu.le).trans (by simp [hr])
  have ha := answer_err (m := m) (s := issue m _) (drawProg_fallible (List.mem_of_getElem? hm)) hnext
  rw [exec_draw_eq hb hl, hsplit, runOps_prefix hc (allAnswered_take hu.le hr), runOps, call, complete]
  simp only [cleaning_issue, cleaning_okRun, hc, ha, finishRun]
  rfl

/-- R149: a DRAW whose last release fails ends there. -/
theorem exec_draw_last_err (hb : s.busy = false) (hl : len = s.cfg.w * s.cfg.h)
    (hr : s.transport = List.replicate 17 .ok ++ .err e n :: rs) :
    exec (.draw fb len) s = .next (respond (.drawErr e) (windowLost (drawFailed s fb 17 .csR e n rs))) := by
  have hu : ¬(drawFailed s fb 17 .csR e n rs).upc < 17 := by simp [drawFailed]
  rw [exec_draw_err hb hl (drawProg_cleanup s.cfg fb) hr, cleanupIndex,
    afterFault_draw_last (drawFailed_op ..) hu, takeBusFault_draw_last (drawFailed_op ..) hu]

/-- R91, R150: the answer to the clean-up's release does nothing to a controller the spec gives. -/
theorem answer_csR_sink {s t : State} (h : answer .csR s = .ok t ∨ ∃ e, answer .csR s = .err e t) :
    t.upc = s.upc ∧ (sinkRuns s = true → s.upc = cleanupIndex → t.ctl = s.ctl) := by
  rcases h with h | ⟨e, h⟩
  · obtain ⟨rs, ts, -, rfl⟩ := answer_ok_inv h
    exact ⟨by simp, fun hr _ => (effectOk_set (s := { s with transport := rs, timing := ts }) rfl hr).1⟩
  · obtain ⟨n, rs, -, rfl, -⟩ := answer_err_inv h
    refine ⟨by simp, fun hr hu => (effectErr_set (s := { s with transport := rs }) rfl hr ?_).1⟩
    simp [cutsShort, callOf, opcodeCalls, hu, cleanupIndex]

/-- R57, K10: a failed DRAW loses cells of the memory, not the window registers. -/
@[simp] theorem registers_forgetWindow (axis : WindowAxis) (c : Cfg) (k : Controller) :
    axis.registers (forgetWindow c k) = axis.registers k := by
  cases axis <;> rfl

/-- R150, R165: a DRAW that fails before its last release ends with the answer to the clean-up, whatever it is. -/
theorem exec_draw_cleaned_up {r : Reply BusError} {a : Answer BusError} (hb : s.busy = false)
    (hl : len = s.cfg.w * s.cfg.h) (hu : u < 17) (hm : (drawProg s.cfg fb)[u]? = some m)
    (hr : s.transport = List.replicate u .ok ++ .err e n :: r :: rs) (ha : replyAnswer r = some a) :
    ∃ t, exec (.draw fb len) s = .next (endCleanup e t) ∧
      t.trace = (drawFailed s fb u m e n (r :: rs)).trace ++ [.set .cs (invert s.cfg.csAssert) a] ∧
      t.cs = latchAfter (invert s.cfg.csAssert) a ∧ t.dc = (drawFailed s fb u m e n (r :: rs)).dc ∧
      t.transport = rs ∧ t.hostLog = (drawFailed s fb u m e n (r :: rs)).hostLog ∧ t.upc = 17 ∧
      (s.ctrl = .ready → scanGiven s.cfg = true → ∀ axis : WindowAxis,
        axis.registers t.ctl = axis.registers (drawFailed s fb u m e n (r :: rs)).ctl) := by
  have hu' : u ≤ 18 := by omega
  generalize hfailed : drawFailed s fb u m e n (r :: rs) = f
  have hcfg : f.cfg = s.cfg := by rw [← hfailed, drawFailed_cfg]
  have hop : f.op = .draw := by rw [← hfailed, drawFailed_op]
  have hctrl : f.ctrl = s.ctrl := by rw [← hfailed, drawFailed_ctrl]
  have hfault := afterFault_draw (e := e) hop (by simp [← hfailed, drawFailed])
    (by rwa [← hfailed, drawFailed_upc hu'])
  obtain ⟨t, hanswer, htrace, hcs, hdc, htransport, hlog⟩ :=
    answer_csR (s := issue .csR { windowLost f with ferr := some e, upc := 17 }) (r := r) (rs := rs)
      (by simp [← hfailed]) ha
  obtain ⟨hupc, hctl⟩ := answer_csR_sink hanswer
  refine ⟨t, ?_, by simpa [hcfg] using htrace, by simpa [hcfg] using hcs, hdc, htransport, hlog, hupc,
    fun hready hscan axis => ?_⟩
  · rw [exec_draw_err hb hl hm hr, hfailed, hfault, completeCleanup_answered hanswer]
  · have hruns : sinkRuns f = true := by simp [sinkRuns, hcfg, hop, hctrl, hready, hscan]
    rw [hctl hruns rfl]
    exact registers_forgetWindow axis f.cfg f.ctl

/-! ### The controller at the failed call (R39, R55, K13) -/

/-- K13: a DRAW whose call `u` failed with `n` bytes delivered left the controller between two commands, and what
it has taken is the first `v` calls. -/
inductive TakenWhole (c : Cfg) (u n : Nat) : Nat → Prop
  /-- A set with no opcode before it that waits for data, or an opcode of which nothing was delivered. -/
  | before (hu : u ∉ [3, 4, 9, 10, 15, 16]) (hn : u ∈ opcodeCalls → n = 0) : TakenWhole c u n u
  /-- Bounds delivered whole. -/
  | bounds (hu : u = 4 ∨ u = 10) (hn : 4 ≤ n) : TakenWhole c u n (u + 1)
  /-- The payload delivered whole. -/
  | payload (hu : u = 16) (hn : 2 * (c.w * c.h) ≤ n) : TakenWhole c u n (u + 1)

/-- R55: a failure between two commands before CASET's bounds were delivered. -/
theorem takenWhole_up_to_caset (h : u ≤ 1 ∨ u = 2 ∧ n = 0) : ∃ v, TakenWhole c u n v ∧ v ≤ 4 := by
  refine ⟨u, .before ?_ ?_, by omega⟩ <;> simp [opcodeCalls] <;> omega

/-- R55: a failure between two commands after CASET's bounds and before RASET's. -/
theorem takenWhole_up_to_raset (h : u = 4 ∧ 4 ≤ n ∨ 5 ≤ u ∧ u ≤ 7 ∨ u = 8 ∧ n = 0) :
    ∃ v, TakenWhole c u n v ∧ 4 < v ∧ v ≤ 10 := by
  rcases h with ⟨hu, hn⟩ | h
  · exact ⟨u + 1, .bounds (.inl hu) hn, by omega⟩
  · refine ⟨u, .before ?_ ?_, by omega⟩ <;> simp [opcodeCalls] <;> omega

/-- R55: a failure between two commands, or of the whole payload, after RASET's bounds. -/
theorem takenWhole_past_raset (h : u = 10 ∧ 4 ≤ n ∨ 11 ≤ u ∧ u ≤ 13 ∨ u = 14 ∧ n = 0 ∨
    u = 16 ∧ 2 * (c.w * c.h) ≤ n) : ∃ v, TakenWhole c u n v ∧ 10 < v := by
  have hbefore (h : 11 ≤ u ∧ u ≤ 13 ∨ u = 14 ∧ n = 0) : TakenWhole c u n u := by
    refine .before ?_ ?_ <;> simp [opcodeCalls] <;> omega
  rcases h with ⟨hu, hn⟩ | h | h | ⟨hu, hn⟩
  · exact ⟨u + 1, .bounds (.inr hu) hn, by omega⟩
  · exact ⟨u, hbefore (.inl h), by omega⟩
  · exact ⟨u, hbefore (.inr h), by omega⟩
  · exact ⟨u + 1, .payload hu hn, by omega⟩

/-- R39: a failed write that leaves the controller between two commands has delivered its first `n` bytes. -/
theorem drawFailed_ctl_write {tag : Tag} {bytes : List Byte} (hr : s.ctrl = .ready) (hg : sinkGiven s.cfg = true)
    (hw : (u, tag, bytes) ∈ drawWrites s.cfg fb) (hcut : cutsShort (.wr bytes) n (drawRun s fb u) = false) :
    (drawFailed s fb u (.wr bytes) e n rs).ctl =
      sinkBytes s.cfg (drawRun s fb u).fresh tag (bytes.take n) (drawRun s fb u).ctl := by
  have hruns : sinkRuns (drawRun s fb u) = true := by simp [hr, (sinkGiven_iff.1 hg).1]
  have herr := effectErr_write (s := { issue (.wr bytes) (drawRun s fb u) with transport := rs }) (bytes := bytes)
    (e := e) (n := n) hruns (by simpa using tagOf_drawRun hw) hcut
  exact herr.1.trans (by simp [claimedPm_given hg])

/-- R39: a failed call of which nothing reached the controller, between two commands. -/
theorem drawFailed_ctl_before (hr : s.ctrl = .ready) (hg : sinkGiven s.cfg = true)
    (hm : (drawProg s.cfg fb)[u]? = some m) (hu : u ∉ [3, 4, 9, 10, 15, 16]) (hn : u ∈ opcodeCalls → n = 0) :
    (drawFailed s fb u m e n rs).ctl = (drawRun s fb u).ctl := by
  have hupc : (drawRun s fb u).upc = u := drawRun_upc s fb (index_lt_of_call hm).le
  simp only [List.mem_cons, List.not_mem_nil, or_false, not_or] at hu
  rcases drawProg_call hm with ⟨-, line, level, hset⟩ | ⟨tag, bytes, rfl, hw⟩
  · have hruns : sinkRuns (drawRun s fb u) = true := by simp [hr, (sinkGiven_iff.1 hg).1]
    have hcut : cutsShort m n (drawRun s fb u) = false := by
      simp only [cutsShort, drawRun_cfg, hset, hupc, opcodeCalls, List.map_cons, List.map_nil, List.mem_cons,
        List.not_mem_nil, or_false, decide_eq_false_iff_not]
      omega
    exact (effectErr_set (s := { issue m (drawRun s fb u) with transport := rs }) (by simpa using hset) hruns hcut).1
  · have hopcode : u ∈ opcodeCalls := by
      simp only [drawWrites, List.mem_cons, Prod.mk.injEq, List.not_mem_nil, or_false] at hw
      simp only [opcodeCalls, List.mem_cons, List.not_mem_nil, or_false]
      omega
    obtain rfl := hn hopcode
    exact drawFailed_ctl_write hr hg hw (by simp [cutsShort, callOf, hupc, hopcode])

/-- R39: a failed write of data all of which reached the controller. -/
theorem drawFailed_ctl_whole {bytes : List Byte} (hr : s.ctrl = .ready) (hg : sinkGiven s.cfg = true)
    (hm : (drawProg s.cfg fb)[u]? = some (.wr bytes)) (hu : u ∉ opcodeCalls) (hn : bytes.length ≤ n) :
    (drawFailed s fb u (.wr bytes) e n rs).ctl = (drawRun s fb (u + 1)).ctl := by
  have hupc : (drawRun s fb u).upc = u := drawRun_upc s fb (index_lt_of_call hm).le
  rcases drawProg_call hm with ⟨-, line, level, hset⟩ | ⟨tag, bytes', hbytes, hw⟩
  · cases hset
  · obtain rfl := MicroOp.wr.inj hbytes
    have hruns : sinkRuns (drawRun s fb u) = true := by simp [hr, (sinkGiven_iff.1 hg).1]
    have hcut : cutsShort (.wr bytes) n (drawRun s fb u) = false := by simp [cutsShort, callOf, hupc, hu, hn]
    rw [drawRun_succ hm, okCall_ctl_write hruns (by simpa using tagOf_drawRun hw), drawRun_cfg, claimedPm_given hg,
      drawFailed_ctl_write hr hg hw hcut, List.take_of_length_le hn]

/-- R39: the controller then is as the calls it has taken whole left it. -/
theorem drawFailed_ctl {v : Nat} (hr : s.ctrl = .ready) (hg : sinkGiven s.cfg = true)
    (hm : (drawProg s.cfg fb)[u]? = some m) (h : TakenWhole s.cfg u n v) :
    (drawFailed s fb u m e n rs).ctl = (drawRun s fb v).ctl := by
  cases h with
  | before hu hn => exact drawFailed_ctl_before hr hg hm hu hn
  | bounds hu hn =>
    obtain ⟨a, b, rfl⟩ : ∃ a b, m = .wr (boundBytes a b) := by
      rw [drawProg_eq] at hm
      rcases hu with rfl | rfl <;> exact ⟨_, _, (Option.some.inj hm).symm⟩
    exact drawFailed_ctl_whole hr hg hm (by rcases hu with rfl | rfl <;> decide) hn
  | payload hu hn =>
    obtain rfl : m = .wr (pixBytes s.cfg fb) := by
      rw [hu, drawProg_eq] at hm
      exact (Option.some.inj hm).symm
    exact drawFailed_ctl_whole hr hg hm (by rw [hu]; decide) (by simpa using hn)

/-- R55, R117: the window registers then. -/
theorem registers_drawFailed {v : Nat} (axis : WindowAxis) (hr : s.ctrl = .ready) (hg : sinkGiven s.cfg = true)
    (hm : (drawProg s.cfg fb)[u]? = some m) (h : TakenWhole s.cfg u n v) :
    axis.registers (drawFailed s fb u m e n rs).ctl =
      if v ≤ axis.index + 2 then axis.registers s.ctl else axis.bounds s.cfg := by
  obtain ⟨hscan, hcr, hcw, hrw⟩ := sinkGiven_iff.1 hg
  have halone : axis.alone s.cfg := by
    cases axis with
    | columns => exact ⟨hcr, hcw⟩
    | rows => exact ⟨hcr.symm, hrw⟩
  have hv : v ≤ 18 := by
    cases h with
    | before => exact (index_lt_of_call hm).le
    | bounds | payload => omega
  rw [drawFailed_ctl hr hg hm h]
  exact (windowAt_drawRun hr hscan halone hv).value

/-- R111, R117: the bounds of both pairs, written out. -/
theorem WindowAxis.bounds_eq (c : Cfg) :
    WindowAxis.columns.bounds c = (BitVec.ofNat 16 c.cOff, BitVec.ofNat 16 (c.w - 1 + c.cOff)) ∧
      WindowAxis.rows.bounds c = (BitVec.ofNat 16 c.rOff, BitVec.ofNat 16 (c.h - 1 + c.rOff)) := by
  simp [bounds, toBound, physColumn, physRow]

theorem window_eq {k : Controller} {x y : Bound × Bound} (hx : WindowAxis.columns.registers k = x)
    (hy : WindowAxis.rows.registers k = y) : (k.xs, k.xe, k.ys, k.ye) = (x.1, x.2, y.1, y.2) := by
  rw [← hx, ← hy]
  rfl

end Sys2Proof.Machine
end

section
/-! Two DRAWs from the same configuration, framebuffer and answers, whatever happened before (R152): they go through
the same calls, side by side. -/

namespace Sys2Proof.Machine

variable {E : Type} {b b' s s' : State.Over E} {m : MicroOp}

/-- The record of a result, of which `x` holds the number of events since a moment when there were `n`. -/
def resultSince (n : Nat) (x : Result E × Nat) : HostEvent E := .res x.1 (n + x.2)

/-- Two states of a DRAW that differ only in what was there before it began in `b` and `b'`: the reset line, the
controller, the timing source, the latches, the older events and the older records. -/
structure Alike (b b' s s' : State.Over E) : Prop where
  cfg : s'.cfg = s.cfg
  op : s.op = .draw ∧ s'.op = .draw
  busy : s'.busy = s.busy
  upc : s'.upc = s.upc
  pending : s'.pending = s.pending
  ferr : s'.ferr = s.ferr
  pix : s'.pix = s.pix
  transport : s'.transport = s.transport
  trace : ∃ events, s.trace = b.trace ++ events ∧ s'.trace = b'.trace ++ events
  log : ∃ results : List (Result E × Nat), s.hostLog = b.hostLog ++ results.map (resultSince b.trace.length) ∧
    s'.hostLog = b'.hostLog ++ results.map (resultSince b'.trace.length)

theorem Alike.cleaning_eq (h : Alike b b' s s') : cleaning s' = cleaning s :=
  cleaning_congr (h.op.2.trans h.op.1.symm) h.ferr

theorem Alike.isPayload_eq (h : Alike b b' s s') : isPayload s' = isPayload s := by
  simp [isPayload, h.op.1, h.op.2, h.upc]

/-! ### The answers to a call -/

theorem Alike.after_issue (h : Alike b b' s s') (m : MicroOp) : Alike b b' (issue m s) (issue m s') :=
  { h with pending := rfl }

theorem Alike.after_reply (h : Alike b b' s s') (rs : List (Reply E)) :
    Alike b b' { s with transport := rs } { s' with transport := rs } := { h with transport := rfl }

theorem Alike.after_advance (h : Alike b b' s s') : Alike b b' (advance s) (advance s') :=
  { h with upc := congrArg (· + 1) h.upc }

theorem Alike.after_readAhead (h : Alike b b' s s') : Alike b b' (readAhead s) (readAhead s') := by
  unfold readAhead
  by_cases hp : isPayload s = true ∧ s.pix < s.cfg.w * s.cfg.h
  · rw [if_pos hp, if_pos (by rwa [h.isPayload_eq, h.pix, h.cfg])]
    exact { h with pix := congrArg (· + 1) h.pix }
  · rw [if_neg hp, if_neg (by rwa [h.isPayload_eq, h.pix, h.cfg])]
    exact h

theorem readDelivered_pix (n : Nat) (s : State.Over E) : (readDelivered n s).pix =
    if isPayload s then max s.pix ((min n (2 * (s.cfg.w * s.cfg.h)) + 1) / 2) else s.pix := by
  unfold readDelivered
  split <;> rfl

/-- R47: only a write that failed at the payload has read pixels it did not deliver. -/
theorem effectErr_pix_eq (m : MicroOp) (e : E) (n : Nat) (s : State.Over E) :
    (effectErr m e n s).pix = if isWrite m then (readDelivered n s).pix else s.pix := by
  cases m <;> simp [effectErr, callOf, writeFailed, isWrite, readDelivered_pix, isPayload]

theorem Alike.after_effectErr (h : Alike b b' s s') (m : MicroOp) (e : E) (n : Nat) :
    Alike b b' (effectErr m e n s) (effectErr m e n s') where
  cfg := by simp [h.cfg]
  op := by simp [h.op]
  busy := by simp [h.busy]
  upc := by simp [h.upc]
  pending := by simp
  ferr := by simp [h.ferr]
  pix := by simp [effectErr_pix_eq, readDelivered_pix, h.isPayload_eq, h.pix, h.cfg]
  transport := by simp [h.transport]
  trace := by
    obtain ⟨events, ht, ht'⟩ := h.trace
    exact ⟨events ++ [errEvent s.cfg e m], by simp [ht], by simp [ht', h.cfg]⟩
  log := by simpa using h.log

theorem Alike.after_effectOk (h : Alike b b' s s') (m : MicroOp) : Alike b b' (effectOk m s) (effectOk m s') where
  cfg := by simp [h.cfg]
  op := by simp [h.op]
  busy := by simp [h.busy]
  upc := by simp [h.upc]
  pending := by simp
  ferr := by simp [h.ferr]
  pix := by simp [effectOk_pix_eq, h.isPayload_eq, h.pix, h.cfg]
  transport := by simp [h.transport]
  trace := by
    obtain ⟨events, ht, ht'⟩ := h.trace
    exact ⟨events ++ [okEvent s.cfg m], by simp [ht], by simp [ht', h.cfg]⟩
  log := by simpa using h.log

/-- Two answers of one kind, to states alike. -/
inductive AlikeAnswered (b b' : State.Over E) : Answered E → Answered E → Prop
  | waiting {t t' : State.Over E} (h : Alike b b' t t') : AlikeAnswered b b' (.waiting t) (.waiting t')
  | ok {t t' : State.Over E} (h : Alike b b' t t') : AlikeAnswered b b' (.ok t) (.ok t')
  | err {t t' : State.Over E} (e : E) (h : Alike b b' t t') : AlikeAnswered b b' (.err e t) (.err e t')

/-- R98: the transport alone answers a set or a write. -/
theorem Alike.after_answer (h : Alike b b' s s') (hf : fallible m = true) :
    AlikeAnswered b b' (answer m s) (answer m s') := by
  simp only [answer, hf, if_true, answerTransport, h.transport]
  split
  · exact .waiting h
  · next rs _ => exact .waiting (h.after_reply rs).after_readAhead
  · next rs _ => exact .ok ((h.after_reply rs).after_effectOk m)
  · next e n rs _ => exact .err e ((h.after_reply rs).after_effectErr m e n)

/-! ### The end of the DRAW, its fault and its clean-up -/

theorem Alike.after_respond (h : Alike b b' s s') (r : Result E) : Alike b b' (respond r s) (respond r s') :=
  { h with
    busy := rfl
    pending := rfl
    ferr := rfl
    log := by
      obtain ⟨events, ht, ht'⟩ := h.trace
      obtain ⟨results, hl, hl'⟩ := h.log
      exact ⟨results ++ [(r, events.length)], by simp [hl, ht, resultSince], by simp [hl', ht', resultSince]⟩ }

theorem Alike.after_windowLost (h : Alike b b' s s') : Alike b b' (windowLost s) (windowLost s') := { h with }

theorem Alike.after_finish (h : Alike b b' s s') : Alike b b' (finish s) (finish s') := by
  simp only [finish, h.op.1, h.op.2]
  exact h.after_respond .ok

theorem Alike.after_takeBusFault (h : Alike b b' s s') (e : E) :
    Alike b b' (takeBusFault e s) (takeBusFault e s') := by
  simp only [takeBusFault, h.op.1, h.op.2, h.upc]
  split
  · exact { h.after_windowLost with upc := rfl, ferr := rfl }
  · exact h.after_windowLost.after_respond (.drawErr e)

theorem Alike.after_completeCleanup (h : Alike b b' s s') (first : E) (hf : fallible m = true) :
    Alike b b' (completeCleanup first m s) (completeCleanup first m s') := by
  have ha := h.after_answer hf
  unfold completeCleanup
  generalize answer m s = x, answer m s' = x' at ha ⊢
  cases ha with
  | waiting h => exact h
  | ok h | err e h => exact h.after_windowLost.after_respond (.drawErr first)

theorem Alike.after_afterFault (h : Alike b b' s s') : Alike b b' (afterFault s) (afterFault s') := by
  simp only [afterFault, h.busy, h.cleaning_eq]
  split
  · exact (h.after_issue .csR).after_completeCleanup _ rfl
  · exact h
  · exact h

/-! ### A run of calls -/

/-- Two runs that came equally far, to states alike. -/
inductive AlikeProgress (b b' : State.Over E) : Progress E → Progress E → Prop
  | going {t t' : State.Over E} (h : Alike b b' t t') : AlikeProgress b b' (.going t) (.going t')
  | stopped {t t' : State.Over E} (h : Alike b b' t t') : AlikeProgress b b' (.stopped t) (.stopped t')

theorem Alike.after_complete (h : Alike b b' s s') (hf : fallible m = true) :
    AlikeProgress b b' (complete m s) (complete m s') := by
  have ha := h.after_answer hf
  simp only [complete, h.cleaning_eq]
  split
  · exact .stopped (h.after_completeCleanup _ hf)
  · generalize answer m s = x, answer m s' = x' at ha ⊢
    cases ha with
    | waiting h => exact .stopped h
    | ok h => exact .going h.after_advance
    | err e h => exact .stopped (h.after_takeBusFault e).after_afterFault

theorem Alike.after_runOps {ops : List MicroOp} (h : Alike b b' s s') (hf : ∀ m ∈ ops, fallible m = true) :
    AlikeProgress b b' (runOps ops s) (runOps ops s') := by
  induction ops generalizing s s' with
  | nil => exact .going h
  | cons m ms ih =>
    obtain ⟨hm, hms⟩ := List.forall_mem_cons.1 hf
    have hc := (h.after_issue m).after_complete hm
    unfold runOps call
    generalize complete m (issue m s) = p, complete m (issue m s') = p' at hc ⊢
    cases hc with
    | going h => exact ih h hms
    | stopped h => exact .stopped h

theorem AlikeProgress.after_finishRun {p p' : Progress E} (h : AlikeProgress b b' p p') :
    Alike b b' (finishRun p) (finishRun p') := by
  cases h with
  | going h => exact h.after_finish
  | stopped h => exact h

/-- A call that is issued takes the place of whatever was outstanding. -/
theorem runOps_pending {ops : List MicroOp} (h : ops ≠ []) (p : Option MicroOp) (s : State.Over E) :
    runOps ops { s with pending := p } = runOps ops s := by
  cases ops with
  | nil => exact absurd rfl h
  | cons => rfl

/-- R144: two DRAWs just accepted. -/
theorem alike_accept {s s' : State.Over E} (fb : List Pixel) (hcfg : s'.cfg = s.cfg)
    (hr : s'.transport = s.transport) :
    Alike (accept .draw fb s) (accept .draw fb s') { accept .draw fb s with pending := none }
      { accept .draw fb s' with pending := none } where
  cfg := hcfg
  op := ⟨rfl, rfl⟩
  busy := rfl
  upc := rfl
  pending := rfl
  ferr := rfl
  pix := rfl
  transport := hr
  trace := ⟨[], by simp⟩
  log := ⟨[], by simp⟩

/-- R152: whatever the answers, the two DRAWs come to states alike. -/
theorem alike_exec_draw {s s' : State} {fb : List Pixel} {len : Nat} (hb : s.busy = false) (hb' : s'.busy = false)
    (hcfg : s'.cfg = s.cfg) (hr : s'.transport = s.transport) (hl : len = s.cfg.w * s.cfg.h) :
    ∃ t t', exec (.draw fb len) s = .next t ∧ exec (.draw fb len) s' = .next t' ∧
      Alike (accept .draw fb s) (accept .draw fb s') t t' := by
  have hne : drawProg s.cfg fb ≠ [] := by simp [drawProg_eq]
  have hrun := (alike_accept fb hcfg hr).after_runOps (ops := drawProg s.cfg fb) fun _ => drawProg_fallible
  rw [runOps_pending hne, runOps_pending hne] at hrun
  exact ⟨_, _, exec_draw_eq hb hl, hcfg ▸ exec_draw_eq hb' (hcfg ▸ hl), hrun.after_finishRun⟩

/-- R206: of the records since the request, one DRAW has a result at the end of its trace if the other has it. -/
theorem Alike.result_mem {s s' t t' : State.Over E} {fb : List Pixel}
    (h : Alike (accept .draw fb s) (accept .draw fb s') t t') (r : Result E) :
    .res r t.trace.length ∈ t.hostLog.drop s.hostLog.length ↔
      .res r t'.trace.length ∈ t'.hostLog.drop s'.hostLog.length := by
  obtain ⟨events, ht, ht'⟩ := h.trace
  obtain ⟨results, hl, hl'⟩ := h.log
  simp [hl, hl', ht, ht', resultSince]

end Sys2Proof.Machine
end

section
/-! The obligations of the frame transfer (43_frame_transfer.md). -/

open Sys2Proof Sys2Proof.Machine

/-- Settles O37: the 18 calls answered, as events, latches and pixels read; then the controller, by either pair of
its window registers, and by its free values where the sink model is not given. -/
theorem drawCompletes : Obligations.DrawCompletes := by
  intro s fb len hb hl hr
  obtain ⟨hcolumns, hrows⟩ := WindowAxis.bounds_eq s.cfg
  refine ⟨(drawRun s fb 18).ctl, (drawRun s fb 18).fresh, ?_, fun hready hscan => ⟨?_, fun hcr hcw => ?_,
    fun hrc hrw => ?_⟩, fun hunknown => drawRun_unknown hunknown fb⟩
  · obtain ⟨hcolumns, hrows⟩ := fullWindow_bytes s.cfg
    rw [exec_draw_answered hb hl hr, finish_drawRun, drawProg_eq, hcolumns, hrows]
    rfl
  · rw [drawRun_fresh hready hscan (Nat.le_refl 18), drawProg_take_all, (drawProg_counts ..).2.2]
  · have hat := (windowAt_drawRun (axis := .columns) (fb := fb) hready hscan ⟨hcr, hcw⟩ (Nat.le_refl 18)).value
    exact Prod.mk.inj (hat.trans hcolumns)
  · have hat := (windowAt_drawRun (axis := .rows) (fb := fb) hready hscan ⟨hrc, hrw⟩ (Nat.le_refl 18)).value
    exact Prod.mk.inj (hat.trans hrows)

/-- Settles O38: the calls before the failed one are answered, its fault puts the sequencer at the last release, and
the answer to that ends the DRAW; the window registers by how many calls the controller had taken whole. -/
theorem drawCleansUpAfterError : Obligations.DrawCleansUpAfterError := by
  intro s fb len pre post m e n r a rs hb hl hprog hpost hr ha
  obtain ⟨htake, hm, hlast⟩ := drawProg_split hprog
  obtain ⟨hcolumns, hrows⟩ := WindowAxis.bounds_eq s.cfg
  obtain ⟨t, hexec, htrace, hcs, hdc, htransport, hlog, hupc, hregs⟩ :=
    exec_draw_cleaned_up hb hl (hlast hpost) hm hr ha
  have hwindow : s.ctrl = .ready → sinkGiven s.cfg = true → ∀ v, TakenWhole s.cfg pre.length n v →
      ∀ axis : WindowAxis, axis.registers (endCleanup e t).ctl =
        if v ≤ axis.index + 2 then axis.registers s.ctl else axis.bounds s.cfg :=
    fun hready hg v hv axis => (registers_forgetWindow axis _ _).trans
      ((hregs hready (sinkGiven_iff.1 hg).1 axis).trans (registers_drawFailed axis hready hg hm hv))
  rw [drawFailed_trace, htake] at htrace
  refine ⟨endCleanup e t, hexec, by simpa [endCleanup] using htrace, htransport, rfl, rfl, rfl, hupc, hcs, ?_, ?_,
    fun hready hg => ⟨?_, ?_, ?_⟩⟩
  · rw [← htake]
    exact hdc.trans (readLine_drawFailed .dc)
  · simp [endCleanup, hlog, htrace, Nat.add_assoc]
  · intro hcase
    obtain ⟨v, hv, hmax⟩ := takenWhole_up_to_caset (c := s.cfg) hcase
    have hmax' : v ≤ WindowAxis.rows.index + 2 := by
      simp only [WindowAxis.index]
      omega
    exact window_eq ((hwindow hready hg v hv .columns).trans (if_pos hmax))
      ((hwindow hready hg v hv .rows).trans (if_pos hmax'))
  · intro hcase
    obtain ⟨v, hv, hmin, hmax⟩ := takenWhole_up_to_raset (c := s.cfg) hcase
    exact window_eq (((hwindow hready hg v hv .columns).trans (if_neg hmin.not_ge)).trans hcolumns)
      ((hwindow hready hg v hv .rows).trans (if_pos hmax))
  · intro hcase
    obtain ⟨v, hv, hmin⟩ := takenWhole_past_raset (c := s.cfg) hcase
    have hpast : ¬v ≤ WindowAxis.columns.index + 2 := by
      simp only [WindowAxis.index]
      omega
    exact window_eq (((hwindow hready hg v hv .columns).trans (if_neg hpast)).trans hcolumns)
      (((hwindow hready hg v hv .rows).trans (if_neg hmin.not_ge)).trans hrows)

/-- Settles O39: the last release's fault ends the DRAW, whose payload the call before it delivered. -/
theorem drawFinalReleaseFails : Obligations.DrawFinalReleaseFails := by
  intro s fb len e n rs hb hl hr
  obtain ⟨hcolumns, hrows⟩ := WindowAxis.bounds_eq s.cfg
  refine ⟨_, exec_draw_last_err hb hl hr, by simp [errEvent, callOf], by simp, rfl, rfl,
    ?_, ?_, ?_, fun hready hg => ?_⟩
  · simpa [readLine, latchOf_append, errEvent, callOf, latchOf, latchAfter] using
      readLine_drawFailed (s := s) (fb := fb) (u := 17) (m := .csR) (e := e) (n := n) (rs := rs) .cs
  · simp [drawFailed, effectErr, callOf, drawRun_pix, payloadIndex]
  · simp
  · have hwindow (axis : WindowAxis) : axis.registers (respond (.drawErr e)
        (windowLost (drawFailed s fb 17 .csR e n rs))).ctl = axis.bounds s.cfg := by
      rw [respond_ctl, windowLost_ctl, registers_forgetWindow, registers_drawFailed (u := 17) axis hready hg
        (drawProg_cleanup s.cfg fb) (.before (by decide) fun h => absurd h (by decide)), if_neg]
      cases axis <;> decide
    exact window_eq ((hwindow .columns).trans hcolumns) ((hwindow .rows).trans hrows)

/-- Settles O41: the two DRAWs go through the same calls, side by side. -/
theorem drawIndependentOfHistory : Obligations.DrawIndependentOfHistory := by
  intro s s' fb len hb hb' hcfg hr hl
  obtain ⟨t, t', hexec, hexec', h⟩ := alike_exec_draw (fb := fb) hb hb' hcfg hr hl
  obtain ⟨events, htrace, htrace'⟩ := h.trace
  exact ⟨t, t', events, hexec, hexec', htrace, htrace', h.busy, h.pending, h.upc, h.ferr, h.pix, h.result_mem⟩

/-- Settles O43: the payload is the framebuffer, two bytes for each pixel. -/
theorem payloadIsPixelsHighByteFirst : Obligations.PayloadIsPixelsHighByteFirst := by
  intro c fb hlen
  refine ⟨pixBytes_length c fb, fun i p hp => ?_⟩
  rw [pixBytes_of_length hlen]
  exact getElem?_flatMap_be16 hp

/-- Settles O45: the status by `Within`; the reset line, since no call of DRAW_PROG and no clean-up sets it. -/
theorem drawNeverTouchesResetOrStatus : Obligations.DrawNeverTouchesResetOrStatus := by
  constructor
  · intro s t fb len h
    rcases exec_draw_inv h with rfl | rfl
    · exact ⟨rfl, rfl⟩
    · have hrun := runOps_rst (ops := drawProg s.cfg fb) (s := accept .draw fb s) (cleaning_no_error rfl)
        fun _ => setsReset_drawProg
      exact ⟨(finishRun_rst _).trans hrun, (within_finishRun (s := accept .draw fb s) rfl).inDraw rfl⟩
  · intro s t hinv hb ho h
    have hstep := step_cases h
    exact ⟨hstep.rst_of_draw hinv hb ho, (hstep.within_of_busy hb).inDraw ho⟩

/-- Settles O50: three groups, each on the wire whatever the latches before it. -/
theorem wireViewOfDraw : Obligations.WireViewOfDraw := by
  intro E c fb cs dc
  obtain ⟨hcolumns, hrows⟩ := fullWindow_bytes c
  rw [drawProg_groups, List.map_append, wireFrom_append, wireFrom_group, List.map_append, wireFrom_append,
    wireFrom_group, wireFrom_payloadGroup, hcolumns, hrows]
  simp

/-- Settles O36: the length check comes before everything else. -/
theorem drawRejectsWrongLength : Obligations.DrawRejectsWrongLength := fun _ _ _ => exec_draw_rejected

/-- Settles O42: DRAW_PROG call by call, the bounds written out. -/
theorem drawProgramWrittenOut : Obligations.DrawProgramWrittenOut := by
  intro c fb
  obtain ⟨hcount, -⟩ := drawProg_counts c fb
  obtain ⟨hcolumns, hrows⟩ := fullWindow_bytes c
  refine ⟨?_, drawProg_length c fb, hcount⟩
  rw [drawProg_eq, hcolumns, hrows]

end

section
/-! A call that is not answered (R26, R170), and the results an operation adds to the host log (R74, R160). -/

namespace Sys2Proof.Machine

/-! ### No answer -/

/-- R98, R170: with no reply left from the agent that answers it, a call stays outstanding. -/
theorem answer_none_left {E : Type} {m : MicroOp} {s : State.Over E} (hr : fallible m = true → s.transport = [])
    (ht : fallible m = false → s.timing = []) : answer m s = .waiting s := by
  cases hf : fallible m with
  | true => exact answer_unanswered hf (hr hf)
  | false => simp [answer, hf, answerDelay, ht hf]

/-- R26: while the outstanding call has no answer a step does nothing more, in a clean-up or out of it. -/
theorem step_waiting {s t : State} {m : MicroOp} (hb : s.busy = true) (hm : s.pending = some m)
    (ha : answer m s = .waiting t) : step s = .next t := by
  rw [step_resume hb (.inl (by simp [hm]))]
  cases hc : cleaning s with
  | none => simp [continueOp, hm, complete, hc, ha]
  | some e => simp [continueOp, hm, complete, hc, completeCleanup, ha]

/-! ### Results -/

/-- R73: a DRAW that answers found the block idle. -/
theorem exec_draw_idle {s t : State} {fb : List Pixel} {len : Nat} (h : exec (.draw fb len) s = .next t) :
    s.busy = false := by
  cases hb : s.busy with
  | false => rfl
  | true => simp [exec, execDraw, hb] at h

/-- R74, R160: a result the operation running in `s` can have, its error one that it held or one of the replies
`used`. -/
def NamesOperation {E : Type} (s : State.Over E) (used : List (Reply E)) (r : Result E) : Prop :=
  r = .ok ∨ (s.op = .init ∧ ∃ e k, r = .initErr e ∧ .err e k ∈ used) ∨
    (s.op = .draw ∧ ∃ e, r = .drawErr e ∧ (s.ferr = some e ∨ ∃ k, .err e k ∈ used))

section

variable {E : Type} {s t : State.Over E}

/-- The replies taken between two states are the same list, however they were found. -/
theorem Took.mem {e : E} {used : List (Reply E)} (h : Took s t e) (hused : s.transport = used ++ t.transport) :
    ∃ k, .err e k ∈ used := by
  obtain ⟨used', k, hused', hk⟩ := h
  obtain rfl : used' = used := List.append_cancel_right (hused'.symm.trans hused)
  exact ⟨k, hk⟩

/-- R74, R206: of the records a running operation adds, every result is one of its own. -/
theorem Within.results_named (h : Within s t) : ∃ added used, t.hostLog = s.hostLog ++ added ∧
    s.transport = used ++ t.transport ∧ ∀ r n, .res r n ∈ added → NamesOperation s used r := by
  obtain ⟨used, hused⟩ := h.replies
  cases hb : t.busy with
  | true =>
    obtain ⟨-, -, hlog, -⟩ := h.going hb
    exact ⟨[], used, by simp [hlog], hused.symm, by simp⟩
  | false =>
    obtain ⟨-, r, hlog, hinit, hdraw⟩ := h.ended hb
    refine ⟨_, used, hlog, hused.symm, fun r' n hr => ?_⟩
    obtain ⟨rfl, -⟩ : r' = r ∧ n = t.trace.length := by simpa using hr
    cases ho : s.op with
    | init =>
      rcases (hinit ho).2 with ⟨hok, -⟩ | ⟨e, he, -, htook⟩
      · exact .inl hok
      · obtain ⟨k, hk⟩ := htook.mem hused.symm
        exact .inr (.inl ⟨ho, e, k, he, hk⟩)
    | draw =>
      rcases hdraw ho with hok | ⟨e, he, hsource, -⟩
      · exact .inl hok
      · exact .inr (.inr ⟨ho, e, he, hsource.imp_right (·.mem hused.symm)⟩)

/-- R73: an operation accepted in `s` adds its request, which is no result, and then its own. -/
theorem Within.results_named_of_accept {op : Op} {fb : List Pixel} (h : Within (accept op fb s) t) {r : Result E}
    {n : Nat} (hr : .res r n ∈ t.hostLog.drop s.hostLog.length) :
    ∃ used, s.transport = used ++ t.transport ∧ NamesOperation (accept op fb s) used r := by
  obtain ⟨added, used, hlog, hused, hnamed⟩ := h.results_named
  exact ⟨used, by simpa using hused, hnamed r n (by simpa [hlog] using hr)⟩

end

end Sys2Proof.Machine
end

section
/-! The obligations of faults and unanswered calls (60_exceptions.md). -/

open Sys2Proof Sys2Proof.Machine

/-- Settles O9: the outstanding call has no answer, and the step waits for it in the same state. -/
theorem unansweredCallHangs : Obligations.UnansweredCallHangs := fun _ _ hb hm hr ht =>
  step_waiting hb hm (answer_none_left hr ht)

/-- Settles O24: the calls before `m` take every reply of the transport, so INIT stands at `m`, and so does every
further step. -/
theorem initHangsAtUnansweredCall : Obligations.InitHangsAtUnansweredCall := by
  intro s pre post m hb hprog hm hr ht
  have hwait : answer m (issue m (okRun pre (accept .init [] s))) =
      .waiting (issue m (okRun pre (accept .init [] s))) :=
    answer_unanswered hm (by simp [okRun_transport, hr])
  have hexec := exec_init_waiting hb hprog ⟨by simp [hr], ht⟩ hwait
  obtain ⟨htrace, hbusy, hpending, hupc, hlog⟩ := initOutcome_waiting hwait
  exact ⟨_, hexec, hbusy, by simp, hupc, hpending, htrace, hlog, step_waiting hbusy hpending hwait⟩

/-- Settles O47: by `Within` from the acceptance of the request, or from the running operation; a DRAW of the wrong
length takes no reply. -/
theorem resultsNameTheirOperation : Obligations.ResultsNameTheirOperation := by
  refine ⟨fun s t r n h hr => ?_, fun s t fb len r n h hr => ?_, fun s t r n _ hb h hr => ?_⟩
  · obtain rfl := exec_init_inv h
    obtain ⟨used, hused, hnamed⟩ := (within_finishRun (accept_busy ..)).results_named_of_accept hr
    exact ⟨used, hused, by simpa [NamesOperation] using hnamed⟩
  · have hb := exec_draw_idle h
    by_cases hl : len = s.cfg.w * s.cfg.h
    · rw [exec_draw_eq hb hl] at h
      cases h
      obtain ⟨used, hused, hnamed⟩ := (within_finishRun (accept_busy ..)).results_named_of_accept hr
      exact ⟨used, hused, by simpa [NamesOperation, hl] using hnamed⟩
    · rw [exec_draw_rejected hb hl] at h
      cases h
      obtain ⟨rfl, -⟩ : r = .lenErr ∧ n = s.trace.length := by simpa using hr
      exact ⟨[], rfl, .inr (.inl ⟨rfl, hl⟩)⟩
  · obtain ⟨added, used, hlog, hused, hnamed⟩ := ((step_cases h).within_of_busy hb).results_named
    exact ⟨used, hused, hnamed r n (by simpa [hlog] using hr)⟩

end

section
/-! Construction by the six bounds of its configuration (R7, R8, R186). -/

namespace Sys2Proof.Machine

variable {E : Type} {c : Cfg}

/-- R7, R8: the check at construction is the six bounds, in the order R186 lists them. -/
theorem valid_iff_bounds : c.valid = true ↔
    c.w ≤ 240 ∧ c.h ≤ 320 ∧ c.rOff + c.h ≤ 320 ∧ c.cOff + c.w ≤ 240 ∧ 1 ≤ c.w ∧ 1 ≤ c.h := by
  constructor
  · intro h
    obtain ⟨hw, hh, hcols, hrows, hrow, hcol⟩ := valid_bounds h
    exact ⟨hcols, hrows, hrow, hcol, hw, hh⟩
  · rintro ⟨hcols, hrows, hrow, hcol, hw, hh⟩
    simp [Cfg.valid, Cfg.pw, Cfg.ph, hcols, hrows, hrow, hcol, hw, hh]

/-- R186, K17: a configuration that breaks a bound makes no block. -/
theorem construct_of_not_valid (h : ¬c.valid = true) : construct (E := E) c = .refused .badConfiguration :=
  if_neg h

end Sys2Proof.Machine
end

section
/-! An operation every call of which gets an answer, whatever the answers, comes to its end (R170, R205, R206). -/

namespace Sys2Proof.Machine

/-! ### The answers at hand -/

section

variable {E : Type} {m : MicroOp} {ops pre post : List MicroOp} {s t : State.Over E}

/-- R98, R170: a call is left waiting only by its own agent, which has no reply left or a silent one next. -/
theorem no_reply_of_waiting (h : answer m s = .waiting t) :
    (fallible m = true → s.transport = [] ∨ .silent ∈ s.transport) ∧
      (fallible m = false → s.timing = [] ∨ .silent ∈ s.timing) := by
  cases hf : fallible m with
  | true =>
    refine ⟨fun _ => ?_, by simp⟩
    simp only [answer, hf, if_true, answerTransport] at h
    split at h <;> cases h
    · next hnil => exact .inl hnil
    · next hsilent => exact .inr (by simp [hsilent])
  | false =>
    refine ⟨by simp, fun _ => ?_⟩
    simp only [answer, hf, Bool.false_eq_true, if_false, answerDelay] at h
    split at h <;> cases h
    · next hnil => exact .inl hnil
    · next hsilent => exact .inr (by simp [hsilent])

/-- The outside has a reply for every call of a list, and none of its replies is silent (the premise of R206, "every
call is answered"); `Ok` or `Err(e)` is its choice. -/
def EnoughReplies (ops : List MicroOp) (s : State.Over E) : Prop :=
  fallibleCount ops ≤ s.transport.length ∧ waitCount ops ≤ s.timing.length ∧ .silent ∉ s.transport ∧ .silent ∉ s.timing

/-- Of a queue without silent replies, not all of it used, something is left, and nothing silent in it. -/
theorem answer_left {α : Type} {queue : List α} {silent : α} {used : Nat} (hused : used < queue.length)
    (h : silent ∉ queue) : ¬(queue.drop used = [] ∨ silent ∈ queue.drop used) := by
  rintro (hnil | hmem)
  · exact absurd (List.drop_eq_nil_iff.1 hnil) hused.not_ge
  · exact h (List.mem_of_mem_drop hmem)

/-- R98: with a reply for every call, a list does not stop waiting at any. -/
theorem EnoughReplies.not_waiting (h : EnoughReplies (pre ++ m :: post) s) :
    answer m (issue m (okRun pre s)) ≠ .waiting t := by
  intro hw
  obtain ⟨htransport, htiming, hspeaks, hticks⟩ := h
  obtain ⟨hset, hdelay⟩ := no_reply_of_waiting hw
  rw [fallibleCount_append, fallibleCount_cons] at htransport
  rw [waitCount_append, waitCount_cons] at htiming
  cases hf : fallible m with
  | true =>
    rw [if_pos hf] at htransport
    exact answer_left (by omega) hspeaks (okRun_transport pre s ▸ hset hf)
  | false =>
    rw [hf, if_neg Bool.false_ne_true] at htiming
    exact answer_left (by omega) hticks (okRun_timing pre s ▸ hdelay hf)

/-- Of `k` replies none of which is silent, all are `Ok`, or there is a first `Err(e)`. -/
theorem replies_ok_or_first_err {replies : List (Reply E)} {k : Nat} (hk : k ≤ replies.length)
    (hspeaks : .silent ∉ replies) : replies.take k = List.replicate k .ok ∨
      ∃ u e n rest, u < k ∧ replies = List.replicate u .ok ++ .err e n :: rest := by
  induction k generalizing replies with
  | zero => exact .inl rfl
  | succ k ih =>
    obtain _ | ⟨_ | _ | ⟨e, n⟩, rest⟩ := replies
    · simp at hk
    · simp at hspeaks
    · rcases ih (by simpa using hk) (by simpa using hspeaks) with hall | ⟨u, e, n, later, hu, hrest⟩
      · exact .inl (by simp [hall, List.replicate_succ])
      · exact .inr ⟨u + 1, e, n, later, by omega, by simp [hrest, List.replicate_succ]⟩
    · exact .inr ⟨0, e, n, rest, by omega, rfl⟩

/-- R98: a reply that is not silent is an answer. -/
theorem exists_replyAnswer {r : Reply E} (h : r ≠ .silent) : ∃ a, replyAnswer r = some a := by
  cases r with
  | silent => exact absurd rfl h
  | ok => exact ⟨_, rfl⟩
  | err e n => exact ⟨_, rfl⟩

end

/-! ### The ends of INIT and DRAW -/

variable {s t : State} {fb : List Pixel} {len : Nat} {events : List (Event BusError)} {upc : Nat}
  {r : Result BusError}

/-- R205, R206: the operation `op` started in `s` and is over in `t`, with the result `r` and no other. -/
structure EndsWith (op : Op) (s t : State) (r : Result BusError) : Prop where
  busy : t.busy = false
  log : t.hostLog = s.hostLog ++ [.req op s.trace.length, .res r t.trace.length]

theorem InitOutcome.endsWith (h : InitOutcome s t events none upc (some r)) : EndsWith .init s t r :=
  ⟨h.busy, h.log⟩

/-- R206: an INIT every call of which is answered ends, at its first error if there is one (R136). -/
theorem exec_init_ends (hb : s.busy = false) (h : EnoughReplies (initProg s.cfg) s) :
    ∃ t r, exec .init s = .next t ∧ EndsWith .init s t r ∧ t.pending = none ∧ (r = .ok ∨ ∃ e, r = .initErr e) := by
  have haccept : EnoughReplies (initProg s.cfg) (accept .init [] s) := by simpa [EnoughReplies] using h
  rcases runOps_cases (initProg s.cfg) (s := accept .init [] s) (cleaning_init (accept_op ..)) with
    ⟨hall, -⟩ | ⟨pre, m, post, hprog, hpre, ⟨t, hw, -⟩ | ⟨hm, e, n, rs, hr, -⟩⟩
  · have hend := initOutcome_answered (s := s)
    exact ⟨_, .ok, exec_init_answered hb (allAnswered_accept.1 hall), hend.endsWith, hend.pending, .inl rfl⟩
  · exact absurd hw (EnoughReplies.not_waiting (hprog ▸ haccept))
  · have hend := initOutcome_err (s := s) (pre := pre) (m := m) e n rs
    have hnext : s.transport.drop (fallibleCount pre) = .err e n :: rs := by simpa [okRun_transport] using hr
    exact ⟨_, .initErr e, exec_init_err hb hprog (allAnswered_accept.1 hpre) hm hnext, hend.endsWith, hend.pending,
      .inr ⟨e, rfl⟩⟩

/-- R206: a DRAW of the right length every call of which is answered ends; after an error the clean-up's release is
answered too, by the reply that comes next (R150). -/
theorem exec_draw_ends (hb : s.busy = false) (hl : len = s.cfg.w * s.cfg.h) (hk : 18 ≤ s.transport.length)
    (hspeaks : .silent ∉ s.transport) :
    ∃ t r, exec (.draw fb len) s = .next t ∧ EndsWith .draw s t r ∧ (r = .ok ∨ ∃ e, r = .drawErr e) := by
  rcases replies_ok_or_first_err hk hspeaks with hall | ⟨u, e, n, rest, hu, hr⟩
  · exact ⟨_, .ok, exec_draw_answered hb hl hall, by constructor <;> simp [finish_drawRun], .inl rfl⟩
  · rcases Nat.lt_succ_iff_lt_or_eq.1 hu with hu | rfl
    · obtain _ | ⟨reply, rs⟩ := rest
      · simp [hr] at hk
        omega
      obtain ⟨a, ha⟩ := exists_replyAnswer (r := reply) (by rintro rfl; simp [hr] at hspeaks)
      have hm : (drawProg s.cfg fb)[u]? = some _ := List.getElem?_eq_getElem (by rw [drawProg_length]; omega)
      obtain ⟨t, hexec, -, -, -, -, hlog, -⟩ := exec_draw_cleaned_up hb hl hu hm hr ha
      exact ⟨_, .drawErr e, hexec, ⟨rfl, by simp [endCleanup, hlog]⟩, .inr ⟨e, rfl⟩⟩
    · exact ⟨_, .drawErr e, exec_draw_last_err hb hl hr, ⟨rfl, by simp⟩, .inr ⟨e, rfl⟩⟩

/-- R143: a DRAW of the wrong length ends at once. -/
theorem endsWith_rejectLength (hb : s.busy = false) : EndsWith .draw s (rejectLength s) .lenErr := ⟨hb, rfl⟩

end Sys2Proof.Machine
end

section
/-! The obligations of construction and of the end of every operation (70_reset_and_hazards.md). -/

open Sys2Proof Sys2Proof.Machine

/-- Settles O48: the replies are enough for every call, so the executor stops waiting at none, and a run that does not
wait ends; a DRAW of the wrong length makes no call. -/
theorem answeredOperationEnds : Obligations.AnsweredOperationEnds := by
  refine ⟨fun s hb htransport htiming hspeaks hticks => ?_, fun s fb len hb hk hspeaks => ?_⟩
  · obtain ⟨t, r, hexec, hend, hpending, hr⟩ :=
      exec_init_ends hb ⟨htransport, htiming, fun h => hspeaks _ h rfl, fun h => hticks _ h rfl⟩
    exact ⟨t, r, hexec, hend.busy, hpending, hr, hend.log⟩
  · by_cases hl : len = s.cfg.w * s.cfg.h
    · obtain ⟨t, r, hexec, hend, hr⟩ := exec_draw_ends (fb := fb) hb hl hk fun h => hspeaks _ h rfl
      have hne : r ≠ .lenErr := by rcases hr with rfl | ⟨e, rfl⟩ <;> simp
      exact ⟨t, r, hexec, hend.busy, hr.imp_right .inr, iff_of_false hne (not_not_intro hl), hend.log⟩
    · have hend := endsWith_rejectLength hb
      exact ⟨_, .lenErr, exec_draw_rejected hb hl, hend.busy, .inr (.inl rfl), iff_of_true rfl hl, hend.log⟩

/-- Settles O1: construction checks the six bounds, and looks at nothing else. -/
theorem constructionChecksGeometry : Obligations.ConstructionChecksGeometry := fun _ _ =>
  ⟨fun h => construct_of_valid (valid_iff_bounds.2 h), fun h => construct_of_not_valid (mt valid_iff_bounds.1 h)⟩

end
